-- ==== Sys2Proof/Word.lean ====
section
/-! DEFINITION. The word types and the small enumerations of spec/00_scope.md rules R9 and R10. -/

namespace Sys2Proof

/-- R9: an 8-bit unsigned value. -/
abbrev Byte := BitVec 8

/-- R9: a 16-bit value, read as two's complement where a rule says `s16`. -/
abbrev Half := BitVec 16

/-- R52: a request is one 48-bit word. -/
abbrev Request := BitVec 48

/-- R10, R71: microseconds, an unbounded natural number. -/
abbrev Time := Nat

/-- R10: the logical level of a line; `low` is 0 and `high` is 1 when used as a bit. -/
inductive Level where
  | low
  | high
deriving DecidableEq, Repr, Inhabited

/-- R10: a level used as a bit. -/
def Level.bit : Level → Bool
  | .low => false
  | .high => true

/-- R10: a bit used as a level. -/
def Level.ofBit : Bool → Level
  | false => .low
  | true => .high

/-- R10: the clock line and the data line of the handle. -/
inductive Line where
  | clk
  | dat
deriving DecidableEq, Repr, Inhabited

/-- R10, R17: the operating mode. -/
inductive Mode where
  | polled
  | continuous
deriving DecidableEq, Repr, Inhabited

/-- R10, R21: the host's drive of one line. -/
inductive Drive where
  | drivenLow
  | drivenHigh
  | released
deriving DecidableEq, Repr, Inhabited

/-- R22: the peripheral's drive of one line. -/
inductive DevDrive where
  | low
  | released
deriving DecidableEq, Repr, Inhabited

end Sys2Proof
end

