-- ==== Sys2Proof/Syntax.lean ====
section
/-! DEFINITION. The 22 requests of spec/30_encoding.md rule R53 with the operands of rule R56, and the assembler lines and
pseudo-instructions of rules R58 and R59. -/

namespace Sys2Proof

/-- R53: one constructor per row of spec/opcode_table.json, in the table's order. -/
inductive Instr where
  /-- INITIALIZE (R90) -/
  | initializeDevice
  /-- POLL_REPORT (R101) -/
  | pollReport
  /-- SET_POLLED_MODE (R92) -/
  | setPolledMode
  /-- SET_CONTINUOUS_MODE (R93) -/
  | setContinuousMode
  /-- SET_SAMPLE_RATE (R97) -/
  | setSampleRate (rate : Byte)
  /-- SET_RESOLUTION (R98) -/
  | setResolution (value : Byte)
  /-- SET_SCALING_2TO1 (R99) -/
  | setScaling2to1
  /-- SET_SCALING_1TO1 (R100) -/
  | setScaling1to1
  /-- ENABLE_REPORTING (R95) -/
  | enableReporting
  /-- DISABLE_REPORTING (R96) -/
  | disableReporting
  /-- GET_PINS (R104) -/
  | getPins
  /-- SELECT_MODE (R91): the mode-select command byte and the target mode -/
  | selectMode (cmd : Byte) (target : Mode)
  /-- WRITE_BYTE (R81) -/
  | writeByte (data : Byte)
  /-- READ_BYTE (R83) -/
  | readByte
  /-- WAIT_CLOCK_BOUNDED (R75): target level and timeout in microseconds -/
  | waitClockBounded (level : Level) (timeout : Time)
  /-- DRIVE_LOW (R64) -/
  | driveLow (line : Line)
  /-- DRIVE_HIGH (R65) -/
  | driveHigh (line : Line)
  /-- RELEASE (R66) -/
  | release (line : Line)
  /-- SAMPLE (R67) -/
  | sample (line : Line)
  /-- SEND_BIT (R78) -/
  | sendBit (bit : Bool)
  /-- RECV_BIT (R79) -/
  | recvBit
  /-- WAIT_LEVEL (R74): line and level -/
  | waitLevel (line : Line) (level : Level)
deriving DecidableEq, Repr

/-- R58: an operand of an assembler line. -/
inductive AsmOperand where
  /-- a byte, or a `0`/`1` bit or level, or a microsecond count -/
  | number (n : Nat)
  /-- `CLK` or `DAT` -/
  | line (l : Line)
  /-- `Low` or `High` -/
  | level (v : Level)
  /-- `Polled` or `Continuous` -/
  | mode (m : Mode)
  /-- the ratio `2:1` of `SET_SCALING 2:1` -/
  | twoToOne
  /-- the ratio `1:1` of `SET_SCALING 1:1` -/
  | oneToOne
deriving DecidableEq, Repr

/-- R58: an assembler line, `MNEMONIC [operand[, operand]]`, its comment dropped. -/
structure AsmLine where
  mnemonic : String
  operands : List AsmOperand
deriving DecidableEq, Repr

/-- R58: a level or bit operand, `0`/`1` or `Low`/`High`. -/
def AsmOperand.toLevel : AsmOperand → Option Level
  | .number 0 => some .low
  | .number 1 => some .high
  | .level v => some v
  | _ => none

/-- R58: a byte operand, 0..255. -/
def AsmOperand.toByte : AsmOperand → Option Byte
  | .number n => if n < 256 then some (BitVec.ofNat 8 n) else none
  | _ => none

/-- R58, R59: the request an assembler line names; the four pseudo-instructions stand for their expansions. -/
def AsmLine.toInstr (a : AsmLine) : Option Instr :=
  match a.mnemonic, a.operands with
  | "INITIALIZE", [] => some .initializeDevice
  | "POLL_REPORT", [] => some .pollReport
  | "SET_POLLED_MODE", [] => some .setPolledMode
  | "SET_CONTINUOUS_MODE", [] => some .setContinuousMode
  | "SET_SAMPLE_RATE", [r] => r.toByte.map .setSampleRate
  | "SET_RESOLUTION", [n] => n.toByte.map .setResolution
  | "SET_SCALING_2TO1", [] => some .setScaling2to1
  | "SET_SCALING_1TO1", [] => some .setScaling1to1
  | "ENABLE_REPORTING", [] => some .enableReporting
  | "DISABLE_REPORTING", [] => some .disableReporting
  | "GET_PINS", [] => some .getPins
  | "SELECT_MODE", [c, .mode m] => c.toByte.map fun b => .selectMode b m
  | "WRITE_BYTE", [v] => v.toByte.map .writeByte
  | "READ_BYTE", [] => some .readByte
  | "WAIT_CLOCK_BOUNDED", [v, .number t] => v.toLevel.map fun l => .waitClockBounded l t
  | "DRIVE_LOW", [.line l] => some (.driveLow l)
  | "DRIVE_HIGH", [.line l] => some (.driveHigh l)
  | "RELEASE", [.line l] => some (.release l)
  | "SAMPLE", [.line l] => some (.sample l)
  | "SEND_BIT", [b] => b.toLevel.map fun v => .sendBit v.bit
  | "RECV_BIT", [] => some .recvBit
  | "WAIT_LEVEL", [.line l, v] => v.toLevel.map fun x => .waitLevel l x
  | "SET_SCALING", [.twoToOne] => some .setScaling2to1
  | "SET_SCALING", [.oneToOne] => some .setScaling1to1
  | "SET_MODE", [.mode .polled] => some .setPolledMode
  | "SET_MODE", [.mode .continuous] => some .setContinuousMode
  | _, _ => none

end Sys2Proof
end

