-- ==== Sys2Proof/WellFormed.lean ====
section
/-! DEFINITION. Which requests the 48-bit request word can carry (spec/30_encoding.md rule R52). Every operand but the
timeout has exactly the width of its field by its type. -/

namespace Sys2Proof

/-- R52, R56: the timeout of WAIT_CLOCK_BOUNDED is the 32-bit field `tmo`. -/
def Instr.wellFormed : Instr → Bool
  | .initializeDevice | .pollReport | .setPolledMode | .setContinuousMode | .setSampleRate _ | .setResolution _
  | .setScaling2to1 | .setScaling1to1 | .enableReporting | .disableReporting | .getPins | .selectMode _ _
  | .writeByte _ | .readByte | .driveLow _ | .driveHigh _ | .release _ | .sample _ | .sendBit _ | .recvBit
  | .waitLevel _ _ => true
  | .waitClockBounded _ t => decide (t < 2 ^ 32)

end Sys2Proof
end

