-- ==== Sys2Proof/Decode.lean ====
section
/-! DEFINITION. The request word: fields (spec/30_encoding.md rule R52), operation codes (R53), decoding (R54), operand
forms (R56), and after it the encoder (R52, R58). -/

namespace Sys2Proof

/-- R52: bits 47:40. -/
def Request.op (w : Request) : Byte := w.extractLsb' 40 8

/-- R52: bits 39:32. -/
def Request.arg (w : Request) : Byte := w.extractLsb' 32 8

/-- R52: bits 31:0. -/
def Request.tmo (w : Request) : BitVec 32 := w.extractLsb' 0 32

/-- R56: the bit operand `req[32]`. -/
def Request.bit (w : Request) : Bool := w.getLsbD 32

/-- R56: the level operand `req[32]`. -/
def Request.level (w : Request) : Level := Level.ofBit (w.getLsbD 32)

/-- R56: the level operand `req[33]` of WAIT_LEVEL. -/
def Request.waitLevel (w : Request) : Level := Level.ofBit (w.getLsbD 33)

/-- R56: the line selector `req[32]`, 0 for CLK and 1 for DAT. -/
def Request.line (w : Request) : Line := if w.getLsbD 32 then .dat else .clk

/-- R56: the target mode `req[0]`, 0 for Polled and 1 for Continuous. -/
def Request.target (w : Request) : Mode := if w.getLsbD 0 then .continuous else .polled

/-- R56: the timeout `zext(req[31:0])`. -/
def Request.timeout (w : Request) : Time := w.tmo.toNat

/-- R54: why a word is no request, with its operation code. -/
inductive DecodeError where
  /-- the `op` field is not in rule R53's table; the engine answers IllegalRequest -/
  | illegalRequest (op : Byte)
deriving DecidableEq, Repr

/-- R53, R54: total on every 48-bit word; `op` alone selects the operation and unused fields are ignored. -/
def decode (w : Request) : Except DecodeError Instr :=
  match w.op with
  | 0x01#8 => .ok .initializeDevice
  | 0x02#8 => .ok .pollReport
  | 0x03#8 => .ok .setPolledMode
  | 0x04#8 => .ok .setContinuousMode
  | 0x05#8 => .ok (.setSampleRate w.arg)
  | 0x06#8 => .ok (.setResolution w.arg)
  | 0x07#8 => .ok .setScaling2to1
  | 0x08#8 => .ok .setScaling1to1
  | 0x09#8 => .ok .enableReporting
  | 0x0A#8 => .ok .disableReporting
  | 0x0B#8 => .ok .getPins
  | 0x40#8 => .ok (.selectMode w.arg w.target)
  | 0x80#8 => .ok (.writeByte w.arg)
  | 0x81#8 => .ok .readByte
  | 0x82#8 => .ok (.waitClockBounded w.level w.timeout)
  | 0x90#8 => .ok (.driveLow w.line)
  | 0x91#8 => .ok (.driveHigh w.line)
  | 0x92#8 => .ok (.release w.line)
  | 0x93#8 => .ok (.sample w.line)
  | 0xA0#8 => .ok (.sendBit w.bit)
  | 0xA1#8 => .ok .recvBit
  | 0xA2#8 => .ok (.waitLevel w.line w.waitLevel)
  | op => .error (.illegalRequest op)

/-- The host's question: the instruction the decoder reads from a word whose bits are `w` numbered as
spec/opcode_table.json numbers them. A request is one 48-bit word (R52), so it is that word, its bits from `nbits` up zero
(DEDUCED, log 22, safe); bits that no request word has are no request. -/
def decodeTableWord (nbits w : Nat) : Option Instr :=
  if w % 2 ^ nbits < 2 ^ 48 then
    match decode (BitVec.ofNat 48 (w % 2 ^ nbits)) with
    | .ok i => some i
    | .error _ => none
  else none

/-- R53: the operation code of a request. -/
def Instr.op : Instr → Byte
  | .initializeDevice => 0x01
  | .pollReport => 0x02
  | .setPolledMode => 0x03
  | .setContinuousMode => 0x04
  | .setSampleRate _ => 0x05
  | .setResolution _ => 0x06
  | .setScaling2to1 => 0x07
  | .setScaling1to1 => 0x08
  | .enableReporting => 0x09
  | .disableReporting => 0x0A
  | .getPins => 0x0B
  | .selectMode _ _ => 0x40
  | .writeByte _ => 0x80
  | .readByte => 0x81
  | .waitClockBounded _ _ => 0x82
  | .driveLow _ => 0x90
  | .driveHigh _ => 0x91
  | .release _ => 0x92
  | .sample _ => 0x93
  | .sendBit _ => 0xA0
  | .recvBit => 0xA1
  | .waitLevel _ _ => 0xA2

/-- R53, R56: a line as the value of `arg[0]`. -/
def Line.code : Line → Byte
  | .clk => 0
  | .dat => 1

/-- R53, R56: a level as the value of `arg[0]`. -/
def Level.code : Level → Byte
  | .low => 0
  | .high => 1

/-- R53, R56: the `arg` field of a request, 0 where it is unused (R58). -/
def Instr.arg : Instr → Byte
  | .initializeDevice | .pollReport | .setPolledMode | .setContinuousMode | .setScaling2to1 | .setScaling1to1
  | .enableReporting | .disableReporting | .getPins | .readByte | .recvBit => 0
  | .setSampleRate r => r
  | .setResolution n => n
  | .selectMode c _ => c
  | .writeByte v => v
  | .waitClockBounded v _ => v.code
  | .driveLow l | .driveHigh l | .release l | .sample l => l.code
  | .sendBit b => (Level.ofBit b).code
  | .waitLevel l v => l.code + 2 * v.code

/-- R53, R56: the `tmo` field of a request, 0 where it is unused (R58). -/
def Instr.tmo : Instr → BitVec 32
  | .initializeDevice | .pollReport | .setPolledMode | .setContinuousMode | .setSampleRate _ | .setResolution _
  | .setScaling2to1 | .setScaling1to1 | .enableReporting | .disableReporting | .getPins | .writeByte _ | .readByte
  | .driveLow _ | .driveHigh _ | .release _ | .sample _ | .sendBit _ | .recvBit | .waitLevel _ _ => 0
  | .selectMode _ m => if m = .continuous then 1 else 0
  | .waitClockBounded _ t => BitVec.ofNat 32 t

/-- R52: the word `op : arg : tmo`. -/
def Request.pack (op arg : Byte) (tmo : BitVec 32) : Request := op ++ arg ++ tmo

/-- R52, R58: the word of a request, unused fields 0. -/
def encode (i : Instr) : Request := Request.pack i.op i.arg i.tmo

/-- R58: the word an assembler line stands for. R58 gives no range for the microsecond count of WAIT_CLOCK_BOUNDED; that a count the
32 bits of `tmo` (R52) cannot hold stands for no word is the model's choice (DESIGN CHOICE, log 30, safe). -/
def AsmLine.toWord (a : AsmLine) : Option Request :=
  a.toInstr.bind fun i => if i.wellFormed then some (encode i) else none

end Sys2Proof
end

