-- ==== Sys2Proof/Config.lean ====
section
/-! DEFINITION. The implementation parameters of spec/00_scope.md rule R8 and spec/10_state.md rule R24, their defaults,
and the free values: what the spec leaves open (spec/92_eei_decisions.md, spec/93_implementation_defined.md). -/

namespace Sys2Proof

/-- `P_WAIT_POLICY` (R73, D5). -/
inductive WaitPolicy where
  | bounded
  | unbounded
deriving DecidableEq, Repr, Inhabited

/-- `P_STRICT` (R24). -/
inductive Checking where
  | lenient
  | strict
deriving DecidableEq, Repr, Inhabited

/-- `P_FLAG_POLICY` (D18). -/
inductive FlagPolicy where
  | exclusive
  | setOnly
deriving DecidableEq, Repr, Inhabited

/-- `P_REENABLE_GUARD` (D19). -/
inductive ReenableGuard where
  | target
  | recorded
deriving DecidableEq, Repr, Inhabited

/-- `P_DATA_ONE` (D9). -/
inductive DataOne where
  | release
  | driveHigh
deriving DecidableEq, Repr, Inhabited

/-- R141: the nine places where a procedure delays. -/
inductive Delay where
  | wrRelease
  | wrInhibit
  | wrStart
  | rdRelease
  | rdStart
  | initRelease
  | initReset
  | initFinal
  | modeSettle
deriving DecidableEq, Repr, Inhabited

/-- R8, D29: which names other than 0 and 1 are pin identifiers: the parameter `PinId`, uninterpreted (log 20, safe). -/
opaque Config.isPin : Nat → Bool

/-- R16, D29: a pin identifier, of the opaque type the model is given, which has equality and two members at least (R125). It is
written down as one of the names of that type, which are uninterpreted but for the two that `State.reset` needs (DESIGN CHOICE,
log 20, safe). The engine only passes an identifier to the pin abstraction and compares it. -/
structure PinId where
  name  : Nat
  isPin : name < 2 ∨ Config.isPin name = true
deriving DecidableEq, Repr

/-- Two pin identifiers, which differ (log 7). -/
def PinId.first : PinId := ⟨0, .inl (by decide)⟩

/-- Two pin identifiers, which differ (log 7). -/
def PinId.second : PinId := ⟨1, .inl (by decide)⟩

/-- R8, R24: the configuration of a handle, fixed for its lifetime (D45). The spec passes it to the model as an argument;
State carries it as a record no step writes (DESIGN CHOICE, log 10, safe). -/
structure Config where
  strict           : Checking
  waitPolicy       : WaitPolicy
  timeoutUs        : Time
  flagPolicy       : FlagPolicy
  reenableGuard    : ReenableGuard
  dataOne          : DataOne
  ackByte          : Byte
  cmdReset         : Byte
  cmdSetPolled     : Byte
  cmdSetContinuous : Byte
  cmdEnable        : Byte
  cmdDisable       : Byte
  cmdSetSampleRate : Byte
  cmdScaling2to1   : Byte
  cmdScaling1to1   : Byte
  cmdReadData      : Byte
  tWrRelease       : Time
  tWrInhibit       : Time
  tWrStart         : Time
  tRdRelease       : Time
  tRdStart         : Time
  tInitRelease     : Time
  tInitReset       : Time
  tInitFinal       : Time
  tModeSettle      : Time
  /-- `W_TIME` (D7): `none` is the unbounded default. -/
  timeWidth        : Option Nat
deriving DecidableEq, Repr, Inhabited

/-- R141: the duration parameter of a delay. -/
def Config.delayOf (c : Config) : Delay → Time
  | .wrRelease   => c.tWrRelease
  | .wrInhibit   => c.tWrInhibit
  | .wrStart     => c.tWrStart
  | .rdRelease   => c.tRdRelease
  | .rdStart     => c.tRdStart
  | .initRelease => c.tInitRelease
  | .initReset   => c.tInitReset
  | .initFinal   => c.tInitFinal
  | .modeSettle  => c.tModeSettle

/-- R27, R71: one move of the environment, answering one observation of the engine (a sample, a clock read, a delay).
`dt` is the time that has passed since the previous one (for a delay: the excess over its length), `clk` and `dat` are the
peripheral's drives at that instant, and `draw` is the level a sample reads under contention (R63, D10). -/
structure EnvMove where
  dt   : Time
  clk  : DevDrive
  dat  : DevDrive
  draw : Level
deriving DecidableEq, Repr, Inhabited

/-- R27, D43: the environment's `n`-th move where none has been placed in State: a free value, of which nothing is known
(log 1, safe). -/
opaque Config.freeMove : Nat → EnvMove

/-- R71, D35: how much time the environment lets pass at the `n`-th line-control step where no amount has been placed in State: a
free value, of which nothing is known (log 28, safe). -/
opaque Config.freeLag : Nat → Time

/-- D5: `P_TIMEOUT_US` is OPEN: an uninterpreted constant (log 9, safe). -/
opaque Config.openTimeoutUs : Time

/-- D12: every delay duration is OPEN: uninterpreted constants (log 9, safe). -/
opaque Config.openDelayUs : Delay → Time

/-- R8, R50: the default configuration; the OPEN parameters are the uninterpreted constants above. The command bytes and
the acknowledgment byte are the spec's own defaults from general knowledge (PRESUMED, log 13, unsafe). -/
def Config.default : Config where
  strict           := .lenient
  waitPolicy       := .bounded
  timeoutUs        := Config.openTimeoutUs
  flagPolicy       := .exclusive
  reenableGuard    := .target
  dataOne          := .release
  ackByte          := 0xFA
  cmdReset         := 0xFF
  cmdSetPolled     := 0xF0
  cmdSetContinuous := 0xEA
  cmdEnable        := 0xF4
  cmdDisable       := 0xF5
  cmdSetSampleRate := 0xF3
  cmdScaling2to1   := 0xE7
  cmdScaling1to1   := 0xE6
  cmdReadData      := 0xEB
  tWrRelease       := Config.openDelayUs .wrRelease
  tWrInhibit       := Config.openDelayUs .wrInhibit
  tWrStart         := Config.openDelayUs .wrStart
  tRdRelease       := Config.openDelayUs .rdRelease
  tRdStart         := Config.openDelayUs .rdStart
  tInitRelease     := Config.openDelayUs .initRelease
  tInitReset       := Config.openDelayUs .initReset
  tInitFinal       := Config.openDelayUs .initFinal
  tModeSettle      := Config.openDelayUs .modeSettle
  timeWidth        := none

end Sys2Proof
end

