-- ==== Sys2Proof/Machine/State.lean ====
section
/-! DEFINITION. The engine's state (spec/10_state.md rules R14 to R28), the agents around it, faults and refusals, and the
state after construction. -/

namespace Sys2Proof.Machine

/-- R57: the response codes. -/
inductive ResponseCode where
  | ok
  | busTimeout
  | unexpectedAcknowledgment
  | parityError
  | framingError
  | illegalRequest
deriving DecidableEq, Repr, Inhabited

/-- R25: the Motion Report. -/
structure Report where
  status : Byte
  dx     : Half
  dy     : Half
deriving DecidableEq, Repr, Inhabited

/-- R57: what a response carries beside its code. -/
inductive Payload where
  | none
  | report (r : Report)
  | byte (v : Byte)
  | bit (b : Bool)
  | level (v : Level)
  | reached (r : Bool)
  | pins (clockPin dataPin : PinId)
deriving DecidableEq, Repr, Inhabited

/-- R57: a response. -/
structure Response where
  code    : ResponseCode
  payload : Payload
deriving DecidableEq, Repr, Inhabited

/-- R62, R71: the events of the bus trace. -/
inductive Event where
  | low (l : Line)
  | high (l : Line)
  | rel (l : Line)
  | smp (l : Line) (v : Level)
  | dly (n : Time)
  | now (t : Time)
deriving DecidableEq, Repr, Inhabited

/-- R23: the transient frame. `parity` of a write is the accumulated parity; `parity` and `stop` of a read hold no value
until they are received. When the bit index `i` is written is the model's choice: the pseudocode of R81 and R83 assigns it nowhere
and no rule reads it (DESIGN CHOICE, log 29). -/
structure Frame where
  data   : Byte
  parity : Option Bool
  stop   : Option Bool
  i      : Fin 8
deriving DecidableEq, Repr, Inhabited

/-- Which of the two users of the bounded wait is waiting (R110): a transfer wait, whose expiry is BusTimeout, or the
diagnostic WAIT_CLOCK_BOUNDED, whose expiry is its result. -/
inductive WaitUse where
  | transfer
  | diagnostic
deriving DecidableEq, Repr, Inhabited

/-- Where the bit that `recv_bit` returns goes: R83 steps 3 and 4, or the response of RECV_BIT (R79). -/
inductive BitDst where
  | data (i : Fin 8)
  | parity
  | stop
  | result
deriving DecidableEq, Repr, Inhabited

/-- Where the byte that `read_byte` returns goes: `check_ack` (R89), the response of READ_BYTE (R83), or the report bytes of
POLL_REPORT (R101) with those already read. -/
inductive ByteDst where
  | ack
  | result
  | status
  | moveX (status : Byte)
  | moveY (status x : Byte)
deriving DecidableEq, Repr, Inhabited

/-- One step of an operation's pseudocode, with the local values it needs. The engine's position (R26) is the list of steps
still to do; a step that calls another operation puts that operation's steps in front (DESIGN CHOICE, log 4, safe). -/
inductive Micro where
  /-- `drive_low(l)` (R64) -/
  | low (l : Line)
  /-- `drive_high(l)` (R65) -/
  | high (l : Line)
  /-- `release(l)` (R66) -/
  | rel (l : Line)
  /-- SAMPLE's sample, whose level is the response (R67) -/
  | samp (l : Line)
  /-- `delay(T_*)` (R71, R141) -/
  | delay (d : Delay)
  /-- the transfer wait (R73) -/
  | wait (l : Line) (v : Level)
  /-- one turn of the unbounded wait's loop (R73) -/
  | poll (l : Line) (v : Level)
  /-- the bounded wait's `start <- now()` (R72) -/
  | bwait (l : Line) (v : Level) (t : Time) (use : WaitUse)
  /-- the bounded wait's sample (R72) -/
  | bwaitSample (l : Line) (v : Level) (t start : Time) (use : WaitUse)
  /-- the bounded wait's deadline check (R72) -/
  | bwaitCheck (l : Line) (v : Level) (t start : Time) (use : WaitUse)
  /-- `present(DAT, b)` (R68) -/
  | present (b : Bool)
  /-- `send_bit(b)` (R78) -/
  | sendBit (b : Bool)
  /-- `recv_bit()` (R79) -/
  | recvBit (dst : BitDst)
  /-- `recv_bit`'s sample of the data line (R79) -/
  | sampleBit (dst : BitDst)
  /-- `recv_bit`'s return (R79) -/
  | bitReturn (dst : BitDst) (b : Bool)
  /-- `write_byte(v)` (R81) -/
  | writeByte (v : Byte)
  /-- the opening of a write's frame (R81 step 6) -/
  | openWrite (v : Byte)
  /-- `send_bit(v[i])` (R81 step 6) -/
  | sendData (i : Fin 8)
  /-- the parity accumulation of bit i (R81 step 6) -/
  | accumulate (i : Fin 8)
  /-- `send_bit(s.frame.parity)` (R81 step 7) -/
  | sendParity
  /-- the end of a write's frame (R81 step 9) -/
  | closeFrame
  /-- `read_byte()` (R83) -/
  | readByte (dst : ByteDst)
  /-- the opening of a read's frame (R83 step 3) -/
  | openRead
  /-- `check_frame()` (R84) -/
  | checkFrame
  /-- `return s.frame.data` (R83 step 7) -/
  | byteReturn (dst : ByteDst)
  /-- `send_cmd(c)` (R89) -/
  | sendCmd (c : Byte)
  /-- `check_ack(a)` (R89) -/
  | checkAck (a : Byte)
  /-- `pause()` (R94), also R91 step 1 -/
  | pause
  /-- `resume()` (R94) -/
  | resume
  /-- `enable_reporting()` (R95) -/
  | enableReporting
  /-- the flag writes of R95 -/
  | setEnabled
  /-- `disable_reporting()` (R96) -/
  | disableReporting
  /-- the flag writes of R96 -/
  | setDisabled
  /-- `select_mode(c, m)` (R91) -/
  | selectMode (c : Byte) (m : Mode)
  /-- R91 step 3 -/
  | reenable (m : Mode)
  /-- R91 step 4 -/
  | modeSettle
  /-- `set_polled_mode()` inside INITIALIZE (R90 step 5) -/
  | setPolledMode
  /-- `s.mode <- m` (R92, R93) -/
  | recordMode (m : Mode)
  /-- R90 step 5 -/
  | initMode
  /-- R90 step 7 -/
  | markInitialized
  /-- `s.report <- ...` (R101) -/
  | writeReport (status x y : Byte)
  /-- `respond(OK, s.report)` (R101) -/
  | respondReport
  /-- `respond(OK, payload)` (R57) -/
  | respond (p : Payload)
deriving DecidableEq, Repr, Inhabited

/-- R26: the operation position. With no step left a busy engine's next step is `respond(OK)`. -/
inductive Pos where
  | idle
  | busy (req : Instr) (todo : List Micro)
deriving DecidableEq, Repr, Inhabited

/-- R15: the Bus Handle, and the agents around it (R22, R27). INVENTORY.md lists every field. -/
structure State where
  clockPin          : PinId
  dataPin           : PinId
  mode              : Mode
  initialized       : Bool
  reportingEnabled  : Bool
  reportingDisabled : Bool
  driveClk          : Drive
  driveDat          : Drive
  frame             : Option Frame
  report            : Option Report
  pos               : Pos
  cfg               : Config
  devClk            : DevDrive
  devDat            : DevDrive
  now               : Time
  env               : List EnvMove
  freeMoves         : Nat
  lags              : List Time
  freeLags          : Nat
  requests          : List Request
  responses         : List Response
  trace             : List Event
deriving DecidableEq, Repr

/-- What the spec has a model fault on (spec/93_implementation_defined.md). No rule of the spec reads either value, so no run
from a well-formed state faults. -/
inductive Fault where
  /-- Raised by a framing step that reads `frame`, or its parity or stop bit, while it holds no value (R23, D31). Safe: the
  model stops. -/
  | frameUnwritten
  /-- Raised by `respond(OK, s.report)` while `report` holds no value (R25). Safe: the model stops. -/
  | reportUnwritten
deriving DecidableEq, Repr

/-- What the spec says has no model state (spec/93_implementation_defined.md, treatment `refuse`). -/
inductive Refusal where
  /-- Raised by an arm of `exec` that has no meaning yet. Safe: nothing can be proved of it. -/
  | notModelled (mnemonic : String)
  /-- Raised by every request's meaning while the engine is busy (R26): the caller issues requests only at `Idle`, so `step`
  never raises it. Safe. -/
  | requestWhileBusy
  /-- Raised by `State.construct` for equal pins (R125, D28). Safe. -/
  | equalPins
deriving DecidableEq, Repr

/-- One atomic step of the engine (R7): it moved, it waits for the environment's answer to an observation, it is idle, or it
met a fault. -/
inductive Tick where
  | moved (s : State)
  | awaiting
  | resting
  | fault (f : Fault)
deriving DecidableEq, Repr

/-- R123, R124, R28: `new(clock_pin, data_pin, mode)`, with the drives the pin abstraction happens to hold (D30). It performs
no event; equal pins are refused (R125). -/
def State.construct (cfg : Config) (clockPin dataPin : PinId) (mode : Mode) (driveClk driveDat : Drive) :
    Host.Outcome State Fault Refusal :=
  if clockPin = dataPin then .refused .equalPins
  else .next
    { clockPin := clockPin
      dataPin := dataPin
      mode := mode
      initialized := false
      reportingEnabled := false
      reportingDisabled := false
      driveClk := driveClk
      driveDat := driveDat
      frame := none
      report := none
      pos := .idle
      cfg := cfg
      devClk := .released
      devDat := .released
      now := 0
      env := []
      freeMoves := 0
      lags := []
      freeLags := 0
      requests := []
      responses := []
      trace := [] }

/-- R28: the state after construction with the default mode and configuration. The two pins (log 7), both drives `Released`
(log 8) and the agents' fields (log 11) are DESIGN CHOICEs, unsafe: the spec gives no value. -/
def State.reset : State where
  clockPin := .first
  dataPin := .second
  mode := .polled
  initialized := false
  reportingEnabled := false
  reportingDisabled := false
  driveClk := .released
  driveDat := .released
  frame := none
  report := none
  pos := .idle
  cfg := Config.default
  devClk := .released
  devDat := .released
  now := 0
  env := []
  freeMoves := 0
  lags := []
  freeLags := 0
  requests := []
  responses := []
  trace := []

end Sys2Proof.Machine
end

