-- ==== Sys2Proof/Machine/Ops.lean ====
section
/-! DEFINITION. The shared operations: events, the environment's answers, the level a sample reads (spec/40_line_control.md
rule R63), time (spec/41_bit_transfer.md rule R71), calling an operation, responding, and ending a request with an error
(spec/60_exceptions.md rule R111). -/

namespace Sys2Proof.Machine

/-- R57, R109: the number of a response code. -/
def ResponseCode.number : ResponseCode → Byte
  | .ok => 0x00
  | .busTimeout => 0x01
  | .unexpectedAcknowledgment => 0x02
  | .parityError => 0x03
  | .framingError => 0x04
  | .illegalRequest => 0x05

/-- R21: the host's drive of a line. -/
def State.drive (s : State) : Line → Drive
  | .clk => s.driveClk
  | .dat => s.driveDat

/-- R21: a line-control write. -/
def State.setDrive (s : State) (l : Line) (d : Drive) : State :=
  { s with
    driveClk := match l with | .clk => d | .dat => s.driveClk
    driveDat := match l with | .clk => s.driveDat | .dat => d }

/-- R22: the peripheral's drive of a line in an environment move. -/
def devDrive (m : EnvMove) : Line → DevDrive
  | .clk => m.clk
  | .dat => m.dat

/-- R62: record an event, in program order. -/
def State.emit (s : State) (e : Event) : State := { s with trace := s.trace ++ [e] }

/-- R26: a nested operation pushes its own position. -/
def Pos.push (ms : List Micro) : Pos → Pos
  | .idle => .idle
  | .busy req todo => .busy req (ms ++ todo)

/-- R26: put an operation's steps in front of those still to do. -/
def State.push (s : State) (ms : List Micro) : State := { s with pos := s.pos.push ms }

/-- R27, R71: the environment takes the move `m`, leaving the moves `rest`. -/
def State.absorb (s : State) (m : EnvMove) (rest : List EnvMove) : State :=
  { s with env := rest, devClk := m.clk, devDat := m.dat, now := s.now + m.dt }

/-- R71, D35: how much time the environment lets pass at the engine's next line-control step: the amount placed, or a free value
where none is placed (log 28). -/
def State.lag (s : State) : Time := s.lags.headD (Config.freeLag s.freeLags)

/-- R71, D35: a step of the engine that is neither a delay nor an observation lets the environment advance time by any amount. -/
def State.letPass (s : State) : State :=
  { s with
    now := s.now + s.lag
    lags := s.lags.tail
    freeLags := match s.lags with | [] => s.freeLags + 1 | _ :: _ => s.freeLags }

/-- R21, R62, R71: a line-control step: the drive of line `l` is written, its event `e` recorded, and time may pass. -/
def State.onLine (s : State) (l : Line) (d : Drive) (e : Event) : State := (s.letPass.setDrive l d).emit e

/-- R63: the level a sample returns, from the host's drive, the peripheral's drive and, under contention, the environment's
draw (D10, log 12). -/
def resolveLevel (d : Drive) (dev : DevDrive) (draw : Level) : Level :=
  match d, dev with
  | .drivenLow, _ => .low
  | .drivenHigh, .low => draw
  | .drivenHigh, .released => .high
  | .released, .low => .low
  | .released, .released => .high

/-- R63: the level of line `l` the engine would sample at the environment move `m`. -/
def State.levelAt (s : State) (l : Line) (m : EnvMove) : Level := resolveLevel (s.drive l) (devDrive m l) m.draw

/-- R67: `sample(l)`, event `SMP(l) = v`, then `k v`; it awaits the environment where no move is placed. -/
def State.onSample (s : State) (l : Line) (k : Level → State → State) : Tick :=
  match s.env with
  | [] => .awaiting
  | m :: rest => .moved (k (s.levelAt l m) ((s.absorb m rest).emit (.smp l (s.levelAt l m))))

/-- R71, D7: the reading of a clock of the configured width at time `t`: that it is the time modulo `2^W_TIME` is inferred from the
modular difference (DEDUCED, log 18). -/
def clockReading (c : Config) (t : Time) : Time :=
  match c.timeWidth with
  | none => t
  | some w => t % 2 ^ w

/-- R71, D7: the time elapsed between two readings, modular for a finite width (log 18). -/
def elapsed (c : Config) (start t : Time) : Time :=
  match c.timeWidth with
  | none => t - start
  | some w => (t + (2 ^ w - start % 2 ^ w)) % 2 ^ w

/-- R71: `now()`, event `NOW = t`, then `k t`. -/
def State.onNow (s : State) (k : Time → State → State) : Tick :=
  match s.env with
  | [] => .awaiting
  | m :: rest =>
    let t := clockReading s.cfg (s.now + m.dt)
    .moved (k t ((s.absorb m rest).emit (.now t)))

/-- R71: `delay(n)`, event `DLY(n)`; time advances by `n` and whatever excess the environment adds. -/
def State.onDelay (s : State) (n : Time) : Tick :=
  match s.env with
  | [] => .awaiting
  | m :: rest => .moved ({ s.absorb m rest with now := s.now + n + m.dt }.emit (.dly n))

/-- R57, R111, R85, R25: end the current request with its one response. The position returns to `Idle`, `frame` holds no
value, and no report is kept between requests (log 14); nothing else changes. -/
def State.finish (s : State) (code : ResponseCode) (payload : Payload) : State :=
  { s with responses := s.responses ++ [⟨code, payload⟩], pos := .idle, frame := none, report := none }

/-- R111: `raise E`: the request and every operation enclosing the step end at once, with no clean-up event; the response
hands control back to the caller (R115). -/
def State.raise (s : State) (code : ResponseCode) : State := s.finish code .none

end Sys2Proof.Machine
end

