-- ==== Sys2Proof/Machine/LineSteps.lean ====
section
/-! DEFINITION. The steps of Line Control (spec/40_line_control.md). `release_both()` (R69) is the two
steps `rel .dat`, `rel .clk` wherever an operation begins with it, data first (D44). Each function says what one step does in a state whose
position already stands after it. -/

namespace Sys2Proof.Machine

/-- R64: event `LOW(l)`. -/
def stepLow (l : Line) (s : State) : Tick := .moved (s.onLine l .drivenLow (.low l))

/-- R65: event `HIGH(l)`. -/
def stepHigh (l : Line) (s : State) : Tick := .moved (s.onLine l .drivenHigh (.high l))

/-- R66: event `REL(l)`. -/
def stepRel (l : Line) (s : State) : Tick := .moved (s.onLine l .released (.rel l))

/-- R67: SAMPLE's event and response. -/
def stepSamp (l : Line) (s : State) : Tick := s.onSample l fun v t => t.push [.respond (.level v)]

/-- R68: the line-control step that puts a data bit on the data line. -/
def presentMicro (c : Config) (b : Bool) : Micro :=
  if b then
    match c.dataOne with
    | .release => .rel .dat
    | .driveHigh => .high .dat
  else .low .dat

/-- R68: `present(DAT, b)`. -/
def stepPresent (b : Bool) (s : State) : Tick := .moved (s.push [presentMicro s.cfg b])

end Sys2Proof.Machine
end

