-- ==== Sys2Proof/Machine/BitSteps.lean ====
section
/-! DEFINITION. The steps of Bit Transfer (spec/41_bit_transfer.md): delays, the bounded and the unbounded wait, and the two
bit operations. -/

namespace Sys2Proof.Machine

/-- R71, R141: `delay(T_*)`. -/
def stepDelay (d : Delay) (s : State) : Tick := s.onDelay (s.cfg.delayOf d)

/-- R73: the transfer wait, by the wait policy. -/
def stepWait (l : Line) (v : Level) (s : State) : Tick :=
  match s.cfg.waitPolicy with
  | .unbounded => .moved (s.push [.poll l v])
  | .bounded => .moved (s.push [.bwait l v s.cfg.timeoutUs .transfer])

/-- R73: one turn of the unbounded loop; where the level never comes it samples for ever (R128). -/
def stepPoll (l : Line) (v : Level) (s : State) : Tick :=
  s.onSample l fun x t => if x = v then t else t.push [.poll l v]

/-- R72, R110: the bounded wait returns its verdict to its user. -/
def waitDone (use : WaitUse) (reached : Bool) (s : State) : State :=
  match use, reached with
  | .transfer, true => s
  | .transfer, false => s.raise .busTimeout
  | .diagnostic, r => s.push [.respond (.reached r)]

/-- R72: `start <- now()`. -/
def stepBwait (l : Line) (v : Level) (t : Time) (use : WaitUse) (s : State) : Tick :=
  s.onNow fun start u => u.push [.bwaitSample l v t start use]

/-- R72: `if sample(l) = v then return true`. -/
def stepBwaitSample (l : Line) (v : Level) (t start : Time) (use : WaitUse) (s : State) : Tick :=
  s.onSample l fun x u => if x = v then waitDone use true u else u.push [.bwaitCheck l v t start use]

/-- R72: `if now() - start >= t then return false`. -/
def stepBwaitCheck (l : Line) (v : Level) (t start : Time) (use : WaitUse) (s : State) : Tick :=
  s.onNow fun reading u =>
    if t ≤ elapsed u.cfg start reading then waitDone use false u else u.push [.bwaitSample l v t start use]

/-- R77: `wait_pulse()`. -/
def waitPulseBody : List Micro := [.wait .clk .low, .wait .clk .high]

/-- R78: `send_bit(b)`. -/
def sendBitBody (b : Bool) : List Micro := .present b :: waitPulseBody

/-- R78: the call of `send_bit`. -/
def stepSendBit (b : Bool) (s : State) : Tick := .moved (s.push (sendBitBody b))

/-- R79: `recv_bit()` up to its sample of the data line. -/
def recvBitBody (dst : BitDst) : List Micro := [.wait .clk .low, .sampleBit dst]

/-- R79: the call of `recv_bit`. -/
def stepRecvBit (dst : BitDst) (s : State) : Tick := .moved (s.push (recvBitBody dst))

/-- R79: `b <- sample(DAT)`, then the wait for clock high, then the return. -/
def stepSampleBit (dst : BitDst) (s : State) : Tick :=
  s.onSample .dat fun v t => t.push [.wait .clk .high, .bitReturn dst v.bit]

end Sys2Proof.Machine
end

