-- ==== Sys2Proof/Machine/Operands.lean ====
section
/-! DEFINITION. Operand and result forms inside the engine: data bits (spec/20_memory.md rule R32), the sign extension of
movement (spec/43_session.md rule R102), and the pin calls of an event (spec/40_line_control.md rule R61). -/

namespace Sys2Proof.Machine

/-- R9, R32: bit i of a byte. -/
def byteBit (v : Byte) (i : Fin 8) : Bool := v.getLsbD i

/-- R32, R81 step 6, R83 step 3: `for i in 0 .. 7`, least significant bit first. -/
def bitIndices : List (Fin 8) := [0, 1, 2, 3, 4, 5, 6, 7]

/-- R83 step 3: the byte with bit i replaced. -/
def setByteBit (v : Byte) (i : Fin 8) (b : Bool) : Byte :=
  (v &&& ~~~(1#8 <<< i.val)) ||| ((if b then 1#8 else 0#8) <<< i.val)

/-- R102: sign extension of a movement byte by a sign bit of the status byte. -/
def sx16 (b : Byte) (sign : Bool) : Half := (if sign then 0xFF#8 else 0x00#8) ++ b

/-- R101, R102, R103: the decoded report; the status byte is returned unchanged. -/
def decodeReport (status x y : Byte) : Report where
  status := status
  dx := sx16 x (status.getLsbD 4)
  dy := sx16 y (status.getLsbD 5)

/-- R61: the direction of a pin. -/
inductive PinDirection where
  | output
  | input
deriving DecidableEq, Repr

/-- R61, R119: a call of the consumed pin abstraction. -/
inductive PinCall where
  | setDirection (p : PinId) (d : PinDirection)
  | writeLevel (p : PinId) (v : Level)
  | readLevel (p : PinId)
deriving DecidableEq, Repr

/-- R61: the pin of a line. -/
def State.pin (s : State) : Line → PinId
  | .clk => s.clockPin
  | .dat => s.dataPin

/-- R61: the pin calls an event stands for; delays and clock reads call none. -/
def State.pinCalls (s : State) : Event → List PinCall
  | .low l => [.setDirection (s.pin l) .output, .writeLevel (s.pin l) .low]
  | .high l => [.setDirection (s.pin l) .output, .writeLevel (s.pin l) .high]
  | .rel l => [.setDirection (s.pin l) .input]
  | .smp l _ => [.readLevel (s.pin l)]
  | .dly _ => []
  | .now _ => []

end Sys2Proof.Machine
end

