-- ==== Sys2Proof/Machine/Flags.lean ====
section
/-! DEFINITION. Parity and the frame word (spec/30_encoding.md rules R46 and R47), the strict-mode checks
(spec/42_byte_framing.md rule R84, spec/43_session.md rule R89) and the reporting flags (R95, R96). -/

namespace Sys2Proof.Machine

/-- R9: the exclusive-or of all bits of a byte. -/
def xorReduce (v : Byte) : Bool :=
  bitIndices.foldl (fun acc i => acc ^^ byteBit v i) false

/-- R46: the odd parity bit of a byte. -/
def oddParity (v : Byte) : Bool := true ^^ xorReduce v

/-- R47: the 11-bit frame word, slot 0 in bit 0: `1 : odd_parity(v) : v : 0`. -/
def frameWord (v : Byte) : BitVec 11 := 1#1 ++ BitVec.ofBool (oddParity v) ++ v ++ 0#1

/-- R84, R114: the first error of a complete frame in strict mode, parity before stop; none in lenient mode. -/
def frameError (c : Config) (data : Byte) (parity stop : Bool) : Option ResponseCode :=
  match c.strict with
  | .lenient => none
  | .strict =>
    if parity ≠ oddParity data then some .parityError
    else if stop ≠ true then some .framingError
    else none

/-- R89: whether `check_ack` accepts an acknowledgment byte. -/
def ackAccepted (c : Config) (a : Byte) : Bool :=
  match c.strict with
  | .lenient => true
  | .strict => decide (a = c.ackByte)

/-- R95, R96, D18: the other flag after a flag is set: cleared under Exclusive, kept under SetOnly. -/
def otherFlag (c : Config) (flag : Bool) : Bool :=
  match c.flagPolicy with
  | .exclusive => false
  | .setOnly => flag

/-- R95: the flags after an enable command is acknowledged. -/
def State.setEnabledFlags (s : State) : State :=
  { s with reportingEnabled := true, reportingDisabled := otherFlag s.cfg s.reportingDisabled }

/-- R96: the flags after a disable command is acknowledged. -/
def State.setDisabledFlags (s : State) : State :=
  { s with reportingDisabled := true, reportingEnabled := otherFlag s.cfg s.reportingEnabled }

end Sys2Proof.Machine
end

