-- ==== Sys2Proof/Machine/FrameSteps.lean ====
section
/-! DEFINITION. The steps of Byte Framing (spec/42_byte_framing.md). A step that reads a part of the frame that holds no value
faults (R23). -/

namespace Sys2Proof.Machine

/-- R81: `write_byte(v)`, steps 1 to 5: inhibit, request-to-send, and the peripheral's first clock low. -/
def writeStartSteps : List Micro :=
  [.rel .dat, .rel .clk, .delay .wrRelease, .low .clk, .delay .wrInhibit, .low .dat, .delay .wrStart, .rel .clk,
    .wait .clk .low]

/-- R81 steps 7 to 9: the parity slot, the stop slot, the acknowledgment and the re-inhibit. -/
def writeEndSteps : List Micro :=
  [.sendParity, .rel .dat, .wait .clk .low, .wait .clk .high, .wait .dat .low, .low .clk, .closeFrame]

/-- R81: `write_byte(v)`, steps 1 to 9, the data bits least significant first (R32). -/
def writeByteBody (v : Byte) : List Micro :=
  writeStartSteps ++ (Micro.openWrite v :: bitIndices.map Micro.sendData) ++ writeEndSteps

/-- R81: the call of `write_byte`. -/
def stepWriteByte (v : Byte) (s : State) : Tick := .moved (s.push (writeByteBody v))

/-- R81 step 6, R80: the accumulator starts at 1. That the bit index opens at 0 is the model's choice (log 29). -/
def stepOpenWrite (v : Byte) (s : State) : Tick :=
  .moved { s with frame := some { data := v, parity := some true, stop := none, i := 0 } }

/-- R81 step 6: `send_bit(v[i])`, then the accumulation. That the bit index becomes `i` here, before the bit is sent, is the
model's choice (log 29). -/
def stepSendData (i : Fin 8) (s : State) : Tick :=
  match s.frame with
  | none => .fault .frameUnwritten
  | some f => .moved ({ s with frame := some { f with i := i } }.push [.sendBit (byteBit f.data i), .accumulate i])

/-- R81 step 6, R80: `s.frame.parity <- s.frame.parity XOR v[i]`. -/
def stepAccumulate (i : Fin 8) (s : State) : Tick :=
  match s.frame with
  | none => .fault .frameUnwritten
  | some f =>
    match f.parity with
    | none => .fault .frameUnwritten
    | some p => .moved { s with frame := some { f with parity := some (p ^^ byteBit f.data i) } }

/-- R81 step 7: `send_bit(s.frame.parity)`. -/
def stepSendParity (s : State) : Tick :=
  match s.frame with
  | none => .fault .frameUnwritten
  | some f =>
    match f.parity with
    | none => .fault .frameUnwritten
    | some p => .moved (s.push [.sendBit p])

/-- R81 step 9, R85: the frame ends. -/
def stepCloseFrame (s : State) : Tick := .moved { s with frame := none }

/-- R83: `read_byte()`, steps 1 and 2, and the opening of the frame: the start-bit edge is discarded. -/
def readStartSteps : List Micro :=
  [.rel .dat, .rel .clk, .delay .rdRelease, .wait .clk .low, .wait .clk .high, .delay .rdStart, .openRead]

/-- R83 steps 4 to 7. -/
def readEndSteps (dst : ByteDst) : List Micro :=
  [.recvBit .parity, .recvBit .stop, .low .clk, .checkFrame, .byteReturn dst]

/-- R83: `read_byte()`, steps 1 to 7, the data bits least significant first (R32). -/
def readByteBody (dst : ByteDst) : List Micro :=
  readStartSteps ++ bitIndices.map (fun i => Micro.recvBit (.data i)) ++ readEndSteps dst

/-- R83: the call of `read_byte`. -/
def stepReadByte (dst : ByteDst) (s : State) : Tick := .moved (s.push (readByteBody dst))

/-- R83 step 3: `s.frame.data <- 0`. That the bit index opens at 0 is the model's choice (log 29). -/
def stepOpenRead (s : State) : Tick :=
  .moved { s with frame := some { data := 0, parity := none, stop := none, i := 0 } }

/-- R79, R83 steps 3 and 4: the return of `recv_bit` to its destination. That the bit index becomes `i` here, with the received bit,
and so still holds the index of the bit before while bit `i` is being received, is the model's choice (log 29). -/
def stepBitReturn (dst : BitDst) (b : Bool) (s : State) : Tick :=
  match dst with
  | .result => .moved (s.push [.respond (.bit b)])
  | .data i =>
    match s.frame with
    | none => .fault .frameUnwritten
    | some f => .moved { s with frame := some { f with data := setByteBit f.data i b, i := i } }
  | .parity =>
    match s.frame with
    | none => .fault .frameUnwritten
    | some f => .moved { s with frame := some { f with parity := some b } }
  | .stop =>
    match s.frame with
    | none => .fault .frameUnwritten
    | some f => .moved { s with frame := some { f with stop := some b } }

/-- R84: `check_frame()`, after the bus is re-inhibited. -/
def stepCheckFrame (s : State) : Tick :=
  match s.frame with
  | none => .fault .frameUnwritten
  | some f =>
    match f.parity, f.stop with
    | some p, some st =>
      match frameError s.cfg f.data p st with
      | none => .moved s
      | some code => .moved (s.raise code)
    | _, _ => .fault .frameUnwritten

/-- R83 step 7: the byte goes to its destination (R83, R89, R101). -/
def byteReturnBody (dst : ByteDst) (v : Byte) : List Micro :=
  match dst with
  | .ack => [.checkAck v]
  | .result => [.respond (.byte v)]
  | .status => [.readByte (.moveX v)]
  | .moveX st => [.readByte (.moveY st v)]
  | .moveY st x => [.writeReport st x v]

/-- R83 step 7, R85: `return s.frame.data`; the frame ends. -/
def stepByteReturn (dst : ByteDst) (s : State) : Tick :=
  match s.frame with
  | none => .fault .frameUnwritten
  | some f => .moved ({ s with frame := none }.push (byteReturnBody dst f.data))

end Sys2Proof.Machine
end

