-- ==== Sys2Proof/Machine/SessionSteps.lean ====
section
/-! DEFINITION. The steps of the Session Protocol (spec/43_session.md). -/

namespace Sys2Proof.Machine

/-- R50, R98: the set-resolution command byte, the one the source fixes. -/
def cmdSetResolution : Byte := 0xE8

/-- R89: `send_cmd(c)`. -/
def sendCmdBody (c : Byte) : List Micro := [.writeByte c, .readByte .ack]

/-- R89: the call of `send_cmd`. -/
def stepSendCmd (c : Byte) (s : State) : Tick := .moved (s.push (sendCmdBody c))

/-- R89: `check_ack(a)`. -/
def stepCheckAck (a : Byte) (s : State) : Tick :=
  if ackAccepted s.cfg a then .moved s else .moved (s.raise .unexpectedAcknowledgment)

/-- R94, R91 step 1: `if s.mode = Continuous then disable_reporting()`. -/
def stepPause (s : State) : Tick :=
  match s.mode with
  | .polled => .moved s
  | .continuous => .moved (s.push [.disableReporting])

/-- R94: `if s.mode = Continuous then enable_reporting()`. -/
def stepResume (s : State) : Tick :=
  match s.mode with
  | .polled => .moved s
  | .continuous => .moved (s.push [.enableReporting])

/-- R95: `enable_reporting()`; a no-op when already recorded as enabled. -/
def stepEnableReporting (s : State) : Tick :=
  if s.reportingEnabled then .moved s else .moved (s.push [.sendCmd s.cfg.cmdEnable, .setEnabled])

/-- R95: the flag writes. -/
def stepSetEnabled (s : State) : Tick := .moved s.setEnabledFlags

/-- R96: `disable_reporting()`. -/
def stepDisableReporting (s : State) : Tick :=
  if s.reportingDisabled then .moved s else .moved (s.push [.sendCmd s.cfg.cmdDisable, .setDisabled])

/-- R96: the flag writes. -/
def stepSetDisabled (s : State) : Tick := .moved s.setDisabledFlags

/-- R91: `select_mode(c, m)`, steps 1 to 4. -/
def selectModeBody (c : Byte) (m : Mode) : List Micro := [.pause, .sendCmd c, .reenable m, .modeSettle]

/-- R91: the call of `select_mode`. -/
def stepSelectMode (c : Byte) (m : Mode) (s : State) : Tick := .moved (s.push (selectModeBody c m))

/-- R91 step 3: the mode that decides whether reporting is re-enabled (C1, D19). -/
def reenableMode (s : State) (m : Mode) : Mode :=
  match s.cfg.reenableGuard with
  | .target => m
  | .recorded => s.mode

/-- R91 step 3. -/
def stepReenable (m : Mode) (s : State) : Tick :=
  match reenableMode s m with
  | .polled => .moved s
  | .continuous => .moved (s.push [.enableReporting])

/-- R91 step 4. -/
def stepModeSettle (s : State) : Tick :=
  if s.initialized then .moved (s.push [.delay .modeSettle]) else .moved s

/-- R92: `set_polled_mode()` up to its response. -/
def setPolledModeBody (c : Config) : List Micro := [.selectMode c.cmdSetPolled .polled, .recordMode .polled]

/-- R93: `set_continuous_mode()` up to its response. -/
def setContinuousModeBody (c : Config) : List Micro :=
  [.selectMode c.cmdSetContinuous .continuous, .recordMode .continuous]

/-- R90 step 5: the call of `set_polled_mode` (D40). -/
def stepSetPolledMode (s : State) : Tick := .moved (s.push (setPolledModeBody s.cfg))

/-- R92, R93: `s.mode <- m`. -/
def stepRecordMode (m : Mode) (s : State) : Tick := .moved { s with mode := m }

/-- R90 step 5. -/
def stepInitMode (s : State) : Tick :=
  match s.mode with
  | .polled => .moved (s.push [.setPolledMode])
  | .continuous => .moved (s.push [.enableReporting])

/-- R90 step 7. -/
def stepMarkInitialized (s : State) : Tick := .moved { s with initialized := true }

/-- R90: `initialize()` up to its response. -/
def initializeBody (c : Config) : List Micro :=
  [.rel .dat, .rel .clk, .delay .initRelease, .writeByte c.cmdReset, .delay .initReset, .readByte .ack, .initMode,
    .delay .initFinal, .markInitialized]

/-- R94, R97 to R100: a configuration command, its command and parameter bytes between pause and resume. -/
def configBody (bytes : List Byte) : List Micro := .pause :: bytes.map .sendCmd ++ [.resume]

/-- R101: `poll_report()`; the two movement bytes follow the status byte. -/
def pollReportBody (c : Config) : List Micro := [.sendCmd c.cmdReadData, .readByte .status]

/-- R101: `s.report <- ...`, then the response. -/
def stepWriteReport (st x y : Byte) (s : State) : Tick :=
  .moved ({ s with report := some (decodeReport st x y) }.push [.respondReport])

/-- R101, R25: `respond(OK, s.report)`. -/
def stepRespondReport (s : State) : Tick :=
  match s.report with
  | none => .fault .reportUnwritten
  | some r => .moved (s.finish .ok (.report r))

/-- R57: `respond(OK, payload)`. -/
def stepRespond (p : Payload) (s : State) : Tick := .moved (s.finish .ok p)

end Sys2Proof.Machine
end

