-- ==== Sys2Proof/Machine/Engine.lean ====
section
/-! DEFINITION. The engine: one atomic step (spec/00_scope.md rule R7, spec/10_state.md rule R26), and a request run until its
response or until the environment has answered no further. -/

namespace Sys2Proof.Machine

/-- R26: what one pseudocode step does, in a state whose position stands after it. -/
def Micro.tick (m : Micro) (s : State) : Tick :=
  match m with
  | .low l => stepLow l s
  | .high l => stepHigh l s
  | .rel l => stepRel l s
  | .samp l => stepSamp l s
  | .delay d => stepDelay d s
  | .wait l v => stepWait l v s
  | .poll l v => stepPoll l v s
  | .bwait l v t use => stepBwait l v t use s
  | .bwaitSample l v t start use => stepBwaitSample l v t start use s
  | .bwaitCheck l v t start use => stepBwaitCheck l v t start use s
  | .present b => stepPresent b s
  | .sendBit b => stepSendBit b s
  | .recvBit dst => stepRecvBit dst s
  | .sampleBit dst => stepSampleBit dst s
  | .bitReturn dst b => stepBitReturn dst b s
  | .writeByte v => stepWriteByte v s
  | .openWrite v => stepOpenWrite v s
  | .sendData i => stepSendData i s
  | .accumulate i => stepAccumulate i s
  | .sendParity => stepSendParity s
  | .closeFrame => stepCloseFrame s
  | .readByte dst => stepReadByte dst s
  | .openRead => stepOpenRead s
  | .checkFrame => stepCheckFrame s
  | .byteReturn dst => stepByteReturn dst s
  | .sendCmd c => stepSendCmd c s
  | .checkAck a => stepCheckAck a s
  | .pause => stepPause s
  | .resume => stepResume s
  | .enableReporting => stepEnableReporting s
  | .setEnabled => stepSetEnabled s
  | .disableReporting => stepDisableReporting s
  | .setDisabled => stepSetDisabled s
  | .selectMode c t => stepSelectMode c t s
  | .reenable t => stepReenable t s
  | .modeSettle => stepModeSettle s
  | .setPolledMode => stepSetPolledMode s
  | .recordMode t => stepRecordMode t s
  | .initMode => stepInitMode s
  | .markInitialized => stepMarkInitialized s
  | .writeReport st x y => stepWriteReport st x y s
  | .respondReport => stepRespondReport s
  | .respond p => stepRespond p s

/-- R7, R26: one atomic step of the engine: at most one event, or the call of an operation. A busy engine with no step left
responds OK (R57; log 25). -/
def State.tick (s : State) : Tick :=
  match s.pos with
  | .idle => .resting
  | .busy _ [] => .moved (s.finish .ok .none)
  | .busy req (m :: todo) => m.tick { s with pos := .busy req todo }

/-- How many atomic steps a pseudocode step can take beside the turns of its waits (log 24). -/
def Micro.cost : Micro → Nat
  | .low _ | .high _ | .rel _ | .delay _ | .poll _ _ | .openWrite _ | .accumulate _ | .closeFrame | .openRead
  | .checkFrame | .checkAck _ | .setEnabled | .setDisabled | .recordMode _ | .markInitialized | .respondReport
  | .respond _ => 1
  | .samp _ | .present _ | .bitReturn _ _ | .modeSettle | .writeReport _ _ _ => 2
  | .bwaitSample _ _ _ _ _ | .bwaitCheck _ _ _ _ _ => 3
  | .bwait _ _ _ _ => 4
  | .wait _ _ => 5
  | .sampleBit _ => 8
  | .sendBit _ => 13
  | .sendParity | .recvBit _ => 14
  | .sendData _ => 15
  | .writeByte _ => 167
  | .byteReturn .ack | .byteReturn .result => 2
  | .byteReturn (.moveY _ _) => 3
  | .byteReturn (.moveX _) => 162
  | .byteReturn .status => 321
  | .readByte .ack | .readByte .result => 160
  | .readByte (.moveY _ _) => 161
  | .readByte (.moveX _) => 320
  | .readByte .status => 479
  | .sendCmd _ => 328
  | .enableReporting | .disableReporting => 330
  | .pause | .resume | .reenable _ => 331
  | .selectMode _ _ => 993
  | .setPolledMode => 995
  | .initMode => 996

/-- The cost of the steps still to do. -/
def todoCost (todo : List Micro) : Nat := (todo.map Micro.cost).sum

/-- The cost of what is still to do, the response included. -/
def Pos.backlog : Pos → Nat
  | .idle => 0
  | .busy _ todo => 1 + todoCost todo

/-- A bound on the atomic steps the engine can take before it is idle or awaits the environment: each turn of a wait uses a
placed environment move (log 24). -/
def State.fuel (s : State) : Nat := s.pos.backlog + s.env.length

/-- At most `n` atomic steps, stopping when the engine is idle or awaits the environment. -/
def runTicks : Nat → State → Host.Outcome State Fault Refusal
  | 0, s => .next s
  | n + 1, s =>
    match s.tick with
    | .moved s' => runTicks n s'
    | .awaiting => .next s
    | .resting => .next s
    | .fault f => .fault f

/-- R26, R37: run the request in progress until its response, or until the environment's placed moves are used up (log 3). -/
def State.resume (s : State) : Host.Outcome State Fault Refusal := runTicks s.fuel s

/-- R26, R57: a request with the given pseudocode starts at `Idle` and runs; while the engine is busy no request starts. -/
def request (i : Instr) (body : List Micro) (s : State) : Host.Outcome State Fault Refusal :=
  match s.pos with
  | .idle => State.resume { s with pos := .busy i body }
  | .busy _ _ => .refused .requestWhileBusy

/-- R54, R113: the answer to a word that is no request: IllegalRequest, no event, no delay, no other change. -/
def answerIllegal (s : State) : Host.Outcome State Fault Refusal :=
  .next { s with responses := s.responses ++ [⟨.illegalRequest, .none⟩] }

end Sys2Proof.Machine
end

