-- ==== Sys2Proof/Machine/BitTransfer.lean ====
section
/-! DEFINITION. The meanings of the Bit Transfer requests (spec/41_bit_transfer.md). -/

namespace Sys2Proof.Machine

/-- WAIT_LEVEL (R74). -/
def execWaitLevel (l : Line) (v : Level) (s : State) : Host.Outcome State Fault Refusal :=
  request (.waitLevel l v) [.wait l v] s

/-- WAIT_CLOCK_BOUNDED (R75): the bounded wait on the clock, whatever the wait policy. -/
def execWaitClockBounded (v : Level) (t : Time) (s : State) : Host.Outcome State Fault Refusal :=
  request (.waitClockBounded v t) [.bwait .clk v t .diagnostic] s

/-- SEND_BIT (R78). -/
def execSendBit (b : Bool) (s : State) : Host.Outcome State Fault Refusal := request (.sendBit b) [.sendBit b] s

/-- RECV_BIT (R79). -/
def execRecvBit (s : State) : Host.Outcome State Fault Refusal := request .recvBit [.recvBit .result] s

end Sys2Proof.Machine
end

