-- ==== Sys2Proof/Machine/ByteFraming.lean ====
section
/-! DEFINITION. The meanings of the Byte Framing requests (spec/42_byte_framing.md). -/

namespace Sys2Proof.Machine

/-- WRITE_BYTE (R81). -/
def execWriteByte (v : Byte) (s : State) : Host.Outcome State Fault Refusal := request (.writeByte v) [.writeByte v] s

/-- READ_BYTE (R83). -/
def execReadByte (s : State) : Host.Outcome State Fault Refusal := request .readByte [.readByte .result] s

end Sys2Proof.Machine
end

