-- ==== Sys2Proof/Machine/LineControl.lean ====
section
/-! DEFINITION. The meanings of the Line Control requests (spec/40_line_control.md). -/

namespace Sys2Proof.Machine

/-- DRIVE_LOW (R64). -/
def execDriveLow (l : Line) (s : State) : Host.Outcome State Fault Refusal := request (.driveLow l) [.low l] s

/-- DRIVE_HIGH (R65). -/
def execDriveHigh (l : Line) (s : State) : Host.Outcome State Fault Refusal := request (.driveHigh l) [.high l] s

/-- RELEASE (R66). -/
def execRelease (l : Line) (s : State) : Host.Outcome State Fault Refusal := request (.release l) [.rel l] s

/-- SAMPLE (R67). -/
def execSample (l : Line) (s : State) : Host.Outcome State Fault Refusal := request (.sample l) [.samp l] s

end Sys2Proof.Machine
end

