-- ==== Sys2Proof/Machine/Session.lean ====
section
/-! DEFINITION. The meanings of the Session Protocol requests (spec/43_session.md). -/

namespace Sys2Proof.Machine

/-- INITIALIZE (R90, R106). -/
def execInitialize (s : State) : Host.Outcome State Fault Refusal := request .initializeDevice (initializeBody s.cfg) s

/-- POLL_REPORT (R101). -/
def execPollReport (s : State) : Host.Outcome State Fault Refusal := request .pollReport (pollReportBody s.cfg) s

/-- SET_POLLED_MODE (R92). -/
def execSetPolledMode (s : State) : Host.Outcome State Fault Refusal :=
  request .setPolledMode (setPolledModeBody s.cfg) s

/-- SET_CONTINUOUS_MODE (R93). -/
def execSetContinuousMode (s : State) : Host.Outcome State Fault Refusal :=
  request .setContinuousMode (setContinuousModeBody s.cfg) s

/-- SET_SAMPLE_RATE (R97): the rate is sent unvalidated (R51). -/
def execSetSampleRate (r : Byte) (s : State) : Host.Outcome State Fault Refusal :=
  request (.setSampleRate r) (configBody [s.cfg.cmdSetSampleRate, r]) s

/-- SET_RESOLUTION (R98). -/
def execSetResolution (n : Byte) (s : State) : Host.Outcome State Fault Refusal :=
  request (.setResolution n) (configBody [cmdSetResolution, n]) s

/-- SET_SCALING_2TO1 (R99): no parameter byte (C5). -/
def execSetScaling2to1 (s : State) : Host.Outcome State Fault Refusal :=
  request .setScaling2to1 (configBody [s.cfg.cmdScaling2to1]) s

/-- SET_SCALING_1TO1 (R100). -/
def execSetScaling1to1 (s : State) : Host.Outcome State Fault Refusal :=
  request .setScaling1to1 (configBody [s.cfg.cmdScaling1to1]) s

/-- ENABLE_REPORTING (R95). -/
def execEnableReporting (s : State) : Host.Outcome State Fault Refusal := request .enableReporting [.enableReporting] s

/-- DISABLE_REPORTING (R96). -/
def execDisableReporting (s : State) : Host.Outcome State Fault Refusal :=
  request .disableReporting [.disableReporting] s

/-- GET_PINS (R104). -/
def execGetPins (s : State) : Host.Outcome State Fault Refusal :=
  request .getPins [.respond (.pins s.clockPin s.dataPin)] s

/-- SELECT_MODE (R91), the diagnostic request: `mode` is not written. -/
def execSelectMode (c : Byte) (m : Mode) (s : State) : Host.Outcome State Fault Refusal :=
  request (.selectMode c m) [.selectMode c m] s

end Sys2Proof.Machine
end

