-- ==== Sys2Proof/Machine/Dispatch.lean ====
section
/-! DEFINITION. One arm per request of spec/30_encoding.md rule R53. -/

namespace Sys2Proof.Machine

def exec (i : Instr) (s : State) : Host.Outcome State Fault Refusal :=
  match i with
  | .initializeDevice => Sys2Proof.Machine.execInitialize s
  | .pollReport => Sys2Proof.Machine.execPollReport s
  | .setPolledMode => Sys2Proof.Machine.execSetPolledMode s
  | .setContinuousMode => Sys2Proof.Machine.execSetContinuousMode s
  | .setSampleRate r => Sys2Proof.Machine.execSetSampleRate r s
  | .setResolution n => Sys2Proof.Machine.execSetResolution n s
  | .setScaling2to1 => Sys2Proof.Machine.execSetScaling2to1 s
  | .setScaling1to1 => Sys2Proof.Machine.execSetScaling1to1 s
  | .enableReporting => Sys2Proof.Machine.execEnableReporting s
  | .disableReporting => Sys2Proof.Machine.execDisableReporting s
  | .getPins => Sys2Proof.Machine.execGetPins s
  | .selectMode c m => Sys2Proof.Machine.execSelectMode c m s
  | .writeByte v => Sys2Proof.Machine.execWriteByte v s
  | .readByte => Sys2Proof.Machine.execReadByte s
  | .waitClockBounded v t => Sys2Proof.Machine.execWaitClockBounded v t s
  | .driveLow l => Sys2Proof.Machine.execDriveLow l s
  | .driveHigh l => Sys2Proof.Machine.execDriveHigh l s
  | .release l => Sys2Proof.Machine.execRelease l s
  | .sample l => Sys2Proof.Machine.execSample l s
  | .sendBit b => Sys2Proof.Machine.execSendBit b s
  | .recvBit => Sys2Proof.Machine.execRecvBit s
  | .waitLevel l v => Sys2Proof.Machine.execWaitLevel l v s

end Sys2Proof.Machine
end

