-- ==== Sys2Proof/Machine/Caller.lean ====
section
/-! DEFINITION. Taking the caller's next request (spec/10_state.md rules R26 and R27) and supplying the environment's next
move: what step calls. -/

namespace Sys2Proof.Machine

/-- R26, R54: the engine at `Idle` takes the caller's next word and decodes it; with no word it stays idle (R122). -/
def fetchAndRun (s : State) : Host.Outcome State Fault Refusal :=
  match s.requests with
  | [] => .next s
  | w :: rest =>
    match decode w with
    | .ok i => exec i { s with requests := rest }
    | .error _ => answerIllegal { s with requests := rest }

/-- R27, D43: where no environment move is placed, the next one is a free value (log 1). -/
def State.supplyMove (s : State) : State :=
  match s.env with
  | [] => { s with env := [Config.freeMove s.freeMoves], freeMoves := s.freeMoves + 1 }
  | _ :: _ => s

/-- The host's request placement: the word whose bits are `w` becomes the caller's next request and the engine stands at
`Idle`, where `frame` and `report` hold no value (log 5, log 6). -/
def State.placeRequest (s : State) (nbits w : Nat) : State :=
  { s with
    pos := .idle
    frame := none
    report := none
    requests := BitVec.ofNat 48 (w % 2 ^ nbits) :: s.requests.tail }

end Sys2Proof.Machine
end

