-- ==== Sys2Proof/Machine/Step.lean ====
section
/-! DEFINITION. One step: at `Idle` the caller's next request runs (spec/10_state.md rule R26); while busy the request in
progress goes on with the environment's next moves. -/

namespace Sys2Proof.Machine

def step (s : State) : Host.Outcome State Fault Refusal :=
  match s.pos with
  | .idle => fetchAndRun s
  | .busy _ _ => s.supplyMove.resume

/-- The host's placement of an instruction where step fetches its next one (log 5, log 6). -/
def State.withFetchWord (s : State) (nbits w : Nat) : State := s.placeRequest nbits w

end Sys2Proof.Machine
end

