-- ==== Sys2Proof/Safety.lean ====
section
/-! DEFINITION. What the statements speak of beside the machine itself: the invariant of the engine's state, the peripheral
behaviour a transfer needs, the events and the result the spec gives it, and a bus analyser that reads bytes off the event
trace. Nothing here is used by the machine. -/

namespace Sys2Proof

/-! ### Kinds of request -/

/-- R109: the requests with a transfer wait in them. -/
def Instr.transfers : Instr → Bool
  | .getPins | .waitClockBounded _ _ | .driveLow _ | .driveHigh _ | .release _ | .sample _ => false
  | .initializeDevice | .pollReport | .setPolledMode | .setContinuousMode | .setSampleRate _ | .setResolution _
  | .setScaling2to1 | .setScaling1to1 | .enableReporting | .disableReporting | .selectMode _ _ | .writeByte _ | .readByte
  | .sendBit _ | .recvBit | .waitLevel _ _ => true

/-- R89: the requests with a command exchange, whose acknowledgment `check_ack` sees. -/
def Instr.commands : Instr → Bool
  | .initializeDevice | .pollReport | .setPolledMode | .setContinuousMode | .setSampleRate _ | .setResolution _
  | .setScaling2to1 | .setScaling1to1 | .enableReporting | .disableReporting | .selectMode _ _ => true
  | .getPins | .waitClockBounded _ _ | .driveLow _ | .driveHigh _ | .release _ | .sample _ | .writeByte _ | .readByte
  | .sendBit _ | .recvBit | .waitLevel _ _ => false

/-- R84, D39: the requests that read a byte, whose frame `check_frame` sees. -/
def Instr.reads (i : Instr) : Bool := i.commands || decide (i = .readByte)

/-- R68, R78, R81: the requests with host-to-device data slots, in which the engine presents bits on the data line. -/
def Instr.sends : Instr → Bool
  | .initializeDevice | .pollReport | .setPolledMode | .setContinuousMode | .setSampleRate _ | .setResolution _
  | .setScaling2to1 | .setScaling1to1 | .enableReporting | .disableReporting | .selectMode _ _ | .writeByte _ | .sendBit _ => true
  | .getPins | .waitClockBounded _ _ | .driveLow _ | .driveHigh _ | .release _ | .sample _ | .readByte | .recvBit
  | .waitLevel _ _ => false

/-- R19: the requests that may write the reporting flags. -/
def Instr.writesFlags (i : Instr) : Bool := i.commands && !decide (i = .pollReport)

/-- R52, R53: the bits of its word that a request is read from: the operation code and the operand bits R53 and R56 name. -/
def Instr.usedBits : Instr → Request
  | .initializeDevice | .pollReport | .setPolledMode | .setContinuousMode | .setScaling2to1 | .setScaling1to1
  | .enableReporting | .disableReporting | .getPins | .readByte | .recvBit => 0xFF0000000000
  | .setSampleRate _ | .setResolution _ | .writeByte _ => 0xFFFF00000000
  | .selectMode _ _ => 0xFFFF00000001
  | .waitClockBounded _ _ => 0xFF01FFFFFFFF
  | .driveLow _ | .driveHigh _ | .release _ | .sample _ | .sendBit _ => 0xFF0100000000
  | .waitLevel _ _ => 0xFF0300000000

/-! ### Time -/

/-- R71, D7: the moves take less time than a clock of finite width needs to wrap: the difference of two readings among them is
the time between. With the unbounded clock it says nothing. -/
def Config.noWrap (c : Config) (moves : List EnvMove) : Prop :=
  ∀ n, c.timeWidth = some n → (moves.map EnvMove.dt).sum < 2 ^ n

end Sys2Proof

namespace Sys2Proof.Machine

/-- R26: the request a step works on: the one in progress, or the caller's next one. -/
def State.current (s : State) : Option Instr :=
  match s.pos with
  | .busy req _ => some req
  | .idle =>
    match s.requests with
    | [] => none
    | w :: _ =>
      match decode w with
      | .ok i => some i
      | .error _ => none

/-! ### The invariant -/

/-- Which of the values that can be without a value (R23, R25) hold one. -/
structure Written where
  frame  : Bool
  parity : Bool
  stop   : Bool
  report : Bool
deriving DecidableEq, Repr

/-- R23, R25: what is written in a state. -/
def State.written (s : State) : Written where
  frame := s.frame.isSome
  parity := (s.frame.bind Frame.parity).isSome
  stop := (s.frame.bind Frame.stop).isSome
  report := s.report.isSome

/-- R85: no part of the frame is written. -/
def Written.noFrame (w : Written) : Bool := !w.frame && !w.parity && !w.stop

/-- Whether a byte goes to the Motion Report, which its last byte writes (R101). -/
def ByteDst.ofReport : ByteDst → Bool
  | .ack | .result => false
  | .status | .moveX _ | .moveY _ _ => true

/-- What is written after a pseudocode step, `none` where the step would read a value that is not. -/
def Micro.writtenAfter (m : Micro) (w : Written) : Option Written :=
  match m with
  | .low _ | .high _ | .rel _ | .samp _ | .delay _ | .wait _ _ | .poll _ _ | .bwait _ _ _ _ | .bwaitSample _ _ _ _ _
  | .bwaitCheck _ _ _ _ _ | .present _ | .sendBit _ | .respond _ => some w
  | .recvBit dst | .sampleBit dst | .bitReturn dst _ =>
    match dst with
    | .result => some w
    | .data _ => if w.frame then some w else none
    | .parity => if w.frame then some { w with parity := true } else none
    | .stop => if w.frame then some { w with stop := true } else none
  | .openWrite _ => some { w with frame := true, parity := true, stop := false }
  | .sendData _ | .accumulate _ | .sendParity => if w.frame && w.parity then some w else none
  | .closeFrame => some { w with frame := false, parity := false, stop := false }
  | .openRead => some { w with frame := true, parity := false, stop := false }
  | .checkFrame => if w.frame && w.parity && w.stop then some w else none
  | .byteReturn dst =>
    if w.frame then some { frame := false, parity := false, stop := false, report := w.report || dst.ofReport } else none
  | .readByte dst => if w.noFrame then some { w with report := w.report || dst.ofReport } else none
  | .writeReport _ _ _ => if w.noFrame then some { w with report := true } else none
  | .respondReport => if w.report then some w else none
  | .writeByte _ | .sendCmd _ | .checkAck _ | .pause | .resume | .enableReporting | .setEnabled | .disableReporting
  | .setDisabled | .selectMode _ _ | .reenable _ | .modeSettle | .setPolledMode | .recordMode _ | .initMode
  | .markInitialized => if w.noFrame then some w else none

/-- Steps that never read a value before it is written. -/
def todoOk : Written → List Micro → Bool
  | _, [] => true
  | w, m :: todo =>
    match m.writtenAfter w with
    | none => false
    | some w' => todoOk w' todo

/-- Whether a pseudocode step can be among those of the request `req`, in a handle configured as `c` whose mode is `mode`. -/
def Micro.fits (c : Config) (mode : Mode) (req : Instr) : Micro → Bool
  | .low _ | .rel _ | .samp _ | .delay _ | .bitReturn _ _ | .openWrite _ | .accumulate _ | .closeFrame
  | .modeSettle | .writeReport _ _ _ | .respondReport | .respond _ => true
  | .high l => decide (req = .driveHigh l) || (decide (l = .dat) && decide (c.dataOne = .driveHigh) && req.sends)
  | .present _ | .sendBit _ | .writeByte _ | .sendData _ | .sendParity => req.sends
  | .wait _ _ | .recvBit _ | .sampleBit _ => req.transfers
  | .poll _ _ => req.transfers && decide (c.waitPolicy = .unbounded)
  | .bwait _ _ _ use | .bwaitSample _ _ _ _ use | .bwaitCheck _ _ _ _ use =>
    match use with
    | .diagnostic => true
    | .transfer => req.transfers && decide (c.waitPolicy = .bounded)
  | .readByte dst | .byteReturn dst => req.reads && (decide (dst ≠ .ack) || req.commands)
  | .openRead | .checkFrame => req.reads
  | .sendCmd _ | .checkAck _ => req.commands
  | .pause | .resume | .enableReporting | .setEnabled | .disableReporting | .setDisabled | .selectMode _ _ | .reenable _ =>
    req.writesFlags
  | .initMode | .markInitialized => decide (req = .initializeDevice)
  | .setPolledMode => decide (req = .initializeDevice) && decide (mode = .polled)
  | .recordMode m =>
    (decide (req = .initializeDevice) && decide (m = .polled) && decide (mode = .polled))
    || (decide (req = .setPolledMode) && decide (m = .polled))
    || (decide (req = .setContinuousMode) && decide (m = .continuous))

/-- The invariant of the engine: distinct pins (R125); between requests no frame and no report (R25, R85); within a request no
step left that would read a value before it is written (R23, R25), and only steps of that request; under the Exclusive policy
not both reporting flags (R20). -/
structure State.Inv (s : State) : Prop where
  pins : s.clockPin ≠ s.dataPin
  idle : s.pos = .idle → s.frame = none ∧ s.report = none
  busy : ∀ req todo, s.pos = .busy req todo → todoOk s.written todo = true
  fits : ∀ req todo, s.pos = .busy req todo → ∀ m ∈ todo, m.fits s.cfg s.mode req = true
  flags : s.cfg.flagPolicy = .exclusive → ¬(s.reportingEnabled = true ∧ s.reportingDisabled = true)

/-- R21: the drive the last line-control event on a line gave it, if there was one. -/
def lastDrive (l : Line) : List Event → Option Drive
  | [] => none
  | e :: es =>
    match lastDrive l es with
    | some d => some d
    | none =>
      match e with
      | .low k => if k = l then some .drivenLow else none
      | .high k => if k = l then some .drivenHigh else none
      | .rel k => if k = l then some .released else none
      | .smp _ _ | .dly _ | .now _ => none

/-- R57: the requests still to be answered, the one in progress included, and the responses given. -/
def State.accounted (s : State) : Nat :=
  s.requests.length + (match s.pos with | .idle => 0 | .busy _ _ => 1) + s.responses.length

/-- R62: the line-control events and the delays of a trace: what the engine does, without what it observes. -/
def lineEvents (es : List Event) : List Event :=
  es.filter fun e =>
    match e with
    | .low _ | .high _ | .rel _ | .dly _ => true
    | .smp _ _ | .now _ => false

/-- R71: the clock readings of a trace. -/
def readings (es : List Event) : List Time :=
  es.filterMap fun e =>
    match e with
    | .now t => some t
    | .low _ | .high _ | .rel _ | .dly _ | .smp _ _ => none

/-- R71: the lengths of the delays of a trace, added up. -/
def delayed : List Event → Time
  | [] => 0
  | .dly n :: es => n + delayed es
  | .low _ :: es | .high _ :: es | .rel _ :: es | .smp _ _ :: es | .now _ :: es => delayed es

/-- R67: the levels the samples of a line in a trace returned. -/
def samplesOf (l : Line) (es : List Event) : List Level :=
  es.filterMap fun e =>
    match e with
    | .smp k v => if k = l then some v else none
    | .low _ | .high _ | .rel _ | .dly _ | .now _ => none

/-! ### The waits, as the spec writes their loops (R72, R73) -/

/-- R72: the loop of `bwait(l, v, t)` whose start reading was `start`, its verdict and its events. -/
inductive BwaitLoop (c : Config) (l : Line) (v : Level) (t start : Time) : Bool → List Event → Prop where
  | met : BwaitLoop c l v t start true [.smp l v]
  | expired {x : Level} {n : Time} (hx : x ≠ v) (hn : t ≤ elapsed c start n) :
      BwaitLoop c l v t start false [.smp l x, .now n]
  | again {x : Level} {n : Time} {r : Bool} {es : List Event} (hx : x ≠ v) (hn : elapsed c start n < t)
      (h : BwaitLoop c l v t start r es) : BwaitLoop c l v t start r (.smp l x :: .now n :: es)

/-- R73: the unbounded loop, and its events. -/
inductive PollLoop (l : Line) (v : Level) : List Event → Prop where
  | met : PollLoop l v [.smp l v]
  | again {x : Level} {es : List Event} (hx : x ≠ v) (h : PollLoop l v es) : PollLoop l v (.smp l x :: es)

/-! ### What a transfer needs of its environment, and what it then does -/

/-- What one observation of a transfer needs of the environment's move: nothing (a delay or a clock read), that a line reads a
level, or that a time has passed. -/
inductive Need where
  | any
  | reads (l : Line) (v : Level)
  | late (n : Time)
deriving DecidableEq, Repr

/-- R63: the move answers the need, the host driving the lines as `drv` says. -/
def Need.met (drv : Line → Drive) (m : EnvMove) : Need → Bool
  | .any => true
  | .reads l v => decide (resolveLevel (drv l) (devDrive m l) m.draw = v)
  | .late n => decide (n ≤ m.dt)

/-- The moves answer the needs, one each, in order, the host driving the lines as `drv` says. -/
def answersAt (drv : Line → Drive) : List Need → List EnvMove → Bool
  | [], [] => true
  | n :: ns, m :: ms => n.met drv m && answersAt drv ns ms
  | [], _ :: _ => false
  | _ :: _, [] => false

/-- The moves answer the needs where the host releases the lines that are read. -/
abbrev answers : List Need → List EnvMove → Bool := answersAt fun _ => .released

/-- R10: the other level. -/
def otherLevel : Level → Level
  | .low => .high
  | .high => .low

/-- R72, R73: a transfer wait whose first sample reads the level. -/
def waitNeeds (c : Config) (l : Line) (v : Level) : List Need :=
  match c.waitPolicy with
  | .bounded => [.any, .reads l v]
  | .unbounded => [.reads l v]

/-- R72, R73: a transfer wait under the Bounded policy that expires at its first deadline check. -/
def timeoutNeeds (c : Config) (l : Line) (v : Level) : List Need := [.any, .reads l (otherLevel v), .late c.timeoutUs]

/-- R77: one clock pulse. -/
def pulseNeeds (c : Config) : List Need := waitNeeds c .clk .low ++ waitNeeds c .clk .high

/-- R81 steps 1 to 4: the three delays of the request-to-send. -/
def startNeeds : List Need := [.any, .any, .any]

/-- R82: what a write awaits: the clock low, ten pulses, data low (and the three delays of R81). -/
def writeNeeds (c : Config) : List Need :=
  startNeeds ++ waitNeeds c .clk .low ++ (List.replicate 10 (pulseNeeds c)).flatten ++ waitNeeds c .dat .low

/-- A frame as the peripheral sends it (R48). -/
structure RxFrame where
  data   : Byte
  parity : Bool
  stop   : Bool
deriving DecidableEq, Repr

/-- R46, R48: the frame a well-behaved peripheral sends for a byte. -/
def RxFrame.good (v : Byte) : RxFrame := ⟨v, oddParity v, true⟩

/-- R79: one received bit. -/
def bitNeeds (c : Config) (b : Bool) : List Need :=
  waitNeeds c .clk .low ++ [.reads .dat (Level.ofBit b)] ++ waitNeeds c .clk .high

/-- R83: what a read awaits: the start-bit edge, then eight data bits, parity and stop. -/
def readNeeds (c : Config) (f : RxFrame) : List Need :=
  [.any] ++ pulseNeeds c ++ [.any] ++ (bitIndices.map fun i => bitNeeds c (byteBit f.data i)).flatten
  ++ bitNeeds c f.parity ++ bitNeeds c f.stop

/-- R89: what command exchanges await, one reply frame each. -/
def exchangeNeeds (c : Config) (replies : List RxFrame) : List Need :=
  (replies.map fun f => writeNeeds c ++ readNeeds c f).flatten

/-- R62: every event but the clock reads. -/
def Event.onBus : Event → Bool
  | .now _ => false
  | _ => true

/-- The events of a trace other than its clock reads. -/
def busEvents (es : List Event) : List Event := es.filter Event.onBus

/-- R68: the event of `present(DAT, b)`. -/
def presentEvent (c : Config) (b : Bool) : Event :=
  match b, c.dataOne with
  | false, _ => .low .dat
  | true, .release => .rel .dat
  | true, .driveHigh => .high .dat

/-- R78: the events of one sent bit. -/
def sendBitEvents (c : Config) (b : Bool) : List Event := [presentEvent c b, .smp .clk .low, .smp .clk .high]

/-- R81 steps 1 to 4: the request-to-send. -/
def writeStartEvents (c : Config) : List Event :=
  [.rel .dat, .rel .clk, .dly c.tWrRelease, .low .clk, .dly c.tWrInhibit, .low .dat, .dly c.tWrStart, .rel .clk]

/-- R81 steps 6 to 8: the data, parity and stop slots. -/
def writeSlotEvents (c : Config) (v : Byte) : List Event :=
  (bitIndices.map fun i => sendBitEvents c (byteBit v i)).flatten
  ++ sendBitEvents c (oddParity v)
  ++ [.rel .dat, .smp .clk .low, .smp .clk .high]

/-- R47, R81 steps 6 to 8: the event that sets the data line in slot `k` of the ten a write clocks out: eight data bits, least
significant first, the parity, the stop bit. -/
def slotEvent (c : Config) (v : Byte) (k : Nat) : Event :=
  if k < 8 then presentEvent c (v.getLsbD k) else if k = 8 then presentEvent c (oddParity v) else .rel .dat

/-- R81 steps 6 to 8: the events of the first `k` slots, each with its clock pulse. -/
def slotsBefore (c : Config) (v : Byte) (k : Nat) : List Event :=
  ((List.range k).map fun j => [slotEvent c v j, .smp .clk .low, .smp .clk .high]).flatten

/-- R81: the events of a write whose every wait is met by its first sample (95_test_vectors.md, V-F3). -/
def writeEvents (c : Config) (v : Byte) : List Event :=
  writeStartEvents c ++ [.smp .clk .low] ++ writeSlotEvents c v ++ [.smp .dat .low, .low .clk]

/-- R81: the line-control events and delays of a whole write, however long its waits last. -/
def writeLineEvents (c : Config) (v : Byte) : List Event :=
  writeStartEvents c ++ (bitIndices.map fun i => presentEvent c (byteBit v i)) ++ [presentEvent c (oddParity v), .rel .dat,
    .low .clk]

/-- R79: the events of one received bit. -/
def recvBitEvents (b : Bool) : List Event := [.smp .clk .low, .smp .dat (Level.ofBit b), .smp .clk .high]

/-- R83: the events of a read whose every wait is met by its first sample (95_test_vectors.md, V-F4). -/
def readEvents (c : Config) (f : RxFrame) : List Event :=
  [.rel .dat, .rel .clk, .dly c.tRdRelease, .smp .clk .low, .smp .clk .high, .dly c.tRdStart]
  ++ (bitIndices.map fun i => recvBitEvents (byteBit f.data i)).flatten
  ++ recvBitEvents f.parity ++ recvBitEvents f.stop ++ [.low .clk]

/-- R89: the events of command exchanges, each a byte written and a frame read. -/
def exchangeEvents (c : Config) (xs : List (Byte × RxFrame)) : List Event :=
  (xs.map fun x => writeEvents c x.1 ++ readEvents c x.2).flatten

/-- R84, R89: a reply that passes every check of the configured mode. -/
def replyAccepted (c : Config) (f : RxFrame) : Bool :=
  decide (frameError c f.data f.parity f.stop = none) && ackAccepted c f.data

/-- R81, R83: the drive of a line after the exchange of some bytes: the clock inhibited and data released, or as before if
no byte was exchanged. -/
def driveAfter (bytes : List Byte) (l : Line) (d : Drive) : Drive :=
  if bytes = [] then d
  else match l with
    | .clk => .drivenLow
    | .dat => .released

/-- R15: the session fields. -/
structure SessionState where
  mode        : Mode
  initialized : Bool
  enabled     : Bool
  disabled    : Bool
deriving DecidableEq, Repr

/-- R15: the session fields of a state. -/
def State.session (s : State) : SessionState := ⟨s.mode, s.initialized, s.reportingEnabled, s.reportingDisabled⟩

/-- R26, R27: a caller may issue a request in `s`, whose environment answers with the moves `w`, then `rest`. -/
structure State.Ready (s : State) (w rest : List EnvMove) : Prop where
  inv : s.Inv
  idle : s.pos = .idle
  env : s.env = w ++ rest

/-- A request ended in `t` with the response `r`, the placed moves `rest` unused, the events `bus` added to the trace, and
everything outside the session fields, the drives and the environment's own state as it was. -/
structure Ended (s t : State) (rest : List EnvMove) (r : Response) (bus : List Event) : Prop where
  pos : t.pos = .idle
  frame : t.frame = none
  report : t.report = none
  env : t.env = rest
  responses : t.responses = s.responses ++ [r]
  bus : ∃ es, t.trace = s.trace ++ es ∧ busEvents es = bus
  clockPin : t.clockPin = s.clockPin
  dataPin : t.dataPin = s.dataPin
  cfg : t.cfg = s.cfg
  requests : t.requests = s.requests
  freeMoves : t.freeMoves = s.freeMoves
  time : s.now ≤ t.now

/-- R128: the request `i` hangs in `t`: every placed move is used up, the engine is busy with it and has not responded, the events
`bus` are added to the trace, and everything outside the frame, the report, the drives and the environment's own state is as it
was. -/
structure Hung (i : Instr) (s t : State) (bus : List Event) : Prop where
  pos : ∃ todo, t.pos = .busy i todo
  env : t.env = []
  responses : t.responses = s.responses
  bus : ∃ es, t.trace = s.trace ++ es ∧ busEvents es = bus
  session : t.session = s.session
  clockPin : t.clockPin = s.clockPin
  dataPin : t.dataPin = s.dataPin
  cfg : t.cfg = s.cfg
  requests : t.requests = s.requests
  freeMoves : t.freeMoves = s.freeMoves
  time : s.now ≤ t.now

/-! ### The bytes of a session request (R95 to R100, R107), as a function of the session fields -/

/-- R95: the bytes an enable writes and the session it leaves. -/
def enablePlan (c : Config) (p : SessionState) : List Byte × SessionState :=
  if p.enabled then ([], p)
  else ([c.cmdEnable],
    { p with enabled := true, disabled := match c.flagPolicy with | .exclusive => false | .setOnly => p.disabled })

/-- R96: the bytes a disable writes and the session it leaves. -/
def disablePlan (c : Config) (p : SessionState) : List Byte × SessionState :=
  if p.disabled then ([], p)
  else ([c.cmdDisable],
    { p with disabled := true, enabled := match c.flagPolicy with | .exclusive => false | .setOnly => p.enabled })

/-- R94: the bytes before a reconfiguration. -/
def pausePlan (c : Config) (p : SessionState) : List Byte × SessionState :=
  if p.mode = .continuous then disablePlan c p else ([], p)

/-- R94: the bytes after a reconfiguration. -/
def resumePlan (c : Config) (p : SessionState) : List Byte × SessionState :=
  if p.mode = .continuous then enablePlan c p else ([], p)

/-- R97 to R100: pause, the command's bytes, resume. -/
def configPlan (c : Config) (bytes : List Byte) (p : SessionState) : List Byte × SessionState :=
  let p₁ := pausePlan c p
  let p₂ := resumePlan c p₁.2
  (p₁.1 ++ bytes ++ p₂.1, p₂.2)

/-- R91: pause, the mode-select byte, and the re-enable if the guard's mode is Continuous. -/
def selectPlan (c : Config) (cmd : Byte) (target : Mode) (p : SessionState) : List Byte × SessionState :=
  let p₁ := pausePlan c p
  let g := match c.reenableGuard with | .target => target | .recorded => p.mode
  let p₂ := if g = .continuous then enablePlan c p₁.2 else ([], p₁.2)
  (p₁.1 ++ [cmd] ++ p₂.1, p₂.2)

/-- R91 step 4: what the settle delay needs, and its event. -/
def settleNeeds (p : SessionState) : List Need := if p.initialized then [.any] else []

/-- R91 step 4. -/
def settleEvents (c : Config) (p : SessionState) : List Event := if p.initialized then [.dly c.tModeSettle] else []

/-- R90: what INITIALIZE awaits: its three delays, the reset byte and its acknowledgment `ack`, then the exchanges of step 5
and the settle delay of a mode selection. -/
def initializeNeeds (c : Config) (p : SessionState) (ack : RxFrame) (replies : List RxFrame) : List Need :=
  [.any] ++ writeNeeds c ++ [.any] ++ readNeeds c ack ++ exchangeNeeds c replies
  ++ (if p.mode = .polled then settleNeeds p else []) ++ [.any]

/-- R90 step 5: the bytes of SET_POLLED_MODE or of ENABLE_REPORTING, and the session either leaves. -/
def initializePlan (c : Config) (p : SessionState) : List Byte × SessionState :=
  match p.mode with
  | .polled => selectPlan c c.cmdSetPolled .polled p
  | .continuous => enablePlan c p

/-- R90: the events of INITIALIZE. -/
def initializeEvents (c : Config) (p : SessionState) (ack : RxFrame) (replies : List RxFrame) : List Event :=
  [.rel .dat, .rel .clk, .dly c.tInitRelease] ++ writeEvents c c.cmdReset ++ [.dly c.tInitReset] ++ readEvents c ack
  ++ exchangeEvents c ((initializePlan c p).1.zip replies)
  ++ (if p.mode = .polled then settleEvents c p else []) ++ [.dly c.tInitFinal]

/-! ### Where a refused acknowledgment ends a request (R89, R111, R112) -/

/-- R89, R95, R96: the exchanges of a plan of one byte at most, each with the session it leaves. -/
def planExchanges (plan : List Byte × SessionState) : List (Byte × SessionState) := plan.1.map fun b => (b, plan.2)

/-- R94, R97 to R100: the exchanges of a configuration command. -/
def configExchanges (c : Config) (bytes : List Byte) (p : SessionState) : List (Byte × SessionState) :=
  let paused := pausePlan c p
  planExchanges paused ++ bytes.map (fun b => (b, paused.2)) ++ planExchanges (resumePlan c paused.2)

/-- R91: the exchanges of a mode selection. -/
def selectExchanges (c : Config) (cmd : Byte) (target : Mode) (p : SessionState) : List (Byte × SessionState) :=
  let paused := pausePlan c p
  let guardMode := match c.reenableGuard with | .target => target | .recorded => p.mode
  planExchanges paused ++ [(cmd, paused.2)]
    ++ (if guardMode = .continuous then planExchanges (enablePlan c paused.2) else [])

/-- R90 to R101: the command exchanges of a request in order: the byte each writes, and the session fields once its
acknowledgment is accepted. -/
def exchangePlan (c : Config) (p : SessionState) : Instr → List (Byte × SessionState)
  | .initializeDevice =>
    (c.cmdReset, p) :: (match p.mode with
      | .polled => selectExchanges c c.cmdSetPolled .polled p
      | .continuous => planExchanges (enablePlan c p))
  | .pollReport => [(c.cmdReadData, p)]
  | .setPolledMode => selectExchanges c c.cmdSetPolled .polled p
  | .setContinuousMode => selectExchanges c c.cmdSetContinuous .continuous p
  | .selectMode cmd target => selectExchanges c cmd target p
  | .setSampleRate r => configExchanges c [c.cmdSetSampleRate, r] p
  | .setResolution n => configExchanges c [0xE8, n] p
  | .setScaling2to1 => configExchanges c [c.cmdScaling2to1] p
  | .setScaling1to1 => configExchanges c [c.cmdScaling1to1] p
  | .enableReporting => planExchanges (enablePlan c p)
  | .disableReporting => planExchanges (disablePlan c p)
  | .getPins | .writeByte _ | .readByte | .waitClockBounded _ _ | .driveLow _ | .driveHigh _ | .release _ | .sample _
  | .sendBit _ | .recvBit | .waitLevel _ _ => []

/-- R89, R90: what the first command exchanges of a request await, one reply each; INITIALIZE has delays around its first. -/
def requestNeeds (c : Config) (i : Instr) (replies : List RxFrame) : List Need :=
  match i, replies with
  | .initializeDevice, x :: xs => [.any] ++ writeNeeds c ++ [.any] ++ readNeeds c x ++ exchangeNeeds c xs
  | _, xs => exchangeNeeds c xs

/-- R89, R90: the events of the first command exchanges of a request. -/
def requestEvents (c : Config) (i : Instr) (xs : List (Byte × RxFrame)) : List Event :=
  match i, xs with
  | .initializeDevice, x :: xs =>
    [.rel .dat, .rel .clk, .dly c.tInitRelease] ++ writeEvents c x.1 ++ [.dly c.tInitReset] ++ readEvents c x.2
      ++ exchangeEvents c xs
  | _, xs => exchangeEvents c xs

/-- R84, R89, R112, R114: the error a reply that is not accepted raises: its parity is checked first, then its stop bit, then the
byte. -/
def replyError (f : RxFrame) : ResponseCode :=
  if f.parity ≠ oddParity f.data then .parityError
  else if f.stop ≠ true then .framingError
  else .unexpectedAcknowledgment

/-! ### A bus analyser -/

/-- R107: a byte crossing the bus: written by the host, or read by it. -/
inductive Xfer where
  | wrote (v : Byte)
  | read (v : Byte)
deriving DecidableEq, Repr

/-- What an analyser on the two lines has seen: the host's drive of each line low or not, the clock's last sampled level, the
data levels latched in the write in progress (if any), the data levels sampled in the read in progress, the bytes so far, and the
slot levels of the frames the host has written so far. -/
structure Analyser where
  clkLow  : Bool
  datLow  : Bool
  lastClk : Level
  writing : Option (List Bool)
  reading : List Bool
  bytes   : List Xfer
  frames  : List (List Bool)
deriving DecidableEq, Repr

/-- R32: the byte of eight bits, least significant first. -/
def byteOfBits (bits : List Bool) : Byte :=
  bits.reverse.foldl (fun acc b => (acc <<< 1) ||| (if b then 1 else 0)) 0

/-- R47, R48: one event seen by the analyser. A request-to-send (R66: the clock released while data is driven low) opens a
write, whose start slot is that low data level; each rising clock edge in it latches the host's data level; the data sample
after the ten slots is the acknowledgment. Data samples outside a write are received slots, ten to a frame. -/
def Analyser.see (a : Analyser) : Event → Analyser
  | .low .clk => { a with clkLow := true }
  | .low .dat => { a with datLow := true }
  | .high .clk => { a with clkLow := false }
  | .high .dat => { a with datLow := false }
  | .rel .dat => { a with datLow := false }
  | .rel .clk =>
    if a.clkLow && a.datLow then { a with clkLow := false, lastClk := .high, writing := some [] }
    else { a with clkLow := false }
  | .smp .clk v =>
    match a.writing with
    | some levels =>
      if a.lastClk = .low ∧ v = .high then { a with lastClk := v, writing := some (levels ++ [!a.datLow]) }
      else { a with lastClk := v }
    | none => { a with lastClk := v }
  | .smp .dat v =>
    match a.writing with
    | some levels =>
      { a with
        writing := none
        bytes := a.bytes ++ [.wrote (byteOfBits (levels.take 8))]
        frames := a.frames ++ [false :: levels] }
    | none =>
      if a.reading.length = 9 then { a with reading := [], bytes := a.bytes ++ [.read (byteOfBits (a.reading.take 8))] }
      else { a with reading := a.reading ++ [v.bit] }
  | .dly _ => a
  | .now _ => a

/-- What an analyser that starts with nothing in progress has seen after the events. -/
def analysed (es : List Event) : Analyser :=
  es.foldl Analyser.see
    { clkLow := false, datLow := false, lastClk := .high, writing := none, reading := [], bytes := [], frames := [] }

/-- The bytes an analyser reads off the events. -/
def bytesOnBus (es : List Event) : List Xfer := (analysed es).bytes

/-- R47: the slot levels of the host-to-device frames an analyser reads off the events, slot 0 first. -/
def framesOnBus (es : List Event) : List (List Bool) := (analysed es).frames

/-- R107: the bytes of exchanges: each written byte is followed by one read. -/
def exchangeBytes (xs : List (Byte × RxFrame)) : List Xfer := (xs.map fun x => [.wrote x.1, .read x.2.data]).flatten

/-- R107: the table of bus bytes: the bytes a request writes, each followed by one read, and the flags it leaves; `none` where
the table has no row. -/
def trafficRow (c : Config) (p : SessionState) : Instr → Option (List Byte × Bool × Bool)
  | .initializeDevice =>
    match p.mode, p.enabled with
    | .polled, _ => some ([c.cmdReset, c.cmdSetPolled], p.enabled, p.disabled)
    | .continuous, false => some ([c.cmdReset, c.cmdEnable], true, false)
    | .continuous, true => some ([c.cmdReset], p.enabled, p.disabled)
  | .setPolledMode =>
    match p.mode, p.disabled with
    | .polled, _ => some ([c.cmdSetPolled], p.enabled, p.disabled)
    | .continuous, false => some ([c.cmdDisable, c.cmdSetPolled], false, true)
    | .continuous, true => none
  | .setContinuousMode =>
    match p.mode, p.enabled, p.disabled with
    | .polled, false, _ => some ([c.cmdSetContinuous, c.cmdEnable], true, false)
    | .continuous, true, false => some ([c.cmdDisable, c.cmdSetContinuous, c.cmdEnable], true, false)
    | _, _, _ => none
  | .enableReporting => if p.enabled then some ([], p.enabled, p.disabled) else some ([c.cmdEnable], true, false)
  | .disableReporting => if p.disabled then some ([], p.enabled, p.disabled) else some ([c.cmdDisable], false, true)
  | .setSampleRate r => bracketedRow [c.cmdSetSampleRate, r]
  | .setResolution n => bracketedRow [0xE8, n]
  | .setScaling2to1 => bracketedRow [c.cmdScaling2to1]
  | .setScaling1to1 => bracketedRow [c.cmdScaling1to1]
  | .pollReport => some ([c.cmdReadData], p.enabled, p.disabled)
  | .getPins => some ([], p.enabled, p.disabled)
  | .selectMode _ _ | .writeByte _ | .readByte | .waitClockBounded _ _ | .driveLow _ | .driveHigh _ | .release _ | .sample _
  | .sendBit _ | .recvBit | .waitLevel _ _ => none
where
  /-- R107: a configuration command's rows. -/
  bracketedRow (bytes : List Byte) : Option (List Byte × Bool × Bool) :=
    match p.mode, p.enabled, p.disabled with
    | .polled, _, _ => some (bytes, p.enabled, p.disabled)
    | .continuous, true, false => some ([c.cmdDisable] ++ bytes ++ [c.cmdEnable], true, false)
    | _, _, _ => none

/-- R107: the reads of a request after those of its exchanges: the three report bytes of POLL_REPORT. -/
def extraReads (i : Instr) (report : List RxFrame) : List RxFrame := if i = .pollReport then report else []

/-- What the environment answers in a request of R107's table: its exchanges with their replies, the delays around them, and
the report frames of POLL_REPORT. -/
def trafficNeeds (c : Config) (p : SessionState) (i : Instr) (replies report : List RxFrame) : List Need :=
  match i with
  | .initializeDevice =>
    match replies with
    | [] => []
    | ack :: replies => initializeNeeds c p ack replies
  | .setPolledMode | .setContinuousMode => exchangeNeeds c replies ++ settleNeeds p
  | .pollReport => exchangeNeeds c replies ++ (report.map (readNeeds c)).flatten
  | .setSampleRate _ | .setResolution _ | .setScaling2to1 | .setScaling1to1 | .enableReporting | .disableReporting | .getPins
  | .selectMode _ _ | .writeByte _ | .readByte | .waitClockBounded _ _ | .driveLow _ | .driveHigh _ | .release _ | .sample _
  | .sendBit _ | .recvBit | .waitLevel _ _ => exchangeNeeds c replies

end Sys2Proof.Machine
end

