-- ==== Sys2Proof/Certificates/Slice0/Obligations.lean ====
section
/-! DEFINITION. The statements for the provers. Each docstring names the rules of spec/ the statement formalises. -/

open Sys2Proof Sys2Proof.Machine

/-! ### Encoding -/

/-- R52, R53, R56, R58: decoding the word of a request gives the request back. -/
def Obligations.DecodeOfEncode : Prop :=
  ∀ i : Instr, i.wellFormed = true → decode (encode i) = .ok i

/-- R53, R56: the opcode table with every operand form, for every value of every field. -/
def Obligations.DecodeTable : Prop :=
  ∀ (arg : Byte) (tmo : BitVec 32),
    let line : Line := if arg.getLsbD 0 then .dat else .clk
    let level (n : Nat) : Level := if arg.getLsbD n then .high else .low
    decode (0x01#8 ++ arg ++ tmo) = .ok .initializeDevice ∧
    decode (0x02#8 ++ arg ++ tmo) = .ok .pollReport ∧
    decode (0x03#8 ++ arg ++ tmo) = .ok .setPolledMode ∧
    decode (0x04#8 ++ arg ++ tmo) = .ok .setContinuousMode ∧
    decode (0x05#8 ++ arg ++ tmo) = .ok (.setSampleRate arg) ∧
    decode (0x06#8 ++ arg ++ tmo) = .ok (.setResolution arg) ∧
    decode (0x07#8 ++ arg ++ tmo) = .ok .setScaling2to1 ∧
    decode (0x08#8 ++ arg ++ tmo) = .ok .setScaling1to1 ∧
    decode (0x09#8 ++ arg ++ tmo) = .ok .enableReporting ∧
    decode (0x0A#8 ++ arg ++ tmo) = .ok .disableReporting ∧
    decode (0x0B#8 ++ arg ++ tmo) = .ok .getPins ∧
    decode (0x40#8 ++ arg ++ tmo) = .ok (.selectMode arg (if tmo.getLsbD 0 then .continuous else .polled)) ∧
    decode (0x80#8 ++ arg ++ tmo) = .ok (.writeByte arg) ∧
    decode (0x81#8 ++ arg ++ tmo) = .ok .readByte ∧
    decode (0x82#8 ++ arg ++ tmo) = .ok (.waitClockBounded (level 0) tmo.toNat) ∧
    decode (0x90#8 ++ arg ++ tmo) = .ok (.driveLow line) ∧
    decode (0x91#8 ++ arg ++ tmo) = .ok (.driveHigh line) ∧
    decode (0x92#8 ++ arg ++ tmo) = .ok (.release line) ∧
    decode (0x93#8 ++ arg ++ tmo) = .ok (.sample line) ∧
    decode (0xA0#8 ++ arg ++ tmo) = .ok (.sendBit (arg.getLsbD 0)) ∧
    decode (0xA1#8 ++ arg ++ tmo) = .ok .recvBit ∧
    decode (0xA2#8 ++ arg ++ tmo) = .ok (.waitLevel line (level 1))

/-- R52, R53, R56: the bits a request is read from are its operation code and its operand bits, all of them and no other. -/
def Obligations.DecodeReadsUsedBits : Prop :=
  ∀ (w w' : Request) (i : Instr), decode w = .ok i →
    (decode w' = .ok i ↔ w' &&& i.usedBits = w &&& i.usedBits)

/-- R54, R113: every word with an undefined operation code is illegal; the step that meets it answers IllegalRequest, with no
event, no delay and no change of the engine; every other word is a request. -/
def Obligations.IllegalRequests : Prop :=
  ∀ w : Request,
    let op := (w.extractLsb' 40 8).toNat
    let illegal := op = 0x00 ∨ (0x0C ≤ op ∧ op ≤ 0x3F) ∨ (0x41 ≤ op ∧ op ≤ 0x7F) ∨ (0x83 ≤ op ∧ op ≤ 0x8F) ∨
      (0x94 ≤ op ∧ op ≤ 0x9F) ∨ (0xA3 ≤ op ∧ op ≤ 0xFF)
    (illegal → decode w = .error (.illegalRequest (w.extractLsb' 40 8)) ∧
      ∀ (s : State) (rest : List Request), s.pos = .idle → s.requests = w :: rest →
        step s = .next { s with requests := rest, responses := s.responses ++ [⟨.illegalRequest, .none⟩] }) ∧
    (¬illegal → ∃ i, decode w = .ok i)

/-- 95_test_vectors.md V-ENC: words written out from R52 and R53, one at least of every layer. -/
def Obligations.SampleWordsDecode : Prop :=
  decode 0x01FFFFFFFFFF#48 = .ok .initializeDevice ∧
  decode 0x056400000000#48 = .ok (.setSampleRate 100) ∧
  decode 0x40EA00000001#48 = .ok (.selectMode 0xEA .continuous) ∧
  decode 0x80E800000000#48 = .ok (.writeByte 0xE8) ∧
  decode 0x8201000003E8#48 = .ok (.waitClockBounded .high 1000) ∧
  decode 0x90FE00000000#48 = .ok (.driveLow .clk) ∧
  decode 0xA20100000000#48 = .ok (.waitLevel .dat .low) ∧
  decode 0x830000000000#48 = .error (.illegalRequest 0x83)

/-- R58, R59: the spec's own assembler lines, and the four pseudo-instructions with their expansions. -/
def Obligations.AssemblerLines : Prop :=
  AsmLine.toWord ⟨"SET_RESOLUTION", [.number 0x02]⟩ = some 0x060200000000 ∧
  AsmLine.toWord ⟨"WAIT_CLOCK_BOUNDED", [.level .high, .number 1000]⟩ = some 0x8201000003E8 ∧
  AsmLine.toWord ⟨"WAIT_LEVEL", [.line .dat, .level .low]⟩ = some 0xA20100000000 ∧
  AsmLine.toWord ⟨"SELECT_MODE", [.number 0xF0, .mode .polled]⟩ = some 0x40F000000000 ∧
  AsmLine.toInstr ⟨"SET_SCALING", [.twoToOne]⟩ = AsmLine.toInstr ⟨"SET_SCALING_2TO1", []⟩ ∧
  AsmLine.toInstr ⟨"SET_SCALING", [.oneToOne]⟩ = AsmLine.toInstr ⟨"SET_SCALING_1TO1", []⟩ ∧
  AsmLine.toInstr ⟨"SET_MODE", [.mode .polled]⟩ = AsmLine.toInstr ⟨"SET_POLLED_MODE", []⟩ ∧
  AsmLine.toInstr ⟨"SET_MODE", [.mode .continuous]⟩ = AsmLine.toInstr ⟨"SET_CONTINUOUS_MODE", []⟩ ∧
  AsmLine.toInstr ⟨"SET_SCALING_2TO1", []⟩ = some .setScaling2to1 ∧
  AsmLine.toInstr ⟨"SET_SCALING_1TO1", []⟩ = some .setScaling1to1 ∧
  AsmLine.toInstr ⟨"SET_POLLED_MODE", []⟩ = some .setPolledMode ∧
  AsmLine.toInstr ⟨"SET_CONTINUOUS_MODE", []⟩ = some .setContinuousMode

/-! ### The step -/

/-- R26, R54: at `Idle` a step takes the caller's next word and runs the request it decodes to; with no word it changes
nothing. That the caller's words stand in a list whose head a step takes at once is the model's choice (log 5). -/
def Obligations.StepRunsDecodedRequest : Prop :=
  ∀ s : State, s.pos = .idle →
    (s.requests = [] → step s = .next s) ∧
    ∀ (w : Request) (rest : List Request) (i : Instr), s.requests = w :: rest → decode w = .ok i →
      step s = exec i { s with requests := rest }

/-- R26, R27: a step of a busy engine goes on with the request in progress; where no environment move is placed it takes a free
one, whatever that is (log 1, log 3). -/
def Obligations.StepResumesBusyRequest : Prop :=
  ∀ (s : State) (req : Instr) (todo : List Micro), s.pos = .busy req todo →
    (s.env ≠ [] → step s = s.resume) ∧
    (s.env = [] →
      step s = step { s with env := [Config.freeMove s.freeMoves], freeMoves := s.freeMoves + 1 })

/-- R7, R26 (log 3): how far one step runs is no part of the machine: a request whose environment answers in two parts does
what it does when all the answers stand ready. -/
def Obligations.EnvironmentMayAnswerInParts : Prop :=
  ∀ (i : Instr) (s t : State) (a b : List EnvMove), s.pos = .idle → b ≠ [] →
    exec i { s with env := a } = .next t → t.pos ≠ .idle →
    exec i { s with env := a ++ b } = step { t with env := b }

/-! ### The invariant -/

/-- R20, R23, R25, R125: every step keeps the invariant. -/
def Obligations.StepKeepsInvariant : Prop :=
  ∀ s t : State, s.Inv → step s = .next t → t.Inv

/-- R20, R23, R25, R28, R125: the state after reset, and after any construction, has the invariant. -/
def Obligations.InvariantHoldsInitially : Prop :=
  State.reset.Inv ∧
  ∀ (cfg : Config) (clk dat : PinId) (m : Mode) (dc dd : Drive) (s : State),
    State.construct cfg clk dat m dc dd = .next s → s.Inv

/-- R23, R25, spec/93: no rule reads a frame or a report that holds no value, and the caller issues a request only at `Idle`, so
a step always answers a next state. -/
def Obligations.StepAlwaysAnswers : Prop :=
  ∀ s : State, s.Inv → ∃ t, step s = .next t

/-- R26, R57: from `Idle` every request runs to its one response; it takes none of the caller's other requests. That a request
whose placed moves are used up answers a state in which it stays busy, with no response yet, is the model's choice of where one
step ends (log 3). -/
def Obligations.EveryRequestAnswers : Prop :=
  ∀ (i : Instr) (s : State), s.Inv → s.pos = .idle →
    ∃ t, exec i s = .next t ∧ t.Inv ∧ t.requests = s.requests ∧
      ((t.pos = .idle ∧ ∃ r, t.responses = s.responses ++ [r]) ∨
       (t.env = [] ∧ t.responses = s.responses ∧ ∃ todo, t.pos = .busy i todo))

/-! ### Construction -/

/-- R28, R123, R124, R125: what construction leaves. -/
def Obligations.ConstructionLeaves : Prop :=
  ∀ (cfg : Config) (clk dat : PinId) (m : Mode) (dc dd : Drive),
    (clk = dat → State.construct cfg clk dat m dc dd = .refused .equalPins) ∧
    (clk ≠ dat → ∃ s, State.construct cfg clk dat m dc dd = .next s ∧
      s.clockPin = clk ∧ s.dataPin = dat ∧ s.mode = m ∧ s.initialized = false ∧
      s.reportingEnabled = false ∧ s.reportingDisabled = false ∧ s.driveClk = dc ∧ s.driveDat = dd ∧
      s.frame = none ∧ s.report = none ∧ s.pos = .idle ∧ s.cfg = cfg ∧ s.trace = [])

/-- R8, R28: reset is the construction with the default mode and configuration; its pins, its drives and the fields of the
agents are the model's choices (log 7, log 8, log 11). -/
def Obligations.ResetIsDefaultConstruction : Prop :=
  State.construct Config.default .first .second .polled .released .released = .next State.reset

/-! ### What every step keeps -/

/-- R16, R24: no operation writes the pins or the configuration. -/
def Obligations.PinsAndConfigurationFixed : Prop :=
  ∀ s t : State, step s = .next t → t.clockPin = s.clockPin ∧ t.dataPin = s.dataPin ∧ t.cfg = s.cfg

/-- R17, R18, R19: `mode` is written only by the two mode requests, `initialized` is set only by INITIALIZE and never cleared,
and the flags are written only by session operations. -/
def Obligations.SessionWrittenOnlyByItsRequests : Prop :=
  ∀ s t : State, s.Inv → step s = .next t →
    (t.mode ≠ s.mode →
      (s.current = some .setPolledMode ∧ t.mode = .polled) ∨
      (s.current = some .setContinuousMode ∧ t.mode = .continuous)) ∧
    (t.initialized ≠ s.initialized → s.current = some .initializeDevice ∧ t.initialized = true) ∧
    ((t.reportingEnabled ≠ s.reportingEnabled ∨ t.reportingDisabled ≠ s.reportingDisabled) →
      ∃ i, s.current = some i ∧ i.writesFlags = true)

/-- R101, R136: no diagnostic request but SELECT_MODE, and neither POLL_REPORT nor GET_PINS, writes a session field. -/
def Obligations.DiagnosticsLeaveSession : Prop :=
  ∀ (i : Instr) (s t : State), s.Inv → i.writesFlags = false → exec i s = .next t → t.session = s.session

/-- R20: the flag pairs a step can reach. -/
def Obligations.FlagPairs : Prop :=
  ∀ s t : State, step s = .next t →
    (s.cfg.flagPolicy = .setOnly →
      (s.reportingEnabled = true → t.reportingEnabled = true) ∧
      (s.reportingDisabled = true → t.reportingDisabled = true)) ∧
    (s.cfg.flagPolicy = .exclusive →
      ¬(s.reportingEnabled = true ∧ s.reportingDisabled = true) →
      ¬(t.reportingEnabled = true ∧ t.reportingDisabled = true)) ∧
    ((s.reportingEnabled = true ∨ s.reportingDisabled = true) →
      (t.reportingEnabled = true ∨ t.reportingDisabled = true))

/-- R21, R62, R111: a step only adds events to the trace, and leaves each line driven as the last line-control event on it among
them says, or as it was. -/
def Obligations.DrivesFollowLineEvents : Prop :=
  ∀ s t : State, step s = .next t →
    ∃ es, t.trace = s.trace ++ es ∧ ∀ l, t.drive l = (lastDrive l es).getD (s.drive l)

/-- R71: time never goes back, every delay takes at least its length, and the clock readings are those of successive times: the
times themselves with the unbounded clock, the times modulo `2^W_TIME` with a finite one. That a finite clock reads the time modulo
`2^W_TIME` is the model's own inference (log 18, DEDUCED): R71 and D7 give only the modular difference of two readings. -/
def Obligations.TimeIsMonotonic : Prop :=
  ∀ s t : State, step s = .next t →
    ∃ (es : List Event) (times : List Time), t.trace = s.trace ++ es ∧ s.now + delayed es ≤ t.now ∧
      times.Pairwise (· ≤ ·) ∧ (∀ n ∈ times, s.now ≤ n ∧ n ≤ t.now) ∧
      readings es = match s.cfg.timeWidth with
        | none => times
        | some w => times.map (· % 2 ^ w)

/-- R57: every request ends in exactly one response: those still to be answered and the responses given always add up. A
response with a code other than OK carries no payload. -/
def Obligations.OneResponsePerRequest : Prop :=
  ∀ s t : State, step s = .next t →
    t.accounted = s.accounted ∧
    ∃ rs, t.responses = s.responses ++ rs ∧ rs.length ≤ 1 ∧ ∀ r ∈ rs, r.code ≠ .ok → r.payload = .none

/-- R26, spec/93: a request issued while the engine is busy is refused, and a step never issues one. -/
def Obligations.OneRequestAtATime : Prop :=
  (∀ (i : Instr) (s : State), s.pos ≠ .idle → exec i s = .refused .requestWhileBusy) ∧
  ∀ (s : State) (r : Refusal), step s ≠ .refused r

/-- R109, R110: each error code is answered only where its cause can be: BusTimeout under Bounded by a request with a transfer
wait, UnexpectedAcknowledgment in strict mode by one with a command exchange, ParityError and FramingError in strict mode by one
that reads a byte, IllegalRequest for a word that is no request. -/
def Obligations.ErrorsOnlyFromTheirCause : Prop :=
  ∀ s t : State, s.Inv → step s = .next t →
    t.responses = s.responses ∨
    ∃ r, t.responses = s.responses ++ [r] ∧
      match r.code with
      | .ok => ∃ i, s.current = some i
      | .busTimeout => s.cfg.waitPolicy = .bounded ∧ ∃ i, s.current = some i ∧ i.transfers = true
      | .unexpectedAcknowledgment => s.cfg.strict = .strict ∧ ∃ i, s.current = some i ∧ i.commands = true
      | .parityError | .framingError => s.cfg.strict = .strict ∧ ∃ i, s.current = some i ∧ i.reads = true
      | .illegalRequest => s.pos = .idle ∧ ∃ w rest e, s.requests = w :: rest ∧ decode w = .error e

/-- R65, R68, R129: a line is driven high only by DRIVE_HIGH of that line, or with `P_DATA_ONE = DriveHigh`, and then only the data
line and only by a request with host-to-device data slots: SEND_BIT, WRITE_BYTE, or one with a command exchange. -/
def Obligations.HighOnlyWhereAllowed : Prop :=
  ∀ s t : State, s.Inv → step s = .next t →
    ∃ es, t.trace = s.trace ++ es ∧
      ∀ l, Event.high l ∈ es →
        s.current = some (.driveHigh l) ∨
        (l = .dat ∧ s.cfg.dataOne = .driveHigh ∧
          ∃ i, s.current = some i ∧ (i.commands = true ∨ (∃ v, i = .writeByte v) ∨ ∃ b, i = .sendBit b))

/-! ### Progress -/

/-- R72, R128: under Bounded, with the unbounded clock (`timeWidth = none`), no request runs forever where time grows: for every
timeout there is a number of environment moves, each at least one microsecond long, by which every request has responded. -/
def Obligations.BoundedRequestsEnd : Prop :=
  ∀ timeout : Time, ∃ enough : Nat, ∀ (i : Instr) (s : State),
    s.Inv → s.pos = .idle → s.cfg.waitPolicy = .bounded → s.cfg.timeoutUs ≤ timeout → s.cfg.timeWidth = none →
    (∀ v t, i = .waitClockBounded v t → t ≤ timeout) →
    (∀ m ∈ s.env, 1 ≤ m.dt) → enough ≤ s.env.length →
    ∃ t, exec i s = .next t ∧ t.pos = .idle

/-- R73, R128: under Unbounded a wait whose level never comes samples for as long as the environment answers, and the request
does not respond: WAIT_LEVEL, and a write whose peripheral never pulls the clock low (step 5); FramingWaitsHang says so of every wait
of a byte. That the answer is a busy state once
the placed moves are used up is the model's choice of where one step ends (log 3), and that its position is written as the list
`[.poll l v]` of the steps left is the model's too (log 4). -/
def Obligations.UnboundedWaitsHang : Prop :=
  (∀ (s : State) (l : Line) (v : Level), s.Inv → s.pos = .idle → s.cfg.waitPolicy = .unbounded →
    (∀ m ∈ s.env, s.levelAt l m ≠ v) →
    ∃ t, exec (.waitLevel l v) s = .next t ∧ t.pos = .busy (.waitLevel l v) [.poll l v] ∧ t.env = [] ∧
      t.responses = s.responses ∧ t.trace = s.trace ++ s.env.map fun m => .smp l (s.levelAt l m)) ∧
  ∀ (s : State) (b : Byte) (w silent : List EnvMove), s.Ready w silent → s.cfg.waitPolicy = .unbounded →
    answers startNeeds w = true → (∀ m ∈ silent, m.clk = .released) →
    ∃ t, exec (.writeByte b) s = .next t ∧ t.pos ≠ .idle ∧ t.env = [] ∧ t.responses = s.responses ∧
      t.trace = s.trace ++ writeStartEvents s.cfg ++ silent.map fun _ => .smp .clk .high

/-! ### Line Control -/

/-- R64, R65, R66: the three line operations, whole: the line's drive, one event, the response, and nothing else but the time
the environment lets pass (R71); and what a following sample of that line can read. That this time is the next amount placed, or a
free value, whatever that is, is how the model says "any amount" (log 28). -/
def Obligations.LineOperations : Prop :=
  ∀ (s : State) (l : Line), s.Inv → s.pos = .idle →
    let driven (d : Drive) (e : Event) : State :=
      { s with
        driveClk := if l = .clk then d else s.driveClk
        driveDat := if l = .dat then d else s.driveDat
        now := s.now + (match s.lags with | [] => Config.freeLag s.freeLags | dt :: _ => dt)
        lags := s.lags.tail
        freeLags := if s.lags = [] then s.freeLags + 1 else s.freeLags
        trace := s.trace ++ [e]
        responses := s.responses ++ [⟨.ok, .none⟩] }
    exec (.driveLow l) s = .next (driven .drivenLow (.low l)) ∧
    exec (.driveHigh l) s = .next (driven .drivenHigh (.high l)) ∧
    exec (.release l) s = .next (driven .released (.rel l)) ∧
    (∀ m, (driven .drivenLow (.low l)).levelAt l m = .low) ∧
    (∀ m, (driven .drivenHigh (.high l)).levelAt l m = if devDrive m l = .low then m.draw else .high) ∧
    (∀ m, (driven .released (.rel l)).levelAt l m = if devDrive m l = .low then .low else .high)

/-- R63, R67: SAMPLE responds with the level of the open-collector line, and changes no drive; under contention the level is the
environment's draw. -/
def Obligations.SampleReturnsLevel : Prop :=
  ∀ (s : State) (l : Line) (m : EnvMove) (rest : List EnvMove), s.Ready [m] rest →
    ∃ t v, exec (.sample l) s = .next t ∧ Ended s t rest ⟨.ok, .level v⟩ [.smp l v] ∧
      t.driveClk = s.driveClk ∧ t.driveDat = s.driveDat ∧ t.session = s.session ∧
      (s.drive l = .drivenLow → v = .low) ∧
      (s.drive l = .drivenHigh → devDrive m l = .low → v = m.draw) ∧
      (s.drive l = .drivenHigh → devDrive m l = .released → v = .high) ∧
      (s.drive l = .released → devDrive m l = .low → v = .low) ∧
      (s.drive l = .released → devDrive m l = .released → v = .high)

/-- R104: GET_PINS responds with the pins and changes nothing. -/
def Obligations.GetPinsReturnsPins : Prop :=
  ∀ s : State, s.Inv → s.pos = .idle →
    exec .getPins s = .next { s with responses := s.responses ++ [⟨.ok, .pins s.clockPin s.dataPin⟩] }

/-- R61: the pin calls of the four line operations. -/
def Obligations.PinCallsOfEvents : Prop :=
  ∀ (s : State) (v : Level),
    s.pinCalls (.low .clk) = [.setDirection s.clockPin .output, .writeLevel s.clockPin .low] ∧
    s.pinCalls (.low .dat) = [.setDirection s.dataPin .output, .writeLevel s.dataPin .low] ∧
    s.pinCalls (.high .clk) = [.setDirection s.clockPin .output, .writeLevel s.clockPin .high] ∧
    s.pinCalls (.high .dat) = [.setDirection s.dataPin .output, .writeLevel s.dataPin .high] ∧
    s.pinCalls (.rel .clk) = [.setDirection s.clockPin .input] ∧
    s.pinCalls (.rel .dat) = [.setDirection s.dataPin .input] ∧
    s.pinCalls (.smp .clk v) = [.readLevel s.clockPin] ∧
    s.pinCalls (.smp .dat v) = [.readLevel s.dataPin]

/-! ### Bit Transfer -/

/-- R72, R73, R74: WAIT_LEVEL: it responds OK at a first sample that meets the level, BusTimeout where the bounded wait expires,
and whatever the environment does, its events are those of the policy's loop and its response is the loop's verdict. -/
def Obligations.WaitLevel : Prop :=
  ∀ (s : State) (l : Line) (v : Level),
    (∀ w rest, s.Ready w rest → answersAt s.drive (waitNeeds s.cfg l v) w = true →
      ∃ t, exec (.waitLevel l v) s = .next t ∧ Ended s t rest ⟨.ok, .none⟩ [.smp l v] ∧
        t.driveClk = s.driveClk ∧ t.driveDat = s.driveDat ∧ t.session = s.session) ∧
    (∀ w rest, s.Ready w rest → s.cfg.waitPolicy = .bounded → s.cfg.noWrap w →
      answersAt s.drive (timeoutNeeds s.cfg l v) w = true →
      ∃ t, exec (.waitLevel l v) s = .next t ∧ Ended s t rest ⟨.busTimeout, .none⟩ [.smp l (otherLevel v)] ∧
        t.driveClk = s.driveClk ∧ t.driveDat = s.driveDat ∧ t.session = s.session) ∧
    ∀ t, exec (.waitLevel l v) s = .next t → t.pos = .idle →
      t.driveClk = s.driveClk ∧ t.driveDat = s.driveDat ∧ t.session = s.session ∧
      ∃ es r, t.trace = s.trace ++ es ∧ t.responses = s.responses ++ [⟨if r then .ok else .busTimeout, .none⟩] ∧
        match s.cfg.waitPolicy with
        | .unbounded => r = true ∧ PollLoop l v es
        | .bounded => ∃ start es', es = .now start :: es' ∧ BwaitLoop s.cfg l v s.cfg.timeoutUs start r es'

/-- R72, R75, R110: WAIT_CLOCK_BOUNDED: whatever the policy, a first sample that meets the level gives `reached = true` whatever
the timeout, a first deadline check past it gives `reached = false`, and in every run its events are those of the bounded loop
and its result is the loop's verdict, never an error. -/
def Obligations.WaitClockBounded : Prop :=
  ∀ (s : State) (v : Level) (timeout : Time),
    (∀ w rest, s.Ready w rest → answersAt s.drive [.any, .reads .clk v] w = true →
      ∃ t, exec (.waitClockBounded v timeout) s = .next t ∧ Ended s t rest ⟨.ok, .reached true⟩ [.smp .clk v] ∧
        t.driveClk = s.driveClk ∧ t.driveDat = s.driveDat ∧ t.session = s.session) ∧
    (∀ w rest, s.Ready w rest → s.cfg.noWrap w →
      answersAt s.drive [.any, .reads .clk (otherLevel v), .late timeout] w = true →
      ∃ t, exec (.waitClockBounded v timeout) s = .next t ∧
        Ended s t rest ⟨.ok, .reached false⟩ [.smp .clk (otherLevel v)] ∧
        t.driveClk = s.driveClk ∧ t.driveDat = s.driveDat ∧ t.session = s.session) ∧
    ∀ t, exec (.waitClockBounded v timeout) s = .next t → t.pos = .idle →
      t.driveClk = s.driveClk ∧ t.driveDat = s.driveDat ∧ t.session = s.session ∧
      ∃ start es r, t.trace = s.trace ++ .now start :: es ∧ BwaitLoop s.cfg .clk v timeout start r es ∧
        t.responses = s.responses ++ [⟨.ok, .reached r⟩]

/-- R68, R77, R78: SEND_BIT presents the bit and awaits one clock pulse; where either wait expires it responds BusTimeout with
the bit still presented (R111). -/
def Obligations.SendBit : Prop :=
  ∀ (s : State) (b : Bool) (w rest : List EnvMove), s.Ready w rest →
    let presented : Drive :=
      if b then (match s.cfg.dataOne with | .release => .released | .driveHigh => .drivenHigh) else .drivenLow
    (answersAt s.drive (pulseNeeds s.cfg) w = true →
      ∃ t, exec (.sendBit b) s = .next t ∧ Ended s t rest ⟨.ok, .none⟩ (sendBitEvents s.cfg b) ∧
        t.driveClk = s.driveClk ∧ t.driveDat = presented ∧ t.session = s.session) ∧
    (s.cfg.waitPolicy = .bounded → s.cfg.noWrap w →
      (answersAt s.drive (timeoutNeeds s.cfg .clk .low) w = true →
        ∃ t, exec (.sendBit b) s = .next t ∧
          Ended s t rest ⟨.busTimeout, .none⟩ [presentEvent s.cfg b, .smp .clk .high] ∧
          t.driveClk = s.driveClk ∧ t.driveDat = presented ∧ t.session = s.session) ∧
      (answersAt s.drive (waitNeeds s.cfg .clk .low ++ timeoutNeeds s.cfg .clk .high) w = true →
        ∃ t, exec (.sendBit b) s = .next t ∧
          Ended s t rest ⟨.busTimeout, .none⟩ [presentEvent s.cfg b, .smp .clk .low, .smp .clk .low] ∧
          t.driveClk = s.driveClk ∧ t.driveDat = presented ∧ t.session = s.session))

/-- R79: RECV_BIT awaits clock low, samples the data line once, awaits clock high, and responds with the bit; where either wait
expires it responds BusTimeout. -/
def Obligations.ReceiveBit : Prop :=
  ∀ (s : State) (b : Bool) (w rest : List EnvMove), s.Ready w rest →
    (answersAt s.drive (bitNeeds s.cfg b) w = true →
      ∃ t, exec .recvBit s = .next t ∧ Ended s t rest ⟨.ok, .bit b⟩ (recvBitEvents b) ∧
        t.driveClk = s.driveClk ∧ t.driveDat = s.driveDat ∧ t.session = s.session) ∧
    (s.cfg.waitPolicy = .bounded → s.cfg.noWrap w →
      (answersAt s.drive (timeoutNeeds s.cfg .clk .low) w = true →
        ∃ t, exec .recvBit s = .next t ∧ Ended s t rest ⟨.busTimeout, .none⟩ [.smp .clk .high] ∧
          t.driveClk = s.driveClk ∧ t.driveDat = s.driveDat ∧ t.session = s.session) ∧
      (answersAt s.drive
          (waitNeeds s.cfg .clk .low ++ [.reads .dat (Level.ofBit b)] ++ timeoutNeeds s.cfg .clk .high) w = true →
        ∃ t, exec .recvBit s = .next t ∧
          Ended s t rest ⟨.busTimeout, .none⟩ [.smp .clk .low, .smp .dat (Level.ofBit b), .smp .clk .low] ∧
          t.driveClk = s.driveClk ∧ t.driveDat = s.driveDat ∧ t.session = s.session))

/-! ### Byte Framing -/

/-- R46, R47: the parity bit makes the number of ones odd, and the frame word has the start bit 0, the data bits least
significant first, the parity bit and the stop bit 1. -/
def Obligations.ParityAndFrameWord : Prop :=
  ∀ v : Byte,
    ((List.range 8).countP (fun i => v.getLsbD i) + (oddParity v).toNat) % 2 = 1 ∧
    (frameWord v).getLsbD 0 = false ∧ (∀ i : Fin 8, (frameWord v).getLsbD (i + 1) = v.getLsbD i) ∧
    (frameWord v).getLsbD 9 = oddParity v ∧ (frameWord v).getLsbD 10 = true

/-- R47, R81, R82: WRITE_BYTE against a peripheral that answers every wait at once: its events in order, the bus left inhibited
with data released, and on the wire the eleven slots of the frame word. -/
def Obligations.WriteByte : Prop :=
  ∀ (s : State) (v : Byte) (w rest : List EnvMove), s.Ready w rest → answers (writeNeeds s.cfg) w = true →
    ∃ t, exec (.writeByte v) s = .next t ∧ Ended s t rest ⟨.ok, .none⟩ (writeEvents s.cfg v) ∧
      t.driveClk = .drivenLow ∧ t.driveDat = .released ∧ t.session = s.session ∧
      framesOnBus (writeEvents s.cfg v) = [(List.range 11).map fun i => (frameWord v).getLsbD i]

/-- R81: in every environment the line events and delays of WRITE_BYTE are those of its pseudocode up to where it stands, and
all of them if it responds OK. -/
def Obligations.WriteByteLineEvents : Prop :=
  ∀ (s t : State) (v : Byte), exec (.writeByte v) s = .next t →
    ∃ es, t.trace = s.trace ++ es ∧ lineEvents es <+: writeLineEvents s.cfg v ∧
      (t.responses = s.responses ++ [⟨.ok, .none⟩] → lineEvents es = writeLineEvents s.cfg v)

/-- R81, R111: a write in which any of its waits expires responds BusTimeout with the lines as they stand: the clock never pulled
low (step 5), the clock never low or never high again in slot `k` (steps 6 to 8: eight data bits, parity, stop), data never pulled low
in acknowledgment (step 9). -/
def Obligations.WriteByteTimesOut : Prop :=
  ∀ (s : State) (v : Byte) (w rest : List EnvMove), s.Ready w rest →
    s.cfg.waitPolicy = .bounded → s.cfg.noWrap w →
    (answers (startNeeds ++ timeoutNeeds s.cfg .clk .low) w = true →
      ∃ t, exec (.writeByte v) s = .next t ∧
        Ended s t rest ⟨.busTimeout, .none⟩ (writeStartEvents s.cfg ++ [.smp .clk .high]) ∧
        t.driveClk = .released ∧ t.driveDat = .drivenLow ∧ t.session = s.session) ∧
    (∀ k < 10,
      (answers (startNeeds ++ waitNeeds s.cfg .clk .low ++ (List.replicate k (pulseNeeds s.cfg)).flatten
          ++ timeoutNeeds s.cfg .clk .low) w = true →
        ∃ t, exec (.writeByte v) s = .next t ∧
          Ended s t rest ⟨.busTimeout, .none⟩ (writeStartEvents s.cfg ++ [.smp .clk .low] ++ slotsBefore s.cfg v k
            ++ [slotEvent s.cfg v k, .smp .clk .high]) ∧
          t.driveClk = .released ∧ some t.driveDat = lastDrive .dat [slotEvent s.cfg v k] ∧ t.session = s.session) ∧
      (answers (startNeeds ++ waitNeeds s.cfg .clk .low ++ (List.replicate k (pulseNeeds s.cfg)).flatten
          ++ waitNeeds s.cfg .clk .low ++ timeoutNeeds s.cfg .clk .high) w = true →
        ∃ t, exec (.writeByte v) s = .next t ∧
          Ended s t rest ⟨.busTimeout, .none⟩ (writeStartEvents s.cfg ++ [.smp .clk .low] ++ slotsBefore s.cfg v k
            ++ [slotEvent s.cfg v k, .smp .clk .low, .smp .clk .low]) ∧
          t.driveClk = .released ∧ some t.driveDat = lastDrive .dat [slotEvent s.cfg v k] ∧ t.session = s.session)) ∧
    (answers (startNeeds ++ waitNeeds s.cfg .clk .low ++ (List.replicate 10 (pulseNeeds s.cfg)).flatten
        ++ timeoutNeeds s.cfg .dat .low) w = true →
      ∃ t, exec (.writeByte v) s = .next t ∧
        Ended s t rest ⟨.busTimeout, .none⟩
          (writeStartEvents s.cfg ++ [.smp .clk .low] ++ writeSlotEvents s.cfg v ++ [.smp .dat .high]) ∧
        t.driveClk = .released ∧ t.driveDat = .released ∧ t.session = s.session)

/-- R83, R84, R114: READ_BYTE against a peripheral that sends a frame: its events in order, the bus left inhibited with data
released, and its response: in strict mode ParityError before FramingError, else OK with the byte. -/
def Obligations.ReadByte : Prop :=
  ∀ (s : State) (f : RxFrame) (w rest : List EnvMove), s.Ready w rest → answers (readNeeds s.cfg f) w = true →
    ∃ t, exec .readByte s = .next t ∧
      Ended s t rest
        (if s.cfg.strict = .strict ∧ f.parity ≠ oddParity f.data then ⟨.parityError, .none⟩
          else if s.cfg.strict = .strict ∧ f.stop ≠ true then ⟨.framingError, .none⟩
          else ⟨.ok, .byte f.data⟩)
        (readEvents s.cfg f) ∧
      t.driveClk = .drivenLow ∧ t.driveDat = .released ∧ t.session = s.session

/-- R79, R83, R84: in every environment a byte READ_BYTE responds with is the eight data samples, least significant bit first,
of exactly ten; in strict mode the ninth is its odd parity and the tenth is 1; and its line events and delays are those of its
pseudocode. -/
def Obligations.ReadByteSamples : Prop :=
  ∀ (s t : State) (v : Byte), s.pos = .idle → exec .readByte s = .next t →
    t.responses = s.responses ++ [⟨.ok, .byte v⟩] →
    ∃ es p st, t.trace = s.trace ++ es ∧
      (samplesOf .dat es).map Level.bit = bitIndices.map (byteBit v) ++ [p, st] ∧
      (s.cfg.strict = .strict → p = oddParity v ∧ st = true) ∧
      lineEvents es = [.rel .dat, .rel .clk, .dly s.cfg.tRdRelease, .dly s.cfg.tRdStart, .low .clk]

/-- R83, R111: a read in which any of its waits expires responds BusTimeout with both lines released: the start bit's clock never
low or never high again (step 2), or the clock never low or never high again after the bits `bits` of the ten (steps 3 and 4: eight
data bits, parity, stop). -/
def Obligations.ReadByteTimesOut : Prop :=
  ∀ (s : State) (w rest : List EnvMove), s.Ready w rest → s.cfg.waitPolicy = .bounded → s.cfg.noWrap w →
    let timesOut (es : List Event) : Prop :=
      ∃ t, exec .readByte s = .next t ∧
        Ended s t rest ⟨.busTimeout, .none⟩ ([.rel .dat, .rel .clk, .dly s.cfg.tRdRelease] ++ es) ∧
        t.driveClk = .released ∧ t.driveDat = .released ∧ t.session = s.session
    (answers ([.any] ++ timeoutNeeds s.cfg .clk .low) w = true → timesOut [.smp .clk .high]) ∧
    (answers ([.any] ++ waitNeeds s.cfg .clk .low ++ timeoutNeeds s.cfg .clk .high) w = true →
      timesOut [.smp .clk .low, .smp .clk .low]) ∧
    ∀ bits : List Bool, bits.length < 10 →
      (answers ([.any] ++ pulseNeeds s.cfg ++ [.any] ++ (bits.map (bitNeeds s.cfg)).flatten
          ++ timeoutNeeds s.cfg .clk .low) w = true →
        timesOut ([.smp .clk .low, .smp .clk .high, .dly s.cfg.tRdStart] ++ (bits.map recvBitEvents).flatten
          ++ [.smp .clk .high])) ∧
      ∀ b, answers ([.any] ++ pulseNeeds s.cfg ++ [.any] ++ (bits.map (bitNeeds s.cfg)).flatten
          ++ waitNeeds s.cfg .clk .low ++ [.reads .dat (Level.ofBit b)] ++ timeoutNeeds s.cfg .clk .high) w = true →
        timesOut ([.smp .clk .low, .smp .clk .high, .dly s.cfg.tRdStart] ++ (bits.map recvBitEvents).flatten
          ++ [.smp .clk .low, .smp .dat (Level.ofBit b), .smp .clk .low])

/-- R86: the loopback law: if a peripheral latches the slots of a written byte and sends the latched byte back with its odd
parity and stop 1, then READ_BYTE returns the byte written, in both modes; and the parity slot is the byte's odd parity. -/
def Obligations.Loopback : Prop :=
  ∀ (s : State) (v : Byte) (w₁ w₂ rest : List EnvMove), s.Ready w₁ (w₂ ++ rest) →
    answers (writeNeeds s.cfg) w₁ = true →
    ∃ t es, exec (.writeByte v) s = .next t ∧ t.trace = s.trace ++ es ∧
      ∃ slots, framesOnBus es = [slots] ∧ slots[9]? = some (oddParity v) ∧
        (answers (readNeeds s.cfg (RxFrame.good (byteOfBits ((slots.drop 1).take 8)))) w₂ = true →
          ∃ u, exec .readByte t = .next u ∧ u.pos = .idle ∧ u.env = rest ∧
            u.responses = s.responses ++ [⟨.ok, .none⟩, ⟨.ok, .byte v⟩])

/-! ### Session Protocol -/

/-- R90, R106: INITIALIZE, first or repeated, in either mode, against a peripheral whose replies are accepted. -/
def Obligations.Initialize : Prop :=
  ∀ (s : State) (ack : RxFrame) (replies : List RxFrame) (w rest : List EnvMove), s.Ready w rest →
    replies.length = (initializePlan s.cfg s.session).1.length →
    answers (initializeNeeds s.cfg s.session ack replies) w = true →
    replyAccepted s.cfg ack = true → (∀ x ∈ replies, replyAccepted s.cfg x = true) →
    ∃ t, exec .initializeDevice s = .next t ∧
      Ended s t rest ⟨.ok, .none⟩ (initializeEvents s.cfg s.session ack replies) ∧
      t.driveClk = .drivenLow ∧ t.driveDat = .released ∧
      t.session = { (initializePlan s.cfg s.session).2 with initialized := true }

/-- R91: SELECT_MODE leaves `mode` as it is. -/
def Obligations.SelectMode : Prop :=
  ∀ (s : State) (c : Byte) (m : Mode) (replies : List RxFrame) (w rest : List EnvMove), s.Ready w rest →
    replies.length = (selectPlan s.cfg c m s.session).1.length →
    answers (exchangeNeeds s.cfg replies ++ settleNeeds s.session) w = true →
    (∀ x ∈ replies, replyAccepted s.cfg x = true) →
    ∃ t, exec (.selectMode c m) s = .next t ∧
      Ended s t rest ⟨.ok, .none⟩
        (exchangeEvents s.cfg ((selectPlan s.cfg c m s.session).1.zip replies) ++ settleEvents s.cfg s.session) ∧
      t.driveClk = .drivenLow ∧ t.driveDat = .released ∧
      t.session = (selectPlan s.cfg c m s.session).2 ∧ t.mode = s.mode

/-- R92, R93: the two mode requests are SELECT_MODE with their command byte and target, then the write of `mode`. -/
def Obligations.SetModes : Prop :=
  ∀ (s : State) (m : Mode) (replies : List RxFrame) (w rest : List EnvMove), s.Ready w rest →
    let i : Instr := match m with | .polled => .setPolledMode | .continuous => .setContinuousMode
    let c : Byte := match m with | .polled => s.cfg.cmdSetPolled | .continuous => s.cfg.cmdSetContinuous
    replies.length = (selectPlan s.cfg c m s.session).1.length →
    answers (exchangeNeeds s.cfg replies ++ settleNeeds s.session) w = true →
    (∀ x ∈ replies, replyAccepted s.cfg x = true) →
    ∃ t, exec i s = .next t ∧
      Ended s t rest ⟨.ok, .none⟩
        (exchangeEvents s.cfg ((selectPlan s.cfg c m s.session).1.zip replies) ++ settleEvents s.cfg s.session) ∧
      t.driveClk = .drivenLow ∧ t.driveDat = .released ∧
      t.session = { (selectPlan s.cfg c m s.session).2 with mode := m }

/-- R95, R96: ENABLE_REPORTING and DISABLE_REPORTING: no event and no change if the flag already says so; otherwise one command
exchange, then the flags by the flag policy. -/
def Obligations.EnableAndDisable : Prop :=
  ∀ (s : State) (reply : RxFrame) (w rest : List EnvMove), s.Inv → s.pos = .idle →
    (s.reportingEnabled = true →
      exec .enableReporting s = .next { s with responses := s.responses ++ [⟨.ok, .none⟩] }) ∧
    (s.reportingDisabled = true →
      exec .disableReporting s = .next { s with responses := s.responses ++ [⟨.ok, .none⟩] }) ∧
    (s.env = w ++ rest → answers (exchangeNeeds s.cfg [reply]) w = true → replyAccepted s.cfg reply = true →
      (s.reportingEnabled = false →
        ∃ t, exec .enableReporting s = .next t ∧
          Ended s t rest ⟨.ok, .none⟩ (writeEvents s.cfg s.cfg.cmdEnable ++ readEvents s.cfg reply) ∧
          t.driveClk = .drivenLow ∧ t.driveDat = .released ∧ t.mode = s.mode ∧ t.initialized = s.initialized ∧
          t.reportingEnabled = true ∧
          t.reportingDisabled = (match s.cfg.flagPolicy with | .exclusive => false | .setOnly => s.reportingDisabled)) ∧
      (s.reportingDisabled = false →
        ∃ t, exec .disableReporting s = .next t ∧
          Ended s t rest ⟨.ok, .none⟩ (writeEvents s.cfg s.cfg.cmdDisable ++ readEvents s.cfg reply) ∧
          t.driveClk = .drivenLow ∧ t.driveDat = .released ∧ t.mode = s.mode ∧ t.initialized = s.initialized ∧
          t.reportingDisabled = true ∧
          t.reportingEnabled = (match s.cfg.flagPolicy with | .exclusive => false | .setOnly => s.reportingEnabled)))

/-- R95: ENABLE_REPORTING called twice in succession sends the enable command exactly once. -/
def Obligations.EnableTwiceSendsOnce : Prop :=
  ∀ (s : State) (reply : RxFrame) (w rest : List EnvMove), s.Ready w rest →
    answers (exchangeNeeds s.cfg [reply]) w = true → replyAccepted s.cfg reply = true → s.reportingEnabled = false →
    ∃ t u es, exec .enableReporting s = .next t ∧ exec .enableReporting t = .next u ∧
      u.trace = s.trace ++ es ∧ bytesOnBus es = [.wrote s.cfg.cmdEnable, .read reply.data] ∧
      u.responses = s.responses ++ [⟨.ok, .none⟩, ⟨.ok, .none⟩] ∧ u.env = rest ∧ u.reportingEnabled = true

/-- R94, R97, R98, R99, R100: the four configuration commands: pause, their bytes one exchange each, resume. -/
def Obligations.ConfigurationCommands : Prop :=
  ∀ (s : State) (rate value : Byte) (replies : List RxFrame) (w rest : List EnvMove), s.Ready w rest →
    ∀ x ∈ ([(.setSampleRate rate, [s.cfg.cmdSetSampleRate, rate]), (.setResolution value, [0xE8, value]),
        (.setScaling2to1, [s.cfg.cmdScaling2to1]), (.setScaling1to1, [s.cfg.cmdScaling1to1])] : List (Instr × List Byte)),
    replies.length = (configPlan s.cfg x.2 s.session).1.length →
    answers (exchangeNeeds s.cfg replies) w = true → (∀ r ∈ replies, replyAccepted s.cfg r = true) →
    ∃ t, exec x.1 s = .next t ∧
      Ended s t rest ⟨.ok, .none⟩ (exchangeEvents s.cfg ((configPlan s.cfg x.2 s.session).1.zip replies)) ∧
      t.driveClk = .drivenLow ∧ t.driveDat = .released ∧ t.session = (configPlan s.cfg x.2 s.session).2

/-- R84, R101, R102, R103, R114: POLL_REPORT, its command acknowledged: three report bytes, the status unchanged and the movement
bytes sign-extended by status bits 4 and 5. In strict mode the first of the three frames with a wrong parity bit or a stop bit of 0
ends the request after its re-inhibit with ParityError, else FramingError: no later byte is read and the report is not written (V-E6).
No session field is written in either mode. -/
def Obligations.PollReport : Prop :=
  ∀ (s : State) (ack : RxFrame) (w rest : List EnvMove), s.Ready w rest → replyAccepted s.cfg ack = true →
    (∀ st x y : RxFrame,
      answers (exchangeNeeds s.cfg [ack] ++ readNeeds s.cfg st ++ readNeeds s.cfg x ++ readNeeds s.cfg y) w = true →
      (∀ f ∈ [st, x, y], s.cfg.strict = .strict → f.parity = oddParity f.data ∧ f.stop = true) →
      ∃ t r, exec .pollReport s = .next t ∧
        Ended s t rest ⟨.ok, .report r⟩ (writeEvents s.cfg s.cfg.cmdReadData ++ readEvents s.cfg ack ++ readEvents s.cfg st
          ++ readEvents s.cfg x ++ readEvents s.cfg y) ∧
        t.driveClk = .drivenLow ∧ t.driveDat = .released ∧ t.session = s.session ∧
        r.status = st.data ∧
        r.dx.toInt = (x.data.toNat : Int) - (if st.data.getLsbD 4 then 256 else 0) ∧
        r.dy.toInt = (y.data.toNat : Int) - (if st.data.getLsbD 5 then 256 else 0)) ∧
    ∀ (good : List RxFrame) (bad : RxFrame), s.cfg.strict = .strict → good.length < 3 →
      answers (exchangeNeeds s.cfg [ack] ++ (good.map (readNeeds s.cfg)).flatten ++ readNeeds s.cfg bad) w = true →
      (∀ f ∈ good, f.parity = oddParity f.data ∧ f.stop = true) →
      ¬(bad.parity = oddParity bad.data ∧ bad.stop = true) →
      ∃ t, exec .pollReport s = .next t ∧
        Ended s t rest ⟨if bad.parity = oddParity bad.data then .framingError else .parityError, .none⟩
          (writeEvents s.cfg s.cfg.cmdReadData ++ readEvents s.cfg ack ++ (good.map (readEvents s.cfg)).flatten
            ++ readEvents s.cfg bad) ∧
        t.driveClk = .drivenLow ∧ t.driveDat = .released ∧ t.session = s.session

/-- R102, R103: the sign extension, over every byte: sign 1 gives -256 to -1, sign 0 gives 0 to 255; the decoded report takes
the sign of X from status bit 4 and that of Y from status bit 5, and keeps the status byte unchanged. -/
def Obligations.SignExtension : Prop :=
  (∀ st x y : Byte,
    (decodeReport st x y).dx = sx16 x (st.getLsbD 4) ∧ (decodeReport st x y).dy = sx16 y (st.getLsbD 5) ∧
    (decodeReport st x y).status = st) ∧
  ∀ b : Byte,
    sx16 b true = 0xFF#8 ++ b ∧ sx16 b false = 0x00#8 ++ b ∧
    (sx16 b true).toInt = (b.toNat : Int) - 256 ∧ (sx16 b false).toInt = b.toNat

/-- R107: the table of bus bytes per request, read off the event trace by an analyser: lenient mode, no error, Exclusive
flags, Target guard. -/
def Obligations.SessionTraffic : Prop :=
  ∀ (s : State) (i : Instr) (bytes : List Byte) (enabled disabled : Bool) (replies report : List RxFrame)
    (w rest : List EnvMove), s.Ready w rest →
    s.cfg.strict = .lenient → s.cfg.flagPolicy = .exclusive → s.cfg.reenableGuard = .target →
    trafficRow s.cfg s.session i = some (bytes, enabled, disabled) →
    replies.length = bytes.length → report.length = 3 →
    answers (trafficNeeds s.cfg s.session i replies report) w = true →
    ∃ t es code payload, exec i s = .next t ∧ t.pos = .idle ∧ t.env = rest ∧
      t.responses = s.responses ++ [⟨code, payload⟩] ∧ code = .ok ∧ t.trace = s.trace ++ es ∧
      bytesOnBus es = exchangeBytes (bytes.zip replies) ++ (extraReads i report).map (fun f => .read f.data) ∧
      t.reportingEnabled = enabled ∧ t.reportingDisabled = disabled

/-- R92, R93, C1, C8: the mode round trip: SET_CONTINUOUS_MODE then SET_POLLED_MODE, from Polled with no flag set, ends in
Polled with reporting recorded as disabled. -/
def Obligations.ModeRoundTrip : Prop :=
  ∀ (s : State) (a b c d : RxFrame) (w₁ w₂ rest : List EnvMove), s.Ready w₁ (w₂ ++ rest) →
    s.cfg.flagPolicy = .exclusive → s.cfg.reenableGuard = .target →
    s.mode = .polled → s.reportingEnabled = false → s.reportingDisabled = false →
    answers (exchangeNeeds s.cfg [a, b] ++ settleNeeds s.session) w₁ = true →
    answers (exchangeNeeds s.cfg [c, d] ++ settleNeeds s.session) w₂ = true →
    (∀ x ∈ [a, b, c, d], replyAccepted s.cfg x = true) →
    ∃ t u, exec .setContinuousMode s = .next t ∧ exec .setPolledMode t = .next u ∧
      t.session = ⟨.continuous, s.initialized, true, false⟩ ∧ u.session = ⟨.polled, s.initialized, false, true⟩ ∧
      u.env = rest ∧ u.responses = s.responses ++ [⟨.ok, .none⟩, ⟨.ok, .none⟩]

/-! ### Errors -/

/-- R89 to R101, R111, R112, R114: in strict mode a reply that is not accepted, to any command exchange of any request that has
one, ends the request after the whole frame and the re-inhibit, with the frame's error if it has one, else
UnexpectedAcknowledgment. Nothing after that exchange runs, and the session fields are as the exchanges before it left them: a
completed disable stands, and no flag, `mode` or `initialized` is written by what did not complete. -/
def Obligations.RefusedAcknowledgment : Prop :=
  ∀ (i : Instr) (s : State) (accepted : List RxFrame) (refused : RxFrame) (w rest : List EnvMove), s.Ready w rest →
    s.cfg.strict = .strict → i.commands = true →
    let plan := exchangePlan s.cfg s.session i
    accepted.length < plan.length →
    (∀ x ∈ accepted, replyAccepted s.cfg x = true) → replyAccepted s.cfg refused = false →
    answers (requestNeeds s.cfg i (accepted ++ [refused])) w = true →
    ∃ t, exec i s = .next t ∧
      Ended s t rest ⟨replyError refused, .none⟩
        (requestEvents s.cfg i ((plan.map Prod.fst).zip (accepted ++ [refused]))) ∧
      t.driveClk = .drivenLow ∧ t.driveDat = .released ∧
      (s.session :: plan.map Prod.snd)[accepted.length]? = some t.session

/-- R110, R111: a silent peripheral makes every session request that writes a byte respond BusTimeout at step 5 of its first
write, its session fields as they were. -/
def Obligations.SilentDeviceTimesOut : Prop :=
  ∀ (i : Instr) (s : State) (w rest : List EnvMove), s.Ready w rest →
    s.cfg.waitPolicy = .bounded → s.cfg.noWrap w → i.commands = true →
    (i = .enableReporting → s.reportingEnabled = false) → (i = .disableReporting → s.reportingDisabled = false) →
    answers ((if i = .initializeDevice then [.any] else []) ++ startNeeds ++ timeoutNeeds s.cfg .clk .low) w = true →
    ∃ t, exec i s = .next t ∧
      Ended s t rest ⟨.busTimeout, .none⟩
        ((if i = .initializeDevice then [.rel .dat, .rel .clk, .dly s.cfg.tInitRelease] else [])
          ++ writeStartEvents s.cfg ++ [.smp .clk .high]) ∧
      t.driveClk = .released ∧ t.driveDat = .drivenLow ∧ t.session = s.session

/-- R111: a configuration command in Continuous mode whose disable completes and whose next write times out leaves reporting
disabled: the completed disable stands and no resume runs. -/
def Obligations.CompletedDisableStands : Prop :=
  ∀ (i : Instr) (s : State) (reply : RxFrame) (w rest : List EnvMove), s.Ready w rest →
    s.cfg.waitPolicy = .bounded → s.cfg.noWrap w → s.mode = .continuous → s.reportingDisabled = false →
    (i = .setScaling2to1 ∨ i = .setScaling1to1 ∨ ∃ b, i = .setSampleRate b ∨ i = .setResolution b) →
    answers (exchangeNeeds s.cfg [reply] ++ startNeeds ++ timeoutNeeds s.cfg .clk .low) w = true →
    replyAccepted s.cfg reply = true →
    ∃ t, exec i s = .next t ∧
      Ended s t rest ⟨.busTimeout, .none⟩ (writeEvents s.cfg s.cfg.cmdDisable ++ readEvents s.cfg reply
        ++ writeStartEvents s.cfg ++ [.smp .clk .high]) ∧
      t.driveClk = .released ∧ t.driveDat = .drivenLow ∧ t.mode = s.mode ∧ t.initialized = s.initialized ∧
      t.reportingDisabled = true ∧
      t.reportingEnabled = (match s.cfg.flagPolicy with | .exclusive => false | .setOnly => s.reportingEnabled)

/-- R111: whatever the environment, a request that ends in an error has not made the write that follows the failing exchange:
`mode` and `initialized` are as they were, `frame` and `report` hold no value, `pos` is `Idle`, and the flags are as they were
where the request is ENABLE_REPORTING or DISABLE_REPORTING. -/
def Obligations.ErrorsLeaveWritesUnmade : Prop :=
  ∀ (i : Instr) (s t : State) (r : Response), s.Inv → exec i s = .next t →
    t.responses = s.responses ++ [r] → r.code ≠ .ok →
    t.mode = s.mode ∧ t.initialized = s.initialized ∧ t.frame = none ∧ t.report = none ∧ t.pos = .idle ∧
    ((i = .enableReporting ∨ i = .disableReporting) →
      t.reportingEnabled = s.reportingEnabled ∧ t.reportingDisabled = s.reportingDisabled)

/-! ### Time -/

/-- R71, D7: the elapsed time between two clock readings: their difference with the unbounded clock; with a finite `W_TIME` the
difference modulo `2^W_TIME`, whether or not the clock has wrapped between them. That a reading of a finite clock is the time modulo
`2^W_TIME` is the model's own inference (log 18, DEDUCED): R71 and D7 give only the modular difference of two readings. -/
def Obligations.ElapsedTime : Prop :=
  ∀ (c : Config) (t₀ t₁ : Time), t₀ ≤ t₁ →
    (c.timeWidth = none →
      clockReading c t₁ = t₁ ∧ elapsed c (clockReading c t₀) (clockReading c t₁) = t₁ - t₀) ∧
    ∀ w, c.timeWidth = some w →
      clockReading c t₁ = t₁ % 2 ^ w ∧ elapsed c (clockReading c t₀) (clockReading c t₁) = (t₁ - t₀) % 2 ^ w

/-! ### Hangs -/

/-- R128, R37: under Unbounded every wait of a byte may sample for ever. WRITE_BYTE at step 5, at either wait of any slot `k` of steps 6
to 8, at the acknowledgment; READ_BYTE at either wait of the start bit, and at either wait of the bit after the bits `bits` of the ten:
where the peripheral never brings the awaited level, the engine samples the line once for every placed move and does not respond.
That one step ends where the placed moves are used up is the model's choice (log 3). -/
def Obligations.FramingWaitsHang : Prop :=
  ∀ (s : State) (w never : List EnvMove), s.Ready w never → s.cfg.waitPolicy = .unbounded →
    let hangs (i : Instr) (l : Line) (v : Level) (before : List Event) : Prop :=
      (∀ m ∈ never, devDrive m l = match v with | .low => .released | .high => .low) →
      ∃ t, exec i s = .next t ∧ Hung i s t (before ++ never.map fun _ => .smp l (otherLevel v)) ∧ t.driveClk = .released
    let slots (k : Nat) : List Need :=
      startNeeds ++ waitNeeds s.cfg .clk .low ++ (List.replicate k (pulseNeeds s.cfg)).flatten
    let bitsRead (bits : List Bool) : List Need :=
      [.any] ++ pulseNeeds s.cfg ++ [.any] ++ (bits.map (bitNeeds s.cfg)).flatten
    let readStart : List Event := [.rel .dat, .rel .clk, .dly s.cfg.tRdRelease]
    (∀ v : Byte,
      let written (k : Nat) : List Event := writeStartEvents s.cfg ++ [.smp .clk .low] ++ slotsBefore s.cfg v k
      (answers startNeeds w = true → hangs (.writeByte v) .clk .low (writeStartEvents s.cfg)) ∧
      (∀ k < 10,
        (answers (slots k) w = true → hangs (.writeByte v) .clk .low (written k ++ [slotEvent s.cfg v k])) ∧
        (answers (slots k ++ waitNeeds s.cfg .clk .low) w = true →
          hangs (.writeByte v) .clk .high (written k ++ [slotEvent s.cfg v k, .smp .clk .low]))) ∧
      (answers (slots 10) w = true → hangs (.writeByte v) .dat .low (written 10))) ∧
    (answers [.any] w = true → hangs .readByte .clk .low readStart) ∧
    (answers ([.any] ++ waitNeeds s.cfg .clk .low) w = true → hangs .readByte .clk .high (readStart ++ [.smp .clk .low])) ∧
    ∀ bits : List Bool, bits.length < 10 →
      let received : List Event :=
        readStart ++ [.smp .clk .low, .smp .clk .high, .dly s.cfg.tRdStart] ++ (bits.map recvBitEvents).flatten
      (answers (bitsRead bits) w = true → hangs .readByte .clk .low received) ∧
      ∀ b, answers (bitsRead bits ++ waitNeeds s.cfg .clk .low ++ [.reads .dat (Level.ofBit b)]) w = true →
        hangs .readByte .clk .high (received ++ [.smp .clk .low, .smp .dat (Level.ofBit b)])
end

