-- ==== Sys2Proof/Laws/State.lean ====
section
/-! SUPPORT. One lemma per field and update of the state, so that no proof unfolds a record update. -/

namespace Sys2Proof.Machine

/-! ### emit -/

@[simp] theorem State.emit_clockPin (s : State) (e : Event) : (s.emit e).clockPin = s.clockPin := rfl
@[simp] theorem State.emit_dataPin (s : State) (e : Event) : (s.emit e).dataPin = s.dataPin := rfl
@[simp] theorem State.emit_mode (s : State) (e : Event) : (s.emit e).mode = s.mode := rfl
@[simp] theorem State.emit_initialized (s : State) (e : Event) : (s.emit e).initialized = s.initialized := rfl
@[simp] theorem State.emit_reportingEnabled (s : State) (e : Event) : (s.emit e).reportingEnabled = s.reportingEnabled := rfl
@[simp] theorem State.emit_reportingDisabled (s : State) (e : Event) : (s.emit e).reportingDisabled = s.reportingDisabled := rfl
@[simp] theorem State.emit_driveClk (s : State) (e : Event) : (s.emit e).driveClk = s.driveClk := rfl
@[simp] theorem State.emit_driveDat (s : State) (e : Event) : (s.emit e).driveDat = s.driveDat := rfl
@[simp] theorem State.emit_frame (s : State) (e : Event) : (s.emit e).frame = s.frame := rfl
@[simp] theorem State.emit_report (s : State) (e : Event) : (s.emit e).report = s.report := rfl
@[simp] theorem State.emit_pos (s : State) (e : Event) : (s.emit e).pos = s.pos := rfl
@[simp] theorem State.emit_cfg (s : State) (e : Event) : (s.emit e).cfg = s.cfg := rfl
@[simp] theorem State.emit_devClk (s : State) (e : Event) : (s.emit e).devClk = s.devClk := rfl
@[simp] theorem State.emit_devDat (s : State) (e : Event) : (s.emit e).devDat = s.devDat := rfl
@[simp] theorem State.emit_now (s : State) (e : Event) : (s.emit e).now = s.now := rfl
@[simp] theorem State.emit_env (s : State) (e : Event) : (s.emit e).env = s.env := rfl
@[simp] theorem State.emit_freeMoves (s : State) (e : Event) : (s.emit e).freeMoves = s.freeMoves := rfl
@[simp] theorem State.emit_lags (s : State) (e : Event) : (s.emit e).lags = s.lags := rfl
@[simp] theorem State.emit_freeLags (s : State) (e : Event) : (s.emit e).freeLags = s.freeLags := rfl
@[simp] theorem State.emit_requests (s : State) (e : Event) : (s.emit e).requests = s.requests := rfl
@[simp] theorem State.emit_responses (s : State) (e : Event) : (s.emit e).responses = s.responses := rfl
@[simp] theorem State.emit_trace (s : State) (e : Event) : (s.emit e).trace = s.trace ++ [e] := rfl

/-! ### absorb -/

@[simp] theorem State.absorb_clockPin (s : State) (m : EnvMove) (rest : List EnvMove) : (s.absorb m rest).clockPin = s.clockPin := rfl
@[simp] theorem State.absorb_dataPin (s : State) (m : EnvMove) (rest : List EnvMove) : (s.absorb m rest).dataPin = s.dataPin := rfl
@[simp] theorem State.absorb_mode (s : State) (m : EnvMove) (rest : List EnvMove) : (s.absorb m rest).mode = s.mode := rfl
@[simp] theorem State.absorb_initialized (s : State) (m : EnvMove) (rest : List EnvMove) : (s.absorb m rest).initialized = s.initialized := rfl
@[simp] theorem State.absorb_reportingEnabled (s : State) (m : EnvMove) (rest : List EnvMove) : (s.absorb m rest).reportingEnabled = s.reportingEnabled := rfl
@[simp] theorem State.absorb_reportingDisabled (s : State) (m : EnvMove) (rest : List EnvMove) : (s.absorb m rest).reportingDisabled = s.reportingDisabled := rfl
@[simp] theorem State.absorb_driveClk (s : State) (m : EnvMove) (rest : List EnvMove) : (s.absorb m rest).driveClk = s.driveClk := rfl
@[simp] theorem State.absorb_driveDat (s : State) (m : EnvMove) (rest : List EnvMove) : (s.absorb m rest).driveDat = s.driveDat := rfl
@[simp] theorem State.absorb_frame (s : State) (m : EnvMove) (rest : List EnvMove) : (s.absorb m rest).frame = s.frame := rfl
@[simp] theorem State.absorb_report (s : State) (m : EnvMove) (rest : List EnvMove) : (s.absorb m rest).report = s.report := rfl
@[simp] theorem State.absorb_pos (s : State) (m : EnvMove) (rest : List EnvMove) : (s.absorb m rest).pos = s.pos := rfl
@[simp] theorem State.absorb_cfg (s : State) (m : EnvMove) (rest : List EnvMove) : (s.absorb m rest).cfg = s.cfg := rfl
@[simp] theorem State.absorb_devClk (s : State) (m : EnvMove) (rest : List EnvMove) : (s.absorb m rest).devClk = m.clk := rfl
@[simp] theorem State.absorb_devDat (s : State) (m : EnvMove) (rest : List EnvMove) : (s.absorb m rest).devDat = m.dat := rfl
@[simp] theorem State.absorb_now (s : State) (m : EnvMove) (rest : List EnvMove) : (s.absorb m rest).now = s.now + m.dt := rfl
@[simp] theorem State.absorb_env (s : State) (m : EnvMove) (rest : List EnvMove) : (s.absorb m rest).env = rest := rfl
@[simp] theorem State.absorb_freeMoves (s : State) (m : EnvMove) (rest : List EnvMove) : (s.absorb m rest).freeMoves = s.freeMoves := rfl
@[simp] theorem State.absorb_lags (s : State) (m : EnvMove) (rest : List EnvMove) : (s.absorb m rest).lags = s.lags := rfl
@[simp] theorem State.absorb_freeLags (s : State) (m : EnvMove) (rest : List EnvMove) : (s.absorb m rest).freeLags = s.freeLags := rfl
@[simp] theorem State.absorb_requests (s : State) (m : EnvMove) (rest : List EnvMove) : (s.absorb m rest).requests = s.requests := rfl
@[simp] theorem State.absorb_responses (s : State) (m : EnvMove) (rest : List EnvMove) : (s.absorb m rest).responses = s.responses := rfl
@[simp] theorem State.absorb_trace (s : State) (m : EnvMove) (rest : List EnvMove) : (s.absorb m rest).trace = s.trace := rfl

/-! ### finish -/

@[simp] theorem State.finish_clockPin (s : State) (code : ResponseCode) (p : Payload) : (s.finish code p).clockPin = s.clockPin := rfl
@[simp] theorem State.finish_dataPin (s : State) (code : ResponseCode) (p : Payload) : (s.finish code p).dataPin = s.dataPin := rfl
@[simp] theorem State.finish_mode (s : State) (code : ResponseCode) (p : Payload) : (s.finish code p).mode = s.mode := rfl
@[simp] theorem State.finish_initialized (s : State) (code : ResponseCode) (p : Payload) : (s.finish code p).initialized = s.initialized := rfl
@[simp] theorem State.finish_reportingEnabled (s : State) (code : ResponseCode) (p : Payload) : (s.finish code p).reportingEnabled = s.reportingEnabled := rfl
@[simp] theorem State.finish_reportingDisabled (s : State) (code : ResponseCode) (p : Payload) : (s.finish code p).reportingDisabled = s.reportingDisabled := rfl
@[simp] theorem State.finish_driveClk (s : State) (code : ResponseCode) (p : Payload) : (s.finish code p).driveClk = s.driveClk := rfl
@[simp] theorem State.finish_driveDat (s : State) (code : ResponseCode) (p : Payload) : (s.finish code p).driveDat = s.driveDat := rfl
@[simp] theorem State.finish_frame (s : State) (code : ResponseCode) (p : Payload) : (s.finish code p).frame = none := rfl
@[simp] theorem State.finish_report (s : State) (code : ResponseCode) (p : Payload) : (s.finish code p).report = none := rfl
@[simp] theorem State.finish_pos (s : State) (code : ResponseCode) (p : Payload) : (s.finish code p).pos = .idle := rfl
@[simp] theorem State.finish_cfg (s : State) (code : ResponseCode) (p : Payload) : (s.finish code p).cfg = s.cfg := rfl
@[simp] theorem State.finish_devClk (s : State) (code : ResponseCode) (p : Payload) : (s.finish code p).devClk = s.devClk := rfl
@[simp] theorem State.finish_devDat (s : State) (code : ResponseCode) (p : Payload) : (s.finish code p).devDat = s.devDat := rfl
@[simp] theorem State.finish_now (s : State) (code : ResponseCode) (p : Payload) : (s.finish code p).now = s.now := rfl
@[simp] theorem State.finish_env (s : State) (code : ResponseCode) (p : Payload) : (s.finish code p).env = s.env := rfl
@[simp] theorem State.finish_freeMoves (s : State) (code : ResponseCode) (p : Payload) : (s.finish code p).freeMoves = s.freeMoves := rfl
@[simp] theorem State.finish_lags (s : State) (code : ResponseCode) (p : Payload) : (s.finish code p).lags = s.lags := rfl
@[simp] theorem State.finish_freeLags (s : State) (code : ResponseCode) (p : Payload) : (s.finish code p).freeLags = s.freeLags := rfl
@[simp] theorem State.finish_requests (s : State) (code : ResponseCode) (p : Payload) : (s.finish code p).requests = s.requests := rfl
@[simp] theorem State.finish_responses (s : State) (code : ResponseCode) (p : Payload) : (s.finish code p).responses = s.responses ++ [⟨code, p⟩] := rfl
@[simp] theorem State.finish_trace (s : State) (code : ResponseCode) (p : Payload) : (s.finish code p).trace = s.trace := rfl

/-! ### raise -/

@[simp] theorem State.raise_clockPin (s : State) (code : ResponseCode) : (s.raise code).clockPin = s.clockPin := rfl
@[simp] theorem State.raise_dataPin (s : State) (code : ResponseCode) : (s.raise code).dataPin = s.dataPin := rfl
@[simp] theorem State.raise_mode (s : State) (code : ResponseCode) : (s.raise code).mode = s.mode := rfl
@[simp] theorem State.raise_initialized (s : State) (code : ResponseCode) : (s.raise code).initialized = s.initialized := rfl
@[simp] theorem State.raise_reportingEnabled (s : State) (code : ResponseCode) : (s.raise code).reportingEnabled = s.reportingEnabled := rfl
@[simp] theorem State.raise_reportingDisabled (s : State) (code : ResponseCode) : (s.raise code).reportingDisabled = s.reportingDisabled := rfl
@[simp] theorem State.raise_driveClk (s : State) (code : ResponseCode) : (s.raise code).driveClk = s.driveClk := rfl
@[simp] theorem State.raise_driveDat (s : State) (code : ResponseCode) : (s.raise code).driveDat = s.driveDat := rfl
@[simp] theorem State.raise_frame (s : State) (code : ResponseCode) : (s.raise code).frame = none := rfl
@[simp] theorem State.raise_report (s : State) (code : ResponseCode) : (s.raise code).report = none := rfl
@[simp] theorem State.raise_pos (s : State) (code : ResponseCode) : (s.raise code).pos = .idle := rfl
@[simp] theorem State.raise_cfg (s : State) (code : ResponseCode) : (s.raise code).cfg = s.cfg := rfl
@[simp] theorem State.raise_devClk (s : State) (code : ResponseCode) : (s.raise code).devClk = s.devClk := rfl
@[simp] theorem State.raise_devDat (s : State) (code : ResponseCode) : (s.raise code).devDat = s.devDat := rfl
@[simp] theorem State.raise_now (s : State) (code : ResponseCode) : (s.raise code).now = s.now := rfl
@[simp] theorem State.raise_env (s : State) (code : ResponseCode) : (s.raise code).env = s.env := rfl
@[simp] theorem State.raise_freeMoves (s : State) (code : ResponseCode) : (s.raise code).freeMoves = s.freeMoves := rfl
@[simp] theorem State.raise_lags (s : State) (code : ResponseCode) : (s.raise code).lags = s.lags := rfl
@[simp] theorem State.raise_freeLags (s : State) (code : ResponseCode) : (s.raise code).freeLags = s.freeLags := rfl
@[simp] theorem State.raise_requests (s : State) (code : ResponseCode) : (s.raise code).requests = s.requests := rfl
@[simp] theorem State.raise_responses (s : State) (code : ResponseCode) : (s.raise code).responses = s.responses ++ [⟨code, .none⟩] := rfl
@[simp] theorem State.raise_trace (s : State) (code : ResponseCode) : (s.raise code).trace = s.trace := rfl

/-! ### push -/

@[simp] theorem State.push_clockPin (s : State) (ms : List Micro) : (s.push ms).clockPin = s.clockPin := rfl
@[simp] theorem State.push_dataPin (s : State) (ms : List Micro) : (s.push ms).dataPin = s.dataPin := rfl
@[simp] theorem State.push_mode (s : State) (ms : List Micro) : (s.push ms).mode = s.mode := rfl
@[simp] theorem State.push_initialized (s : State) (ms : List Micro) : (s.push ms).initialized = s.initialized := rfl
@[simp] theorem State.push_reportingEnabled (s : State) (ms : List Micro) : (s.push ms).reportingEnabled = s.reportingEnabled := rfl
@[simp] theorem State.push_reportingDisabled (s : State) (ms : List Micro) : (s.push ms).reportingDisabled = s.reportingDisabled := rfl
@[simp] theorem State.push_driveClk (s : State) (ms : List Micro) : (s.push ms).driveClk = s.driveClk := rfl
@[simp] theorem State.push_driveDat (s : State) (ms : List Micro) : (s.push ms).driveDat = s.driveDat := rfl
@[simp] theorem State.push_frame (s : State) (ms : List Micro) : (s.push ms).frame = s.frame := rfl
@[simp] theorem State.push_report (s : State) (ms : List Micro) : (s.push ms).report = s.report := rfl
@[simp] theorem State.push_cfg (s : State) (ms : List Micro) : (s.push ms).cfg = s.cfg := rfl
@[simp] theorem State.push_devClk (s : State) (ms : List Micro) : (s.push ms).devClk = s.devClk := rfl
@[simp] theorem State.push_devDat (s : State) (ms : List Micro) : (s.push ms).devDat = s.devDat := rfl
@[simp] theorem State.push_now (s : State) (ms : List Micro) : (s.push ms).now = s.now := rfl
@[simp] theorem State.push_env (s : State) (ms : List Micro) : (s.push ms).env = s.env := rfl
@[simp] theorem State.push_freeMoves (s : State) (ms : List Micro) : (s.push ms).freeMoves = s.freeMoves := rfl
@[simp] theorem State.push_lags (s : State) (ms : List Micro) : (s.push ms).lags = s.lags := rfl
@[simp] theorem State.push_freeLags (s : State) (ms : List Micro) : (s.push ms).freeLags = s.freeLags := rfl
@[simp] theorem State.push_requests (s : State) (ms : List Micro) : (s.push ms).requests = s.requests := rfl
@[simp] theorem State.push_responses (s : State) (ms : List Micro) : (s.push ms).responses = s.responses := rfl
@[simp] theorem State.push_trace (s : State) (ms : List Micro) : (s.push ms).trace = s.trace := rfl

/-! ### setDrive -/

@[simp] theorem State.setDrive_clockPin (s : State) (l : Line) (d : Drive) : (s.setDrive l d).clockPin = s.clockPin := rfl
@[simp] theorem State.setDrive_dataPin (s : State) (l : Line) (d : Drive) : (s.setDrive l d).dataPin = s.dataPin := rfl
@[simp] theorem State.setDrive_mode (s : State) (l : Line) (d : Drive) : (s.setDrive l d).mode = s.mode := rfl
@[simp] theorem State.setDrive_initialized (s : State) (l : Line) (d : Drive) : (s.setDrive l d).initialized = s.initialized := rfl
@[simp] theorem State.setDrive_reportingEnabled (s : State) (l : Line) (d : Drive) : (s.setDrive l d).reportingEnabled = s.reportingEnabled := rfl
@[simp] theorem State.setDrive_reportingDisabled (s : State) (l : Line) (d : Drive) : (s.setDrive l d).reportingDisabled = s.reportingDisabled := rfl
@[simp] theorem State.setDrive_frame (s : State) (l : Line) (d : Drive) : (s.setDrive l d).frame = s.frame := rfl
@[simp] theorem State.setDrive_report (s : State) (l : Line) (d : Drive) : (s.setDrive l d).report = s.report := rfl
@[simp] theorem State.setDrive_pos (s : State) (l : Line) (d : Drive) : (s.setDrive l d).pos = s.pos := rfl
@[simp] theorem State.setDrive_cfg (s : State) (l : Line) (d : Drive) : (s.setDrive l d).cfg = s.cfg := rfl
@[simp] theorem State.setDrive_devClk (s : State) (l : Line) (d : Drive) : (s.setDrive l d).devClk = s.devClk := rfl
@[simp] theorem State.setDrive_devDat (s : State) (l : Line) (d : Drive) : (s.setDrive l d).devDat = s.devDat := rfl
@[simp] theorem State.setDrive_now (s : State) (l : Line) (d : Drive) : (s.setDrive l d).now = s.now := rfl
@[simp] theorem State.setDrive_env (s : State) (l : Line) (d : Drive) : (s.setDrive l d).env = s.env := rfl
@[simp] theorem State.setDrive_freeMoves (s : State) (l : Line) (d : Drive) : (s.setDrive l d).freeMoves = s.freeMoves := rfl
@[simp] theorem State.setDrive_lags (s : State) (l : Line) (d : Drive) : (s.setDrive l d).lags = s.lags := rfl
@[simp] theorem State.setDrive_freeLags (s : State) (l : Line) (d : Drive) : (s.setDrive l d).freeLags = s.freeLags := rfl
@[simp] theorem State.setDrive_requests (s : State) (l : Line) (d : Drive) : (s.setDrive l d).requests = s.requests := rfl
@[simp] theorem State.setDrive_responses (s : State) (l : Line) (d : Drive) : (s.setDrive l d).responses = s.responses := rfl
@[simp] theorem State.setDrive_trace (s : State) (l : Line) (d : Drive) : (s.setDrive l d).trace = s.trace := rfl

/-! ### letPass -/

@[simp] theorem State.letPass_clockPin (s : State) : s.letPass.clockPin = s.clockPin := rfl
@[simp] theorem State.letPass_dataPin (s : State) : s.letPass.dataPin = s.dataPin := rfl
@[simp] theorem State.letPass_mode (s : State) : s.letPass.mode = s.mode := rfl
@[simp] theorem State.letPass_initialized (s : State) : s.letPass.initialized = s.initialized := rfl
@[simp] theorem State.letPass_reportingEnabled (s : State) : s.letPass.reportingEnabled = s.reportingEnabled := rfl
@[simp] theorem State.letPass_reportingDisabled (s : State) : s.letPass.reportingDisabled = s.reportingDisabled := rfl
@[simp] theorem State.letPass_driveClk (s : State) : s.letPass.driveClk = s.driveClk := rfl
@[simp] theorem State.letPass_driveDat (s : State) : s.letPass.driveDat = s.driveDat := rfl
@[simp] theorem State.letPass_frame (s : State) : s.letPass.frame = s.frame := rfl
@[simp] theorem State.letPass_report (s : State) : s.letPass.report = s.report := rfl
@[simp] theorem State.letPass_pos (s : State) : s.letPass.pos = s.pos := rfl
@[simp] theorem State.letPass_cfg (s : State) : s.letPass.cfg = s.cfg := rfl
@[simp] theorem State.letPass_devClk (s : State) : s.letPass.devClk = s.devClk := rfl
@[simp] theorem State.letPass_devDat (s : State) : s.letPass.devDat = s.devDat := rfl
@[simp] theorem State.letPass_env (s : State) : s.letPass.env = s.env := rfl
@[simp] theorem State.letPass_freeMoves (s : State) : s.letPass.freeMoves = s.freeMoves := rfl
@[simp] theorem State.letPass_requests (s : State) : s.letPass.requests = s.requests := rfl
@[simp] theorem State.letPass_responses (s : State) : s.letPass.responses = s.responses := rfl
@[simp] theorem State.letPass_trace (s : State) : s.letPass.trace = s.trace := rfl
@[simp] theorem State.letPass_now (s : State) : s.letPass.now = s.now + s.lag := rfl
@[simp] theorem State.letPass_lags (s : State) : s.letPass.lags = s.lags.tail := rfl

/-! ### onLine -/

@[simp] theorem State.onLine_clockPin (s : State) (l : Line) (d : Drive) (e : Event) : (s.onLine l d e).clockPin = s.clockPin := rfl
@[simp] theorem State.onLine_dataPin (s : State) (l : Line) (d : Drive) (e : Event) : (s.onLine l d e).dataPin = s.dataPin := rfl
@[simp] theorem State.onLine_mode (s : State) (l : Line) (d : Drive) (e : Event) : (s.onLine l d e).mode = s.mode := rfl
@[simp] theorem State.onLine_initialized (s : State) (l : Line) (d : Drive) (e : Event) : (s.onLine l d e).initialized = s.initialized := rfl
@[simp] theorem State.onLine_reportingEnabled (s : State) (l : Line) (d : Drive) (e : Event) : (s.onLine l d e).reportingEnabled = s.reportingEnabled := rfl
@[simp] theorem State.onLine_reportingDisabled (s : State) (l : Line) (d : Drive) (e : Event) : (s.onLine l d e).reportingDisabled = s.reportingDisabled := rfl
@[simp] theorem State.onLine_frame (s : State) (l : Line) (d : Drive) (e : Event) : (s.onLine l d e).frame = s.frame := rfl
@[simp] theorem State.onLine_report (s : State) (l : Line) (d : Drive) (e : Event) : (s.onLine l d e).report = s.report := rfl
@[simp] theorem State.onLine_pos (s : State) (l : Line) (d : Drive) (e : Event) : (s.onLine l d e).pos = s.pos := rfl
@[simp] theorem State.onLine_cfg (s : State) (l : Line) (d : Drive) (e : Event) : (s.onLine l d e).cfg = s.cfg := rfl
@[simp] theorem State.onLine_devClk (s : State) (l : Line) (d : Drive) (e : Event) : (s.onLine l d e).devClk = s.devClk := rfl
@[simp] theorem State.onLine_devDat (s : State) (l : Line) (d : Drive) (e : Event) : (s.onLine l d e).devDat = s.devDat := rfl
@[simp] theorem State.onLine_env (s : State) (l : Line) (d : Drive) (e : Event) : (s.onLine l d e).env = s.env := rfl
@[simp] theorem State.onLine_freeMoves (s : State) (l : Line) (d : Drive) (e : Event) : (s.onLine l d e).freeMoves = s.freeMoves := rfl
@[simp] theorem State.onLine_requests (s : State) (l : Line) (d : Drive) (e : Event) : (s.onLine l d e).requests = s.requests := rfl
@[simp] theorem State.onLine_responses (s : State) (l : Line) (d : Drive) (e : Event) : (s.onLine l d e).responses = s.responses := rfl
@[simp] theorem State.onLine_now (s : State) (l : Line) (d : Drive) (e : Event) : (s.onLine l d e).now = s.now + s.lag := rfl
@[simp] theorem State.onLine_trace (s : State) (l : Line) (d : Drive) (e : Event) : (s.onLine l d e).trace = s.trace ++ [e] := rfl

/-! ### setEnabledFlags -/

@[simp] theorem State.setEnabledFlags_clockPin (s : State) : (s.setEnabledFlags).clockPin = s.clockPin := rfl
@[simp] theorem State.setEnabledFlags_dataPin (s : State) : (s.setEnabledFlags).dataPin = s.dataPin := rfl
@[simp] theorem State.setEnabledFlags_mode (s : State) : (s.setEnabledFlags).mode = s.mode := rfl
@[simp] theorem State.setEnabledFlags_initialized (s : State) : (s.setEnabledFlags).initialized = s.initialized := rfl
@[simp] theorem State.setEnabledFlags_driveClk (s : State) : (s.setEnabledFlags).driveClk = s.driveClk := rfl
@[simp] theorem State.setEnabledFlags_driveDat (s : State) : (s.setEnabledFlags).driveDat = s.driveDat := rfl
@[simp] theorem State.setEnabledFlags_frame (s : State) : (s.setEnabledFlags).frame = s.frame := rfl
@[simp] theorem State.setEnabledFlags_report (s : State) : (s.setEnabledFlags).report = s.report := rfl
@[simp] theorem State.setEnabledFlags_pos (s : State) : (s.setEnabledFlags).pos = s.pos := rfl
@[simp] theorem State.setEnabledFlags_cfg (s : State) : (s.setEnabledFlags).cfg = s.cfg := rfl
@[simp] theorem State.setEnabledFlags_devClk (s : State) : (s.setEnabledFlags).devClk = s.devClk := rfl
@[simp] theorem State.setEnabledFlags_devDat (s : State) : (s.setEnabledFlags).devDat = s.devDat := rfl
@[simp] theorem State.setEnabledFlags_now (s : State) : (s.setEnabledFlags).now = s.now := rfl
@[simp] theorem State.setEnabledFlags_env (s : State) : (s.setEnabledFlags).env = s.env := rfl
@[simp] theorem State.setEnabledFlags_freeMoves (s : State) : (s.setEnabledFlags).freeMoves = s.freeMoves := rfl
@[simp] theorem State.setEnabledFlags_lags (s : State) : (s.setEnabledFlags).lags = s.lags := rfl
@[simp] theorem State.setEnabledFlags_freeLags (s : State) : (s.setEnabledFlags).freeLags = s.freeLags := rfl
@[simp] theorem State.setEnabledFlags_requests (s : State) : (s.setEnabledFlags).requests = s.requests := rfl
@[simp] theorem State.setEnabledFlags_responses (s : State) : (s.setEnabledFlags).responses = s.responses := rfl
@[simp] theorem State.setEnabledFlags_trace (s : State) : (s.setEnabledFlags).trace = s.trace := rfl

/-! ### setDisabledFlags -/

@[simp] theorem State.setDisabledFlags_clockPin (s : State) : (s.setDisabledFlags).clockPin = s.clockPin := rfl
@[simp] theorem State.setDisabledFlags_dataPin (s : State) : (s.setDisabledFlags).dataPin = s.dataPin := rfl
@[simp] theorem State.setDisabledFlags_mode (s : State) : (s.setDisabledFlags).mode = s.mode := rfl
@[simp] theorem State.setDisabledFlags_initialized (s : State) : (s.setDisabledFlags).initialized = s.initialized := rfl
@[simp] theorem State.setDisabledFlags_driveClk (s : State) : (s.setDisabledFlags).driveClk = s.driveClk := rfl
@[simp] theorem State.setDisabledFlags_driveDat (s : State) : (s.setDisabledFlags).driveDat = s.driveDat := rfl
@[simp] theorem State.setDisabledFlags_frame (s : State) : (s.setDisabledFlags).frame = s.frame := rfl
@[simp] theorem State.setDisabledFlags_report (s : State) : (s.setDisabledFlags).report = s.report := rfl
@[simp] theorem State.setDisabledFlags_pos (s : State) : (s.setDisabledFlags).pos = s.pos := rfl
@[simp] theorem State.setDisabledFlags_cfg (s : State) : (s.setDisabledFlags).cfg = s.cfg := rfl
@[simp] theorem State.setDisabledFlags_devClk (s : State) : (s.setDisabledFlags).devClk = s.devClk := rfl
@[simp] theorem State.setDisabledFlags_devDat (s : State) : (s.setDisabledFlags).devDat = s.devDat := rfl
@[simp] theorem State.setDisabledFlags_now (s : State) : (s.setDisabledFlags).now = s.now := rfl
@[simp] theorem State.setDisabledFlags_env (s : State) : (s.setDisabledFlags).env = s.env := rfl
@[simp] theorem State.setDisabledFlags_freeMoves (s : State) : (s.setDisabledFlags).freeMoves = s.freeMoves := rfl
@[simp] theorem State.setDisabledFlags_lags (s : State) : (s.setDisabledFlags).lags = s.lags := rfl
@[simp] theorem State.setDisabledFlags_freeLags (s : State) : (s.setDisabledFlags).freeLags = s.freeLags := rfl
@[simp] theorem State.setDisabledFlags_requests (s : State) : (s.setDisabledFlags).requests = s.requests := rfl
@[simp] theorem State.setDisabledFlags_responses (s : State) : (s.setDisabledFlags).responses = s.responses := rfl
@[simp] theorem State.setDisabledFlags_trace (s : State) : (s.setDisabledFlags).trace = s.trace := rfl

/-! ### The fields an update computes -/

@[simp] theorem State.push_pos (s : State) (ms : List Micro) : (s.push ms).pos = s.pos.push ms := rfl

@[simp] theorem Pos.push_idle (ms : List Micro) : Pos.push ms .idle = .idle := rfl

@[simp] theorem Pos.push_busy (ms : List Micro) (req : Instr) (todo : List Micro) :
    Pos.push ms (.busy req todo) = .busy req (ms ++ todo) := rfl

@[simp] theorem State.setDrive_clk_driveClk (s : State) (d : Drive) : (s.setDrive .clk d).driveClk = d := rfl

@[simp] theorem State.setDrive_clk_driveDat (s : State) (d : Drive) : (s.setDrive .clk d).driveDat = s.driveDat := rfl

@[simp] theorem State.setDrive_dat_driveClk (s : State) (d : Drive) : (s.setDrive .dat d).driveClk = s.driveClk := rfl

@[simp] theorem State.setDrive_dat_driveDat (s : State) (d : Drive) : (s.setDrive .dat d).driveDat = d := rfl

@[simp] theorem State.drive_setDrive_self (s : State) (l : Line) (d : Drive) : (s.setDrive l d).drive l = d := by
  cases l <;> rfl

theorem State.drive_setDrive_other (s : State) {k l : Line} (h : k ≠ l) (d : Drive) :
    (s.setDrive l d).drive k = s.drive k := by
  cases k <;> cases l <;> first | rfl | exact absurd rfl h

@[simp] theorem State.drive_emit (s : State) (e : Event) (l : Line) : (s.emit e).drive l = s.drive l := by
  cases l <;> rfl

@[simp] theorem State.drive_absorb (s : State) (m : EnvMove) (rest : List EnvMove) (l : Line) :
    (s.absorb m rest).drive l = s.drive l := by
  cases l <;> rfl

@[simp] theorem State.drive_finish (s : State) (code : ResponseCode) (p : Payload) (l : Line) :
    (s.finish code p).drive l = s.drive l := by
  cases l <;> rfl

@[simp] theorem State.drive_push (s : State) (ms : List Micro) (l : Line) : (s.push ms).drive l = s.drive l := by
  cases l <;> rfl

@[simp] theorem State.drive_clk (s : State) : s.drive .clk = s.driveClk := rfl

@[simp] theorem State.drive_dat (s : State) : s.drive .dat = s.driveDat := rfl

@[simp] theorem State.setEnabledFlags_reportingEnabled (s : State) : s.setEnabledFlags.reportingEnabled = true := rfl

@[simp] theorem State.setEnabledFlags_reportingDisabled (s : State) :
    s.setEnabledFlags.reportingDisabled = otherFlag s.cfg s.reportingDisabled := rfl

@[simp] theorem State.setDisabledFlags_reportingDisabled (s : State) :
    s.setDisabledFlags.reportingDisabled = true := rfl

@[simp] theorem State.setDisabledFlags_reportingEnabled (s : State) :
    s.setDisabledFlags.reportingEnabled = otherFlag s.cfg s.reportingEnabled := rfl

end Sys2Proof.Machine
end

