-- ==== Sys2Proof/Laws/Ops.lean ====
section
/-! SUPPORT. What each shared operation of Machine/Ops.lean can do, said once. -/

namespace Sys2Proof.Machine

/-- R67: a sample either awaits the environment or takes its next move and records one event. -/
theorem State.onSample_cases {s t : State} {l : Line} {k : Level → State → State} (h : s.onSample l k = .moved t) :
    ∃ m rest, s.env = m :: rest ∧
      t = k (s.levelAt l m) ((s.absorb m rest).emit (.smp l (s.levelAt l m))) := by
  unfold State.onSample at h
  split at h
  · cases h
  · next m rest he => exact ⟨m, rest, he, (Tick.moved.inj h).symm⟩

/-- R71: a clock read either awaits the environment or takes its next move and records one event. -/
theorem State.onNow_cases {s t : State} {k : Time → State → State} (h : s.onNow k = .moved t) :
    ∃ m rest, s.env = m :: rest ∧
      t = k (clockReading s.cfg (s.now + m.dt))
        ((s.absorb m rest).emit (.now (clockReading s.cfg (s.now + m.dt)))) := by
  unfold State.onNow at h
  split at h
  · cases h
  · next m rest he => exact ⟨m, rest, he, (Tick.moved.inj h).symm⟩

/-- R71: a delay either awaits the environment or advances time by at least its length and records one event. -/
theorem State.onDelay_cases {s t : State} {n : Time} (h : s.onDelay n = .moved t) :
    ∃ m rest, s.env = m :: rest ∧
      t = { s.absorb m rest with now := s.now + n + m.dt }.emit (.dly n) := by
  unfold State.onDelay at h
  split at h
  · cases h
  · next m rest he => exact ⟨m, rest, he, (Tick.moved.inj h).symm⟩

theorem State.onSample_nil {s : State} (h : s.env = []) (l : Line) (k : Level → State → State) :
    s.onSample l k = .awaiting := by
  simp [State.onSample, h]

theorem State.onSample_cons {s : State} {m : EnvMove} {rest : List EnvMove} (h : s.env = m :: rest) (l : Line)
    (k : Level → State → State) :
    s.onSample l k = .moved (k (s.levelAt l m) ((s.absorb m rest).emit (.smp l (s.levelAt l m)))) := by
  simp [State.onSample, h]

theorem State.onNow_nil {s : State} (h : s.env = []) (k : Time → State → State) : s.onNow k = .awaiting := by
  simp [State.onNow, h]

theorem State.onNow_cons {s : State} {m : EnvMove} {rest : List EnvMove} (h : s.env = m :: rest)
    (k : Time → State → State) :
    s.onNow k = .moved (k (clockReading s.cfg (s.now + m.dt))
      ((s.absorb m rest).emit (.now (clockReading s.cfg (s.now + m.dt))))) := by
  simp [State.onNow, h]

theorem State.onDelay_nil {s : State} (h : s.env = []) (n : Time) : s.onDelay n = .awaiting := by
  simp [State.onDelay, h]

theorem State.onDelay_cons {s : State} {m : EnvMove} {rest : List EnvMove} (h : s.env = m :: rest) (n : Time) :
    s.onDelay n = .moved ({ s.absorb m rest with now := s.now + n + m.dt }.emit (.dly n)) := by
  simp [State.onDelay, h]

/-- No observation faults. -/
theorem State.onSample_ne_fault (s : State) (l : Line) (k : Level → State → State) (f : Fault) :
    s.onSample l k ≠ .fault f := by
  unfold State.onSample; split <;> simp

theorem State.onNow_ne_fault (s : State) (k : Time → State → State) (f : Fault) : s.onNow k ≠ .fault f := by
  unfold State.onNow; split <;> simp

theorem State.onDelay_ne_fault (s : State) (n : Time) (f : Fault) : s.onDelay n ≠ .fault f := by
  unfold State.onDelay; split <;> simp

/-- R71, D7: where the clock cannot have wrapped between them, two readings differ by the time between. -/
theorem elapsed_of_lt {c : Config} {a b : Time} (h : a ≤ b) (hn : ∀ n, c.timeWidth = some n → b - a < 2 ^ n) :
    elapsed c (clockReading c a) (clockReading c b) = b - a := by
  unfold elapsed clockReading
  cases hw : c.timeWidth with
  | none => rfl
  | some n =>
    have hlt := hn n hw
    have key : ∀ a b m : Nat, a ≤ b → 0 < m → b - a < m → (b % m + (m - a % m % m)) % m = b - a := by
      intro a b m h hm hlt
      have ha := Nat.mod_lt a hm
      have hda := Nat.mod_add_div a m
      rw [Nat.mod_mod, Nat.mod_add_mod, show b + (m - a % m) = b - a + m * (a / m + 1) by rw [Nat.mul_add, Nat.mul_one]; omega,
        Nat.add_mul_mod_self_left, Nat.mod_eq_of_lt hlt]
    exact key a b _ h (Nat.two_pow_pos n) hlt

/-- R63: a line the host drives low reads low, whatever the peripheral does. -/
@[simp] theorem resolveLevel_drivenLow (dev : DevDrive) (draw : Level) : resolveLevel .drivenLow dev draw = .low := by
  cases dev <;> rfl

/-- R63: a released line reads low exactly when the peripheral pulls it low. -/
@[simp] theorem resolveLevel_released (dev : DevDrive) (draw : Level) :
    resolveLevel .released dev draw = if dev = .low then .low else .high := by
  cases dev <;> rfl

end Sys2Proof.Machine
end

