-- ==== Sys2Proof/Laws/Micro.lean ====
section
/-! SUPPORT. What each pseudocode step does, one equation per step, so that no proof unfolds the engine's interpreter. -/

namespace Sys2Proof.Machine

variable (s : State)

@[simp] theorem Micro.tick_low (l : Line) : (Micro.low l).tick s = .moved (s.onLine l .drivenLow (.low l)) := rfl

@[simp] theorem Micro.tick_high (l : Line) :
    (Micro.high l).tick s = .moved (s.onLine l .drivenHigh (.high l)) := rfl

@[simp] theorem Micro.tick_rel (l : Line) : (Micro.rel l).tick s = .moved (s.onLine l .released (.rel l)) := rfl

@[simp] theorem Micro.tick_samp (l : Line) :
    (Micro.samp l).tick s = s.onSample l fun v t => t.push [.respond (.level v)] := rfl

@[simp] theorem Micro.tick_delay (d : Delay) : (Micro.delay d).tick s = s.onDelay (s.cfg.delayOf d) := rfl

/-- R73: the loop a transfer wait enters. -/
def waitLoop (c : Config) (l : Line) (v : Level) : Micro :=
  match c.waitPolicy with
  | .unbounded => .poll l v
  | .bounded => .bwait l v c.timeoutUs .transfer

@[simp] theorem Micro.tick_wait (l : Line) (v : Level) :
    (Micro.wait l v).tick s = .moved (s.push [waitLoop s.cfg l v]) := by
  simp only [Micro.tick, stepWait, waitLoop]; split <;> simp_all

@[simp] theorem Micro.tick_poll (l : Line) (v : Level) :
    (Micro.poll l v).tick s = s.onSample l fun x t => if x = v then t else t.push [.poll l v] := rfl

@[simp] theorem Micro.tick_bwait (l : Line) (v : Level) (t : Time) (use : WaitUse) :
    (Micro.bwait l v t use).tick s = s.onNow fun start u => u.push [.bwaitSample l v t start use] := rfl

@[simp] theorem Micro.tick_bwaitSample (l : Line) (v : Level) (t start : Time) (use : WaitUse) :
    (Micro.bwaitSample l v t start use).tick s =
      s.onSample l fun x u => if x = v then waitDone use true u else u.push [.bwaitCheck l v t start use] := rfl

@[simp] theorem Micro.tick_bwaitCheck (l : Line) (v : Level) (t start : Time) (use : WaitUse) :
    (Micro.bwaitCheck l v t start use).tick s = s.onNow fun reading u =>
      if t ≤ elapsed u.cfg start reading then waitDone use false u else u.push [.bwaitSample l v t start use] := rfl

@[simp] theorem Micro.tick_present (b : Bool) : (Micro.present b).tick s = .moved (s.push [presentMicro s.cfg b]) := rfl

@[simp] theorem Micro.tick_sendBit (b : Bool) : (Micro.sendBit b).tick s = .moved (s.push (sendBitBody b)) := rfl

@[simp] theorem Micro.tick_recvBit (dst : BitDst) : (Micro.recvBit dst).tick s = .moved (s.push (recvBitBody dst)) := rfl

@[simp] theorem Micro.tick_sampleBit (dst : BitDst) : (Micro.sampleBit dst).tick s =
    s.onSample .dat fun v t => t.push [.wait .clk .high, .bitReturn dst v.bit] := rfl

@[simp] theorem Micro.tick_bitReturn_result (b : Bool) :
    (Micro.bitReturn .result b).tick s = .moved (s.push [.respond (.bit b)]) := rfl

theorem Micro.tick_bitReturn (dst : BitDst) (b : Bool) : (Micro.bitReturn dst b).tick s = stepBitReturn dst b s := rfl

@[simp] theorem Micro.tick_writeByte (v : Byte) : (Micro.writeByte v).tick s = .moved (s.push (writeByteBody v)) := rfl

@[simp] theorem Micro.tick_openWrite (v : Byte) : (Micro.openWrite v).tick s =
    .moved { s with frame := some { data := v, parity := some true, stop := none, i := 0 } } := rfl

theorem Micro.tick_sendData (i : Fin 8) : (Micro.sendData i).tick s = stepSendData i s := rfl

theorem Micro.tick_accumulate (i : Fin 8) : (Micro.accumulate i).tick s = stepAccumulate i s := rfl

theorem Micro.tick_sendParity : Micro.sendParity.tick s = stepSendParity s := rfl

@[simp] theorem Micro.tick_closeFrame : Micro.closeFrame.tick s = .moved { s with frame := none } := rfl

@[simp] theorem Micro.tick_readByte (dst : ByteDst) :
    (Micro.readByte dst).tick s = .moved (s.push (readByteBody dst)) := rfl

@[simp] theorem Micro.tick_openRead : Micro.openRead.tick s =
    .moved { s with frame := some { data := 0, parity := none, stop := none, i := 0 } } := rfl

theorem Micro.tick_checkFrame : Micro.checkFrame.tick s = stepCheckFrame s := rfl

theorem Micro.tick_byteReturn (dst : ByteDst) : (Micro.byteReturn dst).tick s = stepByteReturn dst s := rfl

@[simp] theorem Micro.tick_sendCmd (c : Byte) : (Micro.sendCmd c).tick s = .moved (s.push (sendCmdBody c)) := rfl

theorem Micro.tick_checkAck (a : Byte) : (Micro.checkAck a).tick s = stepCheckAck a s := rfl

theorem Micro.tick_pause : Micro.pause.tick s = stepPause s := rfl

theorem Micro.tick_resume : Micro.resume.tick s = stepResume s := rfl

theorem Micro.tick_enableReporting : Micro.enableReporting.tick s = stepEnableReporting s := rfl

@[simp] theorem Micro.tick_setEnabled : Micro.setEnabled.tick s = .moved s.setEnabledFlags := rfl

theorem Micro.tick_disableReporting : Micro.disableReporting.tick s = stepDisableReporting s := rfl

@[simp] theorem Micro.tick_setDisabled : Micro.setDisabled.tick s = .moved s.setDisabledFlags := rfl

@[simp] theorem Micro.tick_selectMode (c : Byte) (m : Mode) :
    (Micro.selectMode c m).tick s = .moved (s.push (selectModeBody c m)) := rfl

theorem Micro.tick_reenable (m : Mode) : (Micro.reenable m).tick s = stepReenable m s := rfl

theorem Micro.tick_modeSettle : Micro.modeSettle.tick s = stepModeSettle s := rfl

@[simp] theorem Micro.tick_setPolledMode : Micro.setPolledMode.tick s = .moved (s.push (setPolledModeBody s.cfg)) := rfl

@[simp] theorem Micro.tick_recordMode (m : Mode) : (Micro.recordMode m).tick s = .moved { s with mode := m } := rfl

theorem Micro.tick_initMode : Micro.initMode.tick s = stepInitMode s := rfl

@[simp] theorem Micro.tick_markInitialized : Micro.markInitialized.tick s = .moved { s with initialized := true } := rfl

@[simp] theorem Micro.tick_writeReport (st x y : Byte) : (Micro.writeReport st x y).tick s =
    .moved ({ s with report := some (decodeReport st x y) }.push [.respondReport]) := rfl

theorem Micro.tick_respondReport : Micro.respondReport.tick s = stepRespondReport s := rfl

@[simp] theorem Micro.tick_respond (p : Payload) : (Micro.respond p).tick s = .moved (s.finish .ok p) := rfl

/-! ### The cost of each operation's steps (log 24) -/

@[simp] theorem todoCost_nil : todoCost [] = 0 := rfl

@[simp] theorem todoCost_cons (m : Micro) (todo : List Micro) : todoCost (m :: todo) = m.cost + todoCost todo := by
  simp [todoCost]

@[simp] theorem todoCost_append (a b : List Micro) : todoCost (a ++ b) = todoCost a + todoCost b := by
  simp [todoCost]

theorem presentMicro_cost (c : Config) (b : Bool) : (presentMicro c b).cost = 1 := by
  unfold presentMicro; cases b
  · rfl
  · simp only [if_true]; split <;> rfl

theorem writeByteBody_cost (v : Byte) : todoCost (writeByteBody v) = 166 := by
  simp [writeByteBody, writeStartSteps, writeEndSteps, bitIndices, Micro.cost]

theorem readByteBody_cost (dst : ByteDst) : todoCost (readByteBody dst) + 1 = (Micro.readByte dst).cost := by
  cases dst <;> simp [readByteBody, readStartSteps, readEndSteps, bitIndices, Micro.cost]

theorem byteReturnBody_cost (dst : ByteDst) (v : Byte) :
    todoCost (byteReturnBody dst v) + 1 = (Micro.byteReturn dst).cost := by
  cases dst <;> simp [byteReturnBody, Micro.cost]

/-- Every step that moves uses up its cost or an environment move. -/
theorem Micro.tick_fuel {s t : State} {req : Instr} {m : Micro} {todo : List Micro} (hp : s.pos = .busy req todo)
    (h : m.tick s = .moved t) : t.fuel < 1 + (m.cost + todoCost todo) + s.env.length := by
  cases m with
  | present b => cases h; simp [State.fuel, Pos.backlog, hp, presentMicro_cost]; simp [Micro.cost]
  | readByte dst => cases h; have := readByteBody_cost dst; simp [State.fuel, Pos.backlog, hp]; omega
  | byteReturn dst =>
    simp only [Micro.tick, stepByteReturn] at h
    split at h
    · cases h
    · next f _ => cases h; have := byteReturnBody_cost dst f.data; simp [State.fuel, Pos.backlog, hp]; omega
  | _ =>
    simp only [Micro.tick, stepLow, stepHigh, stepRel, stepSamp, stepDelay, stepWait, stepPoll, stepBwait,
      stepBwaitSample, stepBwaitCheck, stepSendBit, stepRecvBit, stepSampleBit, stepBitReturn,
      stepWriteByte, stepOpenWrite, stepSendData, stepAccumulate, stepSendParity, stepCloseFrame, stepOpenRead,
      stepCheckFrame, stepSendCmd, stepCheckAck, stepPause, stepResume, stepEnableReporting,
      stepSetEnabled, stepDisableReporting, stepSetDisabled, stepSelectMode, stepReenable, stepModeSettle,
      stepSetPolledMode, stepRecordMode, stepInitMode, stepMarkInitialized, stepWriteReport, stepRespondReport,
      stepRespond, State.onSample, State.onNow, State.onDelay, waitDone] at h
    repeat' split at h
    all_goals cases h
    all_goals
      simp [State.fuel, Pos.backlog, Micro.cost, writeByteBody_cost, waitPulseBody, sendBitBody, recvBitBody,
        sendCmdBody, selectModeBody, setPolledModeBody, *] <;> try omega

end Sys2Proof.Machine
end

