-- ==== Sys2Proof/Laws/Engine.lean ====
section
/-! SUPPORT. The engine's run: it goes on until the engine is idle or awaits the environment, and a property that every atomic
step keeps is kept by a request and by a step. -/

namespace Sys2Proof.Machine

/-- R7: one atomic step leads from `s` to `t`. -/
def State.Moves (s t : State) : Prop := s.tick = .moved t

/-- R7: atomic steps lead from `s` to `t`. -/
def State.Reaches : State → State → Prop := Relation.ReflTransGen State.Moves

/-- The engine is idle or awaits the environment. -/
def State.Halted (s : State) : Prop := s.tick = .resting ∨ s.tick = .awaiting

theorem State.Reaches.refl (s : State) : s.Reaches s := Relation.ReflTransGen.refl

theorem State.Reaches.trans {s t u : State} (h : s.Reaches t) (g : t.Reaches u) : s.Reaches u :=
  Relation.ReflTransGen.trans h g

theorem State.Moves.reaches {s t : State} (h : s.tick = .moved t) : s.Reaches t := Relation.ReflTransGen.single h

theorem State.tick_busy {s : State} {req : Instr} {m : Micro} {todo : List Micro} (h : s.pos = .busy req (m :: todo)) :
    s.tick = m.tick { s with pos := .busy req todo } := by
  simp [State.tick, h]

theorem State.tick_done {s : State} {req : Instr} (h : s.pos = .busy req []) :
    s.tick = .moved (s.finish .ok .none) := by
  simp [State.tick, h]

theorem State.tick_idle {s : State} (h : s.pos = .idle) : s.tick = .resting := by
  simp [State.tick, h]

theorem State.halted_of_idle {s : State} (h : s.pos = .idle) : s.Halted := .inl (State.tick_idle h)

/-- Every atomic step uses up fuel (log 24). -/
theorem State.fuel_lt {s t : State} (h : s.tick = .moved t) : t.fuel < s.fuel := by
  unfold State.tick at h
  split at h
  · cases h
  · next hp => cases h; simp [State.fuel, hp, Pos.backlog]
  · next req m todo hp =>
    have := Micro.tick_fuel (s := { s with pos := .busy req todo }) rfl h
    simpa [State.fuel, hp, Pos.backlog] using this

theorem runTicks_of_reaches {s t : State} (h : s.Reaches t) (ht : t.Halted) :
    ∀ n, s.fuel ≤ n → runTicks n s = .next t := by
  induction h using Relation.ReflTransGen.head_induction_on with
  | refl => intro n _; cases n with
    | zero => rfl
    | succ n => rcases ht with ht | ht <;> simp [runTicks, ht]
  | head hm _ ih =>
    intro n hn
    have hlt := State.fuel_lt hm
    cases n with
    | zero => omega
    | succ n =>
      rw [runTicks, show _ = Tick.moved _ from hm]
      exact ih n (by omega)

/-- A run that reaches an idle or awaiting state ends there. -/
theorem State.resume_of_reaches {s t : State} (h : s.Reaches t) (ht : t.Halted) : s.resume = .next t :=
  runTicks_of_reaches h ht _ le_rfl

theorem runTicks_cases : ∀ (n : Nat) (s : State), s.fuel ≤ n →
    (∃ t, runTicks n s = .next t ∧ s.Reaches t ∧ t.Halted) ∨
    (∃ t f, runTicks n s = .fault f ∧ s.Reaches t ∧ t.tick = .fault f)
  | 0, s, hn => by
    refine .inl ⟨s, rfl, .refl s, ?_⟩
    have hp : s.pos.backlog = 0 := by simp [State.fuel] at hn; omega
    cases h : s.pos with
    | idle => exact State.halted_of_idle h
    | busy req todo => simp [h, Pos.backlog] at hp
  | n + 1, s, hn => by
    cases h : s.tick with
    | moved u =>
      have := State.fuel_lt h
      have hr : runTicks (n + 1) s = runTicks n u := by simp [runTicks, h]
      rcases runTicks_cases n u (by omega) with ⟨t, h1, h2, h3⟩ | ⟨t, f, h1, h2, h3⟩
      · exact .inl ⟨t, hr.trans h1, (State.Moves.reaches h).trans h2, h3⟩
      · exact .inr ⟨t, f, hr.trans h1, (State.Moves.reaches h).trans h2, h3⟩
    | awaiting => exact .inl ⟨s, by simp [runTicks, h], .refl s, .inr h⟩
    | resting => exact .inl ⟨s, by simp [runTicks, h], .refl s, .inl h⟩
    | fault f => exact .inr ⟨s, f, by simp [runTicks, h], .refl s, h⟩

/-- Everything a run can answer: the state where the engine is idle or awaits the environment, or a fault of a state it
reaches. -/
theorem State.resume_cases (s : State) :
    (∃ t, s.resume = .next t ∧ s.Reaches t ∧ t.Halted) ∨ (∃ t f, s.resume = .fault f ∧ s.Reaches t ∧ t.tick = .fault f) :=
  runTicks_cases _ s le_rfl

theorem State.resume_next {s t : State} (h : s.resume = .next t) : s.Reaches t ∧ t.Halted := by
  rcases State.resume_cases s with ⟨u, h1, h2, h3⟩ | ⟨u, f, h1, _, _⟩
  · rw [h] at h1; cases h1; exact ⟨h2, h3⟩
  · rw [h] at h1; cases h1

/-- A property every atomic step keeps is kept by a run. -/
theorem State.Reaches.keeps {P : State → Prop} (hP : ∀ a b, P a → a.tick = .moved b → P b) {s t : State}
    (h : s.Reaches t) (hs : P s) : P t := by
  induction h with
  | refl => exact hs
  | tail _ hm ih => exact hP _ _ ih hm

/-- A request either is refused, because the engine is busy, or runs from its first pseudocode step. -/
theorem request_idle {s : State} (h : s.pos = .idle) (i : Instr) (body : List Micro) :
    request i body s = State.resume { s with pos := .busy i body } := by
  simp [request, h]

theorem request_busy {s : State} {req : Instr} {todo : List Micro} (h : s.pos = .busy req todo) (i : Instr)
    (body : List Micro) : request i body s = .refused .requestWhileBusy := by
  simp [request, h]

/-- A request that answers a next state reached it from its first pseudocode step. -/
theorem request_next {s t : State} {i : Instr} {body : List Micro} (h : request i body s = .next t) :
    s.pos = .idle ∧ State.Reaches { s with pos := .busy i body } t ∧ t.Halted := by
  cases hp : s.pos with
  | idle => rw [request_idle hp] at h; exact ⟨rfl, State.resume_next h⟩
  | busy req todo => rw [request_busy hp] at h; cases h

/-- The pseudocode of each request, in a state. -/
def requestBody (i : Instr) (s : State) : List Micro :=
  match i with
  | .initializeDevice => initializeBody s.cfg
  | .pollReport => pollReportBody s.cfg
  | .setPolledMode => setPolledModeBody s.cfg
  | .setContinuousMode => setContinuousModeBody s.cfg
  | .setSampleRate r => configBody [s.cfg.cmdSetSampleRate, r]
  | .setResolution n => configBody [cmdSetResolution, n]
  | .setScaling2to1 => configBody [s.cfg.cmdScaling2to1]
  | .setScaling1to1 => configBody [s.cfg.cmdScaling1to1]
  | .enableReporting => [.enableReporting]
  | .disableReporting => [.disableReporting]
  | .getPins => [.respond (.pins s.clockPin s.dataPin)]
  | .selectMode c m => [.selectMode c m]
  | .writeByte v => [.writeByte v]
  | .readByte => [.readByte .result]
  | .waitClockBounded v t => [.bwait .clk v t .diagnostic]
  | .driveLow l => [.low l]
  | .driveHigh l => [.high l]
  | .release l => [.rel l]
  | .sample l => [.samp l]
  | .sendBit b => [.sendBit b]
  | .recvBit => [.recvBit .result]
  | .waitLevel l v => [.wait l v]

/-- Every meaning runs its request's pseudocode. -/
theorem exec_eq_request (i : Instr) (s : State) : exec i s = request i (requestBody i s) s := by
  cases i <;> rfl

theorem exec_next {s t : State} {i : Instr} (h : exec i s = .next t) :
    s.pos = .idle ∧ State.Reaches { s with pos := .busy i (requestBody i s) } t ∧ t.Halted :=
  request_next (exec_eq_request i s ▸ h)

/-- A run that is over, at `Idle` or awaiting the environment, is what exec answers. -/
theorem exec_of_halted {s t : State} {i : Instr} (hp : s.pos = .idle)
    (h : State.Reaches { s with pos := .busy i (requestBody i s) } t) (ht : t.Halted) : exec i s = .next t := by
  rw [exec_eq_request, request_idle hp]
  exact State.resume_of_reaches h ht

/-- A completed run is what exec answers. -/
theorem exec_of_reaches {s t : State} {i : Instr} (hp : s.pos = .idle)
    (h : State.Reaches { s with pos := .busy i (requestBody i s) } t) (ht : t.pos = .idle) : exec i s = .next t :=
  exec_of_halted hp h (State.halted_of_idle ht)

/-- Everything a step can do: stay idle, answer an illegal word, run a request, or go on with the one in progress. -/
theorem step_cases (s : State) :
    (s.pos = .idle ∧ s.requests = [] ∧ step s = .next s) ∨
    (∃ w rest e, s.pos = .idle ∧ s.requests = w :: rest ∧ decode w = .error e ∧
      step s = answerIllegal { s with requests := rest }) ∨
    (∃ w rest i, s.pos = .idle ∧ s.requests = w :: rest ∧ decode w = .ok i ∧
      step s = exec i { s with requests := rest }) ∨
    (∃ req todo, s.pos = .busy req todo ∧ step s = s.supplyMove.resume) := by
  cases hp : s.pos with
  | busy req todo => exact .inr (.inr (.inr ⟨req, todo, rfl, by simp [step, hp]⟩))
  | idle =>
    cases hr : s.requests with
    | nil => exact .inl ⟨rfl, rfl, by simp [step, hp, fetchAndRun, hr]⟩
    | cons w rest =>
      cases hd : decode w with
      | error e => exact .inr (.inl ⟨w, rest, e, rfl, rfl, hd, by simp [step, hp, fetchAndRun, hr, hd]⟩)
      | ok i => exact .inr (.inr (.inl ⟨w, rest, i, rfl, rfl, hd, by simp [step, hp, fetchAndRun, hr, hd]⟩))

/-- A property that every atomic step keeps, and that taking a request, answering an illegal word and a free environment move
keep, is kept by every step. -/
theorem step_keeps {P : State → Prop} (htick : ∀ a b, P a → a.tick = .moved b → P b)
    (htake : ∀ (a : State) w rest i, P a → a.pos = .idle → a.requests = w :: rest → decode w = .ok i →
      P { a with requests := rest, pos := .busy i (requestBody i a) })
    (hillegal : ∀ (a : State) w rest, P a → a.pos = .idle → a.requests = w :: rest →
      P { a with requests := rest, responses := a.responses ++ [⟨.illegalRequest, .none⟩] })
    (hmove : ∀ a : State, P a → P a.supplyMove) {s t : State} (hs : P s) (h : step s = .next t) : P t := by
  rcases step_cases s with ⟨_, _, he⟩ | ⟨w, rest, e, hp, hr, _, he⟩ | ⟨w, rest, i, hp, hr, hd, he⟩ | ⟨req, todo, _, he⟩
  · rw [he] at h; cases h; exact hs
  · rw [he] at h; cases h; exact hillegal s w rest hs hp hr
  · rw [he] at h
    obtain ⟨_, hreach, _⟩ := exec_next h
    refine hreach.keeps htick ?_
    have := htake s w rest i hs hp hr hd
    cases i <;> exact this
  · rw [he] at h
    exact (State.resume_next h).1.keeps htick (hmove s hs)

end Sys2Proof.Machine
end

