-- ==== Sys2Proof/Laws/Invariant.lean ====
section
/-! SUPPORT. What every atomic step does and keeps, whatever the pseudocode step: the facts a proof about all runs cites, and the
invariant of Sys2Proof/Safety.lean. -/

namespace Sys2Proof.Machine

/-! ### What an atomic step does -/

/-- What every atomic step keeps or does, whatever the pseudocode step. -/
structure Ticked (s t : State) : Prop where
  clockPin : t.clockPin = s.clockPin
  dataPin : t.dataPin = s.dataPin
  cfg : t.cfg = s.cfg
  requests : t.requests = s.requests
  freeMoves : t.freeMoves = s.freeMoves
  initialized : s.initialized = true → t.initialized = true
  some_flag : (s.reportingEnabled || s.reportingDisabled) = true → (t.reportingEnabled || t.reportingDisabled) = true
  env : ∃ used, s.env = used ++ t.env
  trace : ∃ es, t.trace = s.trace ++ es ∧ (∀ l, t.drive l = (lastDrive l es).getD (s.drive l)) ∧
    s.now + delayed es ≤ t.now ∧ (readings es = [] ∨ readings es = [clockReading s.cfg t.now])
  answered : (t.responses = s.responses ∧ ∀ req todo, s.pos = .busy req todo → ∃ todo', t.pos = .busy req todo') ∨
    (∃ r, t.responses = s.responses ++ [r] ∧ (r.code ≠ .ok → r.payload = .none) ∧ t.pos = .idle ∧ t.frame = none ∧ t.report = none)

variable {s t u : State}

theorem Ticked.refl (s : State) : Ticked s s :=
  ⟨rfl, rfl, rfl, rfl, rfl, id, id, ⟨[], rfl⟩, ⟨[], by simp, fun _ => rfl, Nat.le_refl _, .inl rfl⟩,
    .inl ⟨rfl, fun _ todo hp => ⟨todo, hp⟩⟩⟩

theorem Ticked.smp {m : EnvMove} {rest : List EnvMove} (he : s.env = m :: rest) (l : Line) (v : Level) :
    Ticked s ((s.absorb m rest).emit (.smp l v)) :=
  ⟨rfl, rfl, rfl, rfl, rfl, id, id, ⟨[m], he⟩,
    ⟨[.smp l v], rfl, fun _ => rfl, Nat.le_add_right _ _, .inl rfl⟩, .inl ⟨rfl, fun _ todo hp => ⟨todo, hp⟩⟩⟩

theorem Ticked.now {m : EnvMove} {rest : List EnvMove} (he : s.env = m :: rest) :
    Ticked s ((s.absorb m rest).emit (.now (clockReading s.cfg (s.now + m.dt)))) :=
  ⟨rfl, rfl, rfl, rfl, rfl, id, id, ⟨[m], he⟩,
    ⟨[.now _], rfl, fun _ => rfl, Nat.le_add_right _ _, .inr rfl⟩,
    .inl ⟨rfl, fun _ todo hp => ⟨todo, hp⟩⟩⟩

theorem Ticked.dly {m : EnvMove} {rest : List EnvMove} (he : s.env = m :: rest) (n : Time) :
    Ticked s ({ s.absorb m rest with now := s.now + n + m.dt }.emit (.dly n)) :=
  ⟨rfl, rfl, rfl, rfl, rfl, id, id, ⟨[m], he⟩,
    ⟨[.dly n], rfl, fun _ => rfl, by simp [delayed, State.emit], .inl rfl⟩, .inl ⟨rfl, fun _ todo hp => ⟨todo, hp⟩⟩⟩

theorem Ticked.push (h : Ticked s u) (hr : u.responses = s.responses) (body : List Micro) : Ticked s (u.push body) := by
  refine ⟨h.clockPin, h.dataPin, h.cfg, h.requests, h.freeMoves, h.initialized, h.some_flag, h.env, h.trace,
    .inl ⟨hr, fun req todo hp => ?_⟩⟩
  rcases h.answered with ⟨_, hb⟩ | ⟨r, hr', _⟩
  · obtain ⟨todo', hu⟩ := hb req todo hp
    exact ⟨body ++ todo', by simp [State.push, Pos.push, hu]⟩
  · simp [hr] at hr'

theorem Ticked.finish (h : Ticked s u) (hr : u.responses = s.responses) (r : Response) (hc : r.code ≠ .ok → r.payload = .none) :
    Ticked s (u.finish r.code r.payload) :=
  ⟨h.clockPin, h.dataPin, h.cfg, h.requests, h.freeMoves, h.initialized, h.some_flag, h.env, h.trace,
    .inr ⟨r, by simp [State.finish, hr], hc, rfl, rfl, rfl⟩⟩

theorem Ticked.raise (h : Ticked s u) (hr : u.responses = s.responses) (code : ResponseCode) : Ticked s (u.raise code) :=
  h.finish hr ⟨code, .none⟩ fun _ => rfl

/-- A step that writes only the frame, the report or the mode, or sets flags. -/
theorem Ticked.set (h1 : t.clockPin = s.clockPin) (h2 : t.dataPin = s.dataPin) (h3 : t.cfg = s.cfg)
    (h4 : t.requests = s.requests) (h5 : t.freeMoves = s.freeMoves) (h6 : t.env = s.env) (h7 : t.trace = s.trace)
    (h8 : ∀ l, t.drive l = s.drive l) (h9 : t.now = s.now) (h10 : t.responses = s.responses) (h11 : t.pos = s.pos)
    (h12 : s.initialized = true → t.initialized = true)
    (h13 : (s.reportingEnabled || s.reportingDisabled) = true → (t.reportingEnabled || t.reportingDisabled) = true) :
    Ticked s t :=
  ⟨h1, h2, h3, h4, h5, h12, h13, ⟨[], h6.symm⟩, ⟨[], by simp [h7], fun l => h8 l, by simp [delayed, h9], .inl rfl⟩,
    .inl ⟨h10, fun _ todo hp => ⟨todo, h11.trans hp⟩⟩⟩

theorem waitDone_ticked (h : Ticked s u) (hr : u.responses = s.responses) (use : WaitUse) (r : Bool) :
    Ticked s (waitDone use r u) := by
  cases use with
  | diagnostic => exact h.push hr _
  | transfer =>
    cases r
    · exact h.raise hr _
    · exact h

theorem drive_ticked (s : State) (l : Line) (d : Drive) (e : Event) (h : ∀ k, lastDrive k [e] = if l = k then some d else none)
    (hd : delayed [e] = 0) (hn : readings [e] = []) : Ticked s (s.onLine l d e) := by
  refine ⟨rfl, rfl, rfl, rfl, rfl, id, id, ⟨[], rfl⟩, ⟨[e], rfl, fun k => ?_, by rw [hd]; exact Nat.le_add_right _ _, .inl hn⟩,
    .inl ⟨rfl, fun _ todo hp => ⟨todo, hp⟩⟩⟩
  rw [h k]
  cases l <;> cases k <;> rfl

theorem onSample_ticked {l : Line} {k : Level → State → State}
    (hk : ∀ v u, Ticked s u → u.responses = s.responses → Ticked s (k v u)) (h : s.onSample l k = .moved t) : Ticked s t := by
  unfold State.onSample at h
  split at h
  · cases h
  · next m rest he => cases h; exact hk _ _ (.smp he l _) rfl

theorem onNow_ticked {k : Time → State → State}
    (hk : ∀ v u, Ticked s u → u.responses = s.responses → Ticked s (k v u)) (h : s.onNow k = .moved t) : Ticked s t := by
  unfold State.onNow at h
  split at h
  · cases h
  · next m rest he => cases h; exact hk _ _ (.now he) rfl

theorem onDelay_ticked {n : Time} (h : s.onDelay n = .moved t) : Ticked s t := by
  unfold State.onDelay at h
  split at h
  · cases h
  · next m rest he => cases h; exact .dly he n

theorem Micro.tick_facts {m : Micro} (h : m.tick s = .moved t) : Ticked s t := by
  cases m with
  | low l => cases h; exact drive_ticked s l _ _ (fun _ => rfl) rfl rfl
  | high l => cases h; exact drive_ticked s l _ _ (fun _ => rfl) rfl rfl
  | rel l => cases h; exact drive_ticked s l _ _ (fun _ => rfl) rfl rfl
  | samp l => rw [Micro.tick_samp] at h; exact onSample_ticked (fun _ _ hu hr => hu.push hr _) h
  | delay d => exact onDelay_ticked h
  | poll l v =>
    rw [Micro.tick_poll] at h
    refine onSample_ticked (fun x u hu hr => ?_) h
    split
    · exact hu
    · exact hu.push hr _
  | bwait l v t use => rw [Micro.tick_bwait] at h; exact onNow_ticked (fun _ _ hu hr => hu.push hr _) h
  | bwaitSample l v t start use =>
    rw [Micro.tick_bwaitSample] at h
    refine onSample_ticked (fun x u hu hr => ?_) h
    split
    · exact waitDone_ticked hu hr _ _
    · exact hu.push hr _
  | bwaitCheck l v t start use =>
    rw [Micro.tick_bwaitCheck] at h
    refine onNow_ticked (fun x u hu hr => ?_) h
    split
    · exact waitDone_ticked hu hr _ _
    · exact hu.push hr _
  | sampleBit dst => rw [Micro.tick_sampleBit] at h; exact onSample_ticked (fun _ _ hu hr => hu.push hr _) h
  | setEnabled => cases h; exact .set rfl rfl rfl rfl rfl rfl rfl (fun _ => rfl) rfl rfl rfl id (fun _ => rfl)
  | setDisabled =>
    cases h; exact .set rfl rfl rfl rfl rfl rfl rfl (fun _ => rfl) rfl rfl rfl id (fun _ => by simp)
  | markInitialized => cases h; exact .set rfl rfl rfl rfl rfl rfl rfl (fun _ => rfl) rfl rfl rfl (fun _ => rfl) id
  | writeReport st x y =>
    cases h
    refine Ticked.push ?_ ?_ _
    rotate_left
    · rfl
    exact .set rfl rfl rfl rfl rfl rfl rfl (fun _ => rfl) rfl rfl rfl id id
  | respondReport =>
    simp only [Micro.tick, stepRespondReport] at h
    split at h <;> cases h
    exact (Ticked.refl s).finish rfl ⟨.ok, .report _⟩ (by simp)
  | respond p => cases h; exact (Ticked.refl s).finish rfl ⟨.ok, p⟩ (by simp)
  | _ =>
    simp only [Micro.tick, stepWait, stepPresent, stepSendBit, stepRecvBit, stepBitReturn,
      stepWriteByte, stepOpenWrite, stepSendData, stepAccumulate, stepSendParity, stepCloseFrame, stepReadByte, stepOpenRead,
      stepCheckFrame, stepByteReturn, stepSendCmd, stepCheckAck, stepPause, stepResume, stepEnableReporting,
      stepDisableReporting, stepSelectMode, stepReenable, stepModeSettle,
      stepSetPolledMode, stepRecordMode, stepInitMode] at h
    repeat' split at h
    all_goals cases h
    all_goals first
      | exact (Ticked.refl s).push rfl _
      | exact Ticked.refl s
      | exact .set rfl rfl rfl rfl rfl rfl rfl (fun _ => rfl) rfl rfl rfl id id
      | exact (Ticked.refl s).raise rfl _
      | (refine Ticked.push ?_ ?_ _ <;>
          first
            | exact .set rfl rfl rfl rfl rfl rfl rfl (fun _ => rfl) rfl rfl rfl id id
            | rfl)


theorem State.tick_facts {s t : State} (h : s.tick = .moved t) : Ticked s t := by
  unfold State.tick at h
  split at h
  · cases h
  · cases h; exact (Ticked.refl s).finish rfl ⟨.ok, .none⟩ (by simp)
  · next req m todo hp =>
    have hf := Micro.tick_facts h
    exact ⟨hf.clockPin, hf.dataPin, hf.cfg, hf.requests, hf.freeMoves, hf.initialized, hf.some_flag, hf.env, hf.trace,
      hf.answered.imp_left fun ⟨hr, hb⟩ => ⟨hr, fun req' todo' hp' => by
        rw [hp] at hp'; cases hp'; exact hb req todo rfl⟩⟩

/-! ### The invariant -/

theorem commands_reads {i : Instr} (h : i.commands = true) : i.reads = true := by simp [Instr.reads, h]
theorem reads_transfers {i : Instr} (h : i.reads = true) : i.transfers = true := by
  cases i <;> simp_all [Instr.reads, Instr.commands, Instr.transfers]
theorem commands_sends {i : Instr} (h : i.commands = true) : i.sends = true := by
  cases i <;> simp_all [Instr.commands, Instr.sends]
theorem sends_transfers {i : Instr} (h : i.sends = true) : i.transfers = true := by
  cases i <;> simp_all [Instr.sends, Instr.transfers]
theorem writesFlags_commands {i : Instr} (h : i.writesFlags = true) : i.commands = true := by
  cases i <;> simp_all [Instr.writesFlags, Instr.commands]

/-- What is written after several pseudocode steps. -/
def writtenAfterAll : List Micro → Written → Option Written
  | [], w => some w
  | m :: ms, w =>
    match m.writtenAfter w with
    | none => none
    | some w' => writtenAfterAll ms w'

theorem todoOk_append {body todo : List Micro} {w w' : Written} (h : writtenAfterAll body w = some w') :
    todoOk w (body ++ todo) = todoOk w' todo := by
  induction body generalizing w with
  | nil => cases h; rfl
  | cons m ms ih =>
    simp only [writtenAfterAll] at h
    split at h
    · cases h
    · next w₁ hw₁ => simp [todoOk, hw₁, ih h]

theorem todoOk_cons {w : Written} {m : Micro} {todo : List Micro} (h : todoOk w (m :: todo) = true) :
    ∃ w', m.writtenAfter w = some w' ∧ todoOk w' todo = true := by
  simp only [todoOk] at h
  split at h
  · cases h
  · exact ⟨_, by assumption, h⟩

theorem Written.eq_of_noFrame {w : Written} (h : w.noFrame = true) : w = ⟨false, false, false, w.report⟩ := by
  cases w; simp_all [Written.noFrame]

/-- The part of the invariant that speaks of a busy engine. -/
def BusyOk (req : Instr) (u : State) : Prop :=
  ∃ todo, u.pos = .busy req todo ∧ todoOk u.written todo = true ∧ ∀ m ∈ todo, m.fits u.cfg u.mode req = true

theorem busyOk_push {u : State} {req : Instr} {todo body : List Micro} {w' : Written} (hp : u.pos = .busy req todo)
    (ht : todoOk w' todo = true) (h3 : ∀ m ∈ todo, m.fits u.cfg u.mode req = true)
    (h1 : writtenAfterAll body u.written = some w') (h2 : ∀ m ∈ body, m.fits u.cfg u.mode req = true) :
    BusyOk req (u.push body) :=
  ⟨body ++ todo, by simp [State.push, Pos.push, hp], (todoOk_append h1).trans ht,
    fun m hm => (List.mem_append.mp hm).elim (h2 m) (h3 m)⟩

theorem busyOk_pass {u : State} {req : Instr} {todo : List Micro} {w' : Written} (hp : u.pos = .busy req todo)
    (ht : todoOk w' todo = true) (h3 : ∀ m ∈ todo, m.fits u.cfg u.mode req = true) (h1 : some u.written = some w') :
    BusyOk req u :=
  ⟨todo, hp, by cases h1; exact ht, h3⟩

theorem writtenAfterAll_guard {body : List Micro} {w w' : Written} {f : Written → Written}
    (hf : ∀ r, writtenAfterAll body ⟨false, false, false, r⟩ = some (f ⟨false, false, false, r⟩))
    (h : (if w.noFrame then some (f w) else none) = some w') : writtenAfterAll body w = some w' := by
  split at h
  · next hn => rw [Written.eq_of_noFrame hn] at h ⊢; exact (hf _).trans h
  · cases h

theorem of_guard {a w' : Written} {b : Bool} (h : (if b then some a else none) = some w') : some a = some w' := by
  split at h
  · exact h
  · cases h

variable {req : Instr} {m : Micro} {todo : List Micro} {w' : Written}

/-- A sample that moved: the move that answered it. -/
theorem onSample_moved {l : Line} {k : Level → State → State} (h : s.onSample l k = .moved t) :
    ∃ m rest, s.env = m :: rest ∧ t = k (s.levelAt l m) ((s.absorb m rest).emit (.smp l (s.levelAt l m))) := by
  unfold State.onSample at h
  split at h
  · cases h
  · next m rest he => cases h; exact ⟨m, rest, he, rfl⟩

/-- A clock read that moved. -/
theorem onNow_moved {k : Time → State → State} (h : s.onNow k = .moved t) :
    ∃ m rest, s.env = m :: rest ∧ t = k (clockReading s.cfg (s.now + m.dt))
      ((s.absorb m rest).emit (.now (clockReading s.cfg (s.now + m.dt)))) := by
  unfold State.onNow at h
  split at h
  · cases h
  · next m rest he => cases h; exact ⟨m, rest, he, rfl⟩

/-- A delay that moved. -/
theorem onDelay_moved {n : Time} (h : s.onDelay n = .moved t) :
    ∃ m rest, s.env = m :: rest ∧ t = { s.absorb m rest with now := s.now + n + m.dt }.emit (.dly n) := by
  unfold State.onDelay at h
  split at h
  · cases h
  · next m rest he => cases h; exact ⟨m, rest, he, rfl⟩

theorem fits_single {c : Config} {md : Mode} {m : Micro} (h : m.fits c md req = true) :
    ∀ x ∈ [m], x.fits c md req = true := by simpa using h

/-- Only INITIALIZE's steps depend on the mode. -/
theorem fits_mode {c : Config} {md md' : Mode} {m : Micro} (h : m.fits c md req = true)
    (hi : req = .initializeDevice → md = .polled → md' = .polled) : m.fits c md' req = true := by
  cases m
  case recordMode g =>
    simp only [Micro.fits, Bool.or_eq_true, Bool.and_eq_true, decide_eq_true_eq] at h ⊢
    rcases h with (⟨⟨h1, h2⟩, h3⟩ | h) | h
    · exact .inl (.inl ⟨⟨h1, h2⟩, hi h1 h3⟩)
    · exact .inl (.inr h)
    · exact .inr h
  case setPolledMode =>
    simp only [Micro.fits, Bool.and_eq_true, decide_eq_true_eq] at h ⊢
    exact ⟨h.1, hi h.1 h.2⟩
  all_goals exact h

theorem waitDone_busyOk {use : WaitUse} {r : Bool} {u : State} (hp : u.pos = .busy req todo)
    (ht : todoOk w' todo = true) (h3 : ∀ m ∈ todo, m.fits u.cfg u.mode req = true) (h1 : some u.written = some w') :
    ((waitDone use r u).pos = .idle ∧ (waitDone use r u).frame = none ∧ (waitDone use r u).report = none) ∨
      BusyOk req (waitDone use r u) := by
  cases use with
  | diagnostic => exact .inr (busyOk_push hp ht h3 h1 (by simp [Micro.fits]))
  | transfer =>
    cases r with
    | true => exact .inr (busyOk_pass hp ht h3 h1)
    | false => exact .inl ⟨rfl, rfl, rfl⟩

/-- What an atomic step leaves, as the invariant sees it. -/
theorem tick_busyOk
    (hp : s.pos = .busy req todo) (hw : m.writtenAfter s.written = some w') (ht : todoOk w' todo = true)
    (hm : m.fits s.cfg s.mode req = true) (hf : ∀ m ∈ todo, m.fits s.cfg s.mode req = true)
    (h : m.tick s = .moved t) : (t.pos = .idle ∧ t.frame = none ∧ t.report = none) ∨ BusyOk req t := by
  have hcr := @commands_reads req
  have hrt := @reads_transfers req
  have hfc := @writesFlags_commands req
  have hcs := @commands_sends req
  have hst := @sends_transfers req
  cases m with
  | low | high | rel | openWrite | openRead | closeFrame => cases h; exact .inr (busyOk_pass hp ht hf hw)
  | setEnabled | setDisabled | markInitialized => cases h; exact .inr (busyOk_pass hp ht hf (of_guard hw))
  | recordMode m =>
    cases h
    refine .inr (busyOk_pass hp ht (fun x hx => fits_mode (hf x hx) fun hi => ?_) (of_guard hw))
    subst hi
    intro hmd; simp_all [Micro.fits]
  | samp l =>
    rw [Micro.tick_samp] at h
    obtain ⟨m, rest, he, rfl⟩ := onSample_moved h
    exact .inr (busyOk_push hp ht hf hw (by simp [Micro.fits]))
  | poll l v =>
    rw [Micro.tick_poll] at h
    obtain ⟨m, rest, he, rfl⟩ := onSample_moved h
    split
    · exact .inr (busyOk_pass hp ht hf hw)
    · exact .inr (busyOk_push hp ht hf hw (fits_single hm))
  | bwait l v t use =>
    rw [Micro.tick_bwait] at h
    obtain ⟨m, rest, he, rfl⟩ := onNow_moved h
    exact .inr (busyOk_push hp ht hf hw (fits_single hm))
  | bwaitSample l v t start use =>
    rw [Micro.tick_bwaitSample] at h
    obtain ⟨m, rest, he, rfl⟩ := onSample_moved h
    split
    · exact waitDone_busyOk hp ht hf hw
    · exact .inr (busyOk_push hp ht hf hw (fits_single hm))
  | bwaitCheck l v t start use =>
    rw [Micro.tick_bwaitCheck] at h
    obtain ⟨m, rest, he, rfl⟩ := onNow_moved h
    split
    · exact waitDone_busyOk hp ht hf hw
    · exact .inr (busyOk_push hp ht hf hw (fits_single hm))
  | delay d =>
    rw [Micro.tick_delay] at h
    obtain ⟨m, rest, he, rfl⟩ := onDelay_moved h
    exact .inr (busyOk_pass hp ht hf hw)
  | wait l v =>
    rw [Micro.tick_wait] at h; cases h
    refine .inr (busyOk_push hp ht hf ?_ ?_)
    · unfold waitLoop; split <;> exact hw
    · unfold waitLoop; split <;> simp_all [Micro.fits]
  | present b =>
    cases h
    refine .inr (busyOk_push hp ht hf ?_ ?_)
    · unfold presentMicro; cases b <;> cases s.cfg.dataOne <;> exact hw
    · unfold presentMicro; cases b <;> cases hd : s.cfg.dataOne <;> simp_all [Micro.fits]
  | sendBit b =>
    cases h
    exact .inr (busyOk_push hp ht hf hw (by simp only [Micro.fits] at hm; simp [Micro.fits, sendBitBody, waitPulseBody, hm, hst hm]))
  | recvBit dst =>
    cases h
    refine .inr (busyOk_push hp ht hf ?_ (by simpa [Micro.fits, recvBitBody] using hm))
    simp only [recvBitBody, writtenAfterAll]; simp only [Micro.writtenAfter] at hw ⊢; simp only [hw]
  | sampleBit dst =>
    rw [Micro.tick_sampleBit] at h
    obtain ⟨m, rest, he, rfl⟩ := onSample_moved h
    refine .inr (busyOk_push hp ht hf ?_ (by simpa [Micro.fits] using hm))
    change writtenAfterAll _ s.written = _
    simp only [writtenAfterAll]; simp only [Micro.writtenAfter] at hw ⊢; simp only [hw]
  | bitReturn dst b =>
    simp only [Micro.tick, stepBitReturn] at h
    simp only [Micro.writtenAfter] at hw
    cases dst <;> dsimp only at h hw
    · split at h
      · cases h
      · next f hfr => cases h; exact .inr (busyOk_pass hp ht hf (by simpa [State.written, hfr] using hw))
    · split at h
      · cases h
      · next f hfr => cases h; exact .inr (busyOk_pass hp ht hf (by simpa [State.written, hfr] using hw))
    · split at h
      · cases h
      · next f hfr => cases h; exact .inr (busyOk_pass hp ht hf (by simpa [State.written, hfr] using hw))
    · cases h; exact .inr (busyOk_push hp ht hf hw (by simp [Micro.fits]))
  | writeByte v =>
    cases h
    exact .inr (busyOk_push hp ht hf (writtenAfterAll_guard (f := id) (fun _ => rfl) hw)
      (by simp only [Micro.fits] at hm; simp [Micro.fits, writeByteBody, writeStartSteps, writeEndSteps, bitIndices, hm, hst hm]))
  | sendData i =>
    simp only [Micro.tick, stepSendData] at h
    split at h
    · cases h
    · next f hfr =>
      cases h
      refine .inr (busyOk_push hp ht hf ?_ (by simpa [Micro.fits] using hm))
      have he : State.written { s with frame := some { f with i := i } } = s.written := by simp [State.written, hfr]
      rw [he]
      simp only [writtenAfterAll]; simp only [Micro.writtenAfter] at hw ⊢; simp only [hw]
  | accumulate i =>
    simp only [Micro.tick, stepAccumulate] at h
    split at h
    · cases h
    · next f hfr =>
      split at h
      · cases h
      · next p hpr =>
        cases h
        exact .inr (busyOk_pass hp ht hf (by simpa [State.written, Micro.writtenAfter, hfr, hpr] using hw))
  | sendParity =>
    simp only [Micro.tick, stepSendParity] at h
    split at h
    · cases h
    · split at h
      · cases h
      · cases h; exact .inr (busyOk_push hp ht hf (of_guard hw) (fits_single hm))
  | readByte dst =>
    cases h
    refine .inr (busyOk_push hp ht hf (writtenAfterAll_guard (f := fun w => { w with report := w.report || dst.ofReport })
      (fun _ => rfl) hw) ?_)
    simp only [Micro.fits, Bool.and_eq_true] at hm
    simp [Micro.fits, readByteBody, readStartSteps, readEndSteps, bitIndices, hm.1, hrt hm.1]
    simpa using hm.2
  | checkFrame =>
    simp only [Micro.tick, stepCheckFrame] at h
    split at h
    · cases h
    · split at h
      · split at h <;> cases h
        · exact .inr (busyOk_pass hp ht hf (of_guard hw))
        · exact .inl ⟨rfl, rfl, rfl⟩
      · cases h
  | byteReturn dst =>
    simp only [Micro.tick, stepByteReturn] at h
    split at h
    · cases h
    · next f hfr =>
      cases h
      refine .inr (busyOk_push hp ht hf ((?_ : _ = _).trans (of_guard hw)) ?_)
      · cases dst <;> simp [byteReturnBody, writtenAfterAll, Micro.writtenAfter, State.written, Written.noFrame,
          ByteDst.ofReport]
      · simp only [Micro.fits, Bool.and_eq_true] at hm
        cases dst <;> simp_all [Micro.fits, byteReturnBody]
  | sendCmd c =>
    cases h
    refine .inr (busyOk_push hp ht hf (writtenAfterAll_guard (f := id) (fun r => by cases r <;> rfl) hw) ?_)
    simp only [Micro.fits] at hm
    simp [Micro.fits, sendCmdBody, hm, hcs hm, hcr hm]
  | checkAck a =>
    simp only [Micro.tick, stepCheckAck] at h
    split at h <;> cases h
    · exact .inr (busyOk_pass hp ht hf (of_guard hw))
    · exact .inl ⟨rfl, rfl, rfl⟩
  | pause =>
    simp only [Micro.tick, stepPause] at h
    split at h <;> cases h
    · exact .inr (busyOk_pass hp ht hf (of_guard hw))
    · exact .inr (busyOk_push hp ht hf (writtenAfterAll_guard (f := id) (fun _ => rfl) hw) (fits_single hm))
  | resume =>
    simp only [Micro.tick, stepResume] at h
    split at h <;> cases h
    · exact .inr (busyOk_pass hp ht hf (of_guard hw))
    · exact .inr (busyOk_push hp ht hf (writtenAfterAll_guard (f := id) (fun _ => rfl) hw) (fits_single hm))
  | reenable g =>
    simp only [Micro.tick, stepReenable] at h
    split at h <;> cases h
    · exact .inr (busyOk_pass hp ht hf (of_guard hw))
    · exact .inr (busyOk_push hp ht hf (writtenAfterAll_guard (f := id) (fun _ => rfl) hw) (fits_single hm))
  | enableReporting =>
    simp only [Micro.tick, stepEnableReporting] at h
    split at h <;> cases h
    · exact .inr (busyOk_pass hp ht hf (of_guard hw))
    · exact .inr (busyOk_push hp ht hf (writtenAfterAll_guard (f := id) (fun _ => rfl) hw)
        (by simp only [Micro.fits] at hm; simp [Micro.fits, hm, hfc hm]))
  | disableReporting =>
    simp only [Micro.tick, stepDisableReporting] at h
    split at h <;> cases h
    · exact .inr (busyOk_pass hp ht hf (of_guard hw))
    · exact .inr (busyOk_push hp ht hf (writtenAfterAll_guard (f := id) (fun _ => rfl) hw)
        (by simp only [Micro.fits] at hm; simp [Micro.fits, hm, hfc hm]))
  | selectMode c g =>
    cases h
    exact .inr (busyOk_push hp ht hf (writtenAfterAll_guard (f := id) (fun _ => rfl) hw)
        (by simp only [Micro.fits] at hm; simp [Micro.fits, selectModeBody, hm, hfc hm]))
  | modeSettle =>
    simp only [Micro.tick, stepModeSettle] at h
    split at h <;> cases h
    · exact .inr (busyOk_push hp ht hf (writtenAfterAll_guard (f := id) (fun _ => rfl) hw) (by simp [Micro.fits]))
    · exact .inr (busyOk_pass hp ht hf (of_guard hw))
  | setPolledMode =>
    cases h
    refine .inr (busyOk_push hp ht hf (writtenAfterAll_guard (f := id) (fun _ => rfl) hw) ?_)
    simp only [Micro.fits, Bool.and_eq_true, decide_eq_true_eq] at hm
    simp [Micro.fits, setPolledModeBody, hm.1, hm.2, Instr.writesFlags, Instr.commands]
  | initMode =>
    simp only [Micro.tick, stepInitMode] at h
    simp only [Micro.fits, decide_eq_true_eq] at hm
    split at h <;> cases h
    · next hmode =>
      exact .inr (busyOk_push hp ht hf (writtenAfterAll_guard (f := id) (fun _ => rfl) hw) (by simp [Micro.fits, hm, hmode]))
    · exact .inr (busyOk_push hp ht hf (writtenAfterAll_guard (f := id) (fun _ => rfl) hw)
        (by simp [Micro.fits, hm, Instr.writesFlags, Instr.commands]))
  | writeReport st x y =>
    cases h
    refine .inr (busyOk_push hp ht hf ?_ (by simp [Micro.fits]))
    simp only [Micro.writtenAfter] at hw
    exact (of_guard hw) ▸ rfl
  | respondReport =>
    simp only [Micro.tick, stepRespondReport] at h
    split at h <;> cases h
    exact .inl ⟨rfl, rfl, rfl⟩
  | respond p => cases h; exact .inl ⟨rfl, rfl, rfl⟩


/-- R17 to R19: the four pseudocode steps that write the session fields, and no other. -/
theorem Micro.tick_session {s t : State} {m : Micro} (h : m.tick s = .moved t) :
    t.session = s.session ∨
    (m = .setEnabled ∧ t.session = { s.session with enabled := true, disabled := otherFlag s.cfg s.reportingDisabled }) ∨
    (m = .setDisabled ∧ t.session = { s.session with disabled := true, enabled := otherFlag s.cfg s.reportingEnabled }) ∨
    (∃ g, m = .recordMode g ∧ t.session = { s.session with mode := g }) ∨
    (m = .markInitialized ∧ t.session = { s.session with initialized := true }) := by
  cases m with
  | setEnabled => cases h; exact .inr (.inl ⟨rfl, rfl⟩)
  | setDisabled => cases h; exact .inr (.inr (.inl ⟨rfl, rfl⟩))
  | recordMode g => cases h; exact .inr (.inr (.inr (.inl ⟨g, rfl, rfl⟩)))
  | markInitialized => cases h; exact .inr (.inr (.inr (.inr ⟨rfl, rfl⟩)))
  | _ =>
    refine .inl ?_
    simp only [Micro.tick, stepLow, stepHigh, stepRel, stepSamp, stepDelay, stepWait, stepPoll, stepBwait,
      stepBwaitSample, stepBwaitCheck, stepPresent, stepSendBit, stepRecvBit, stepSampleBit, stepBitReturn,
      stepWriteByte, stepOpenWrite, stepSendData, stepAccumulate, stepSendParity, stepCloseFrame, stepReadByte, stepOpenRead,
      stepCheckFrame, stepByteReturn, stepSendCmd, stepCheckAck, stepPause, stepResume, stepEnableReporting,
      stepDisableReporting, stepSelectMode, stepReenable, stepModeSettle, stepSetPolledMode, stepInitMode, stepWriteReport,
      stepRespondReport, stepRespond, State.onSample, State.onNow, State.onDelay, waitDone] at h
    repeat' split at h
    all_goals cases h
    all_goals rfl

/-- R20: no atomic step sets both flags under Exclusive. -/
theorem Micro.tick_flags {s t : State} {m : Micro} (hx : s.cfg.flagPolicy = .exclusive)
    (h : ¬(s.reportingEnabled = true ∧ s.reportingDisabled = true)) (ht : m.tick s = .moved t) :
    ¬(t.reportingEnabled = true ∧ t.reportingDisabled = true) := by
  have he : t.reportingEnabled = t.session.enabled := rfl
  have hd : t.reportingDisabled = t.session.disabled := rfl
  rw [he, hd]
  rcases Micro.tick_session ht with h1 | ⟨_, h1⟩ | ⟨_, h1⟩ | ⟨_, _, h1⟩ | ⟨_, h1⟩ <;> rw [h1]
  · exact h
  · simp [otherFlag, hx]
  · simp [otherFlag, hx]
  · exact h
  · exact h

/-- Every atomic step keeps the invariant. -/
theorem State.tick_inv {s t : State} (hs : s.Inv) (h : s.tick = .moved t) : t.Inv := by
  have hf := State.tick_facts h
  have hpins : t.clockPin ≠ t.dataPin := by rw [hf.clockPin, hf.dataPin]; exact hs.pins
  unfold State.tick at h
  split at h
  · cases h
  · cases h
    exact ⟨hpins, fun _ => ⟨rfl, rfl⟩, nofun, nofun, hs.flags⟩
  · next req m todo hp =>
    obtain ⟨w', hw, ht⟩ := todoOk_cons (hs.busy req _ hp)
    have hall := hs.fits req _ hp
    have hflags : t.cfg.flagPolicy = .exclusive → ¬(t.reportingEnabled = true ∧ t.reportingDisabled = true) := fun hx => by
      rw [hf.cfg] at hx
      exact Micro.tick_flags (s := { s with pos := .busy req todo }) hx (hs.flags hx) h
    rcases tick_busyOk (s := { s with pos := .busy req todo }) rfl hw ht (hall m (by simp))
      (fun x hx => hall x (by simp [hx])) h with ⟨h1, h2, h3⟩ | ⟨todo', h1, h2, h3⟩
    · exact ⟨hpins, fun _ => ⟨h2, h3⟩, by rw [h1]; nofun, by rw [h1]; nofun, hflags⟩
    · refine ⟨hpins, by rw [h1]; nofun, ?_, ?_, hflags⟩ <;>
        · intro r td hr
          rw [h1] at hr
          cases hr
          assumption

/-- R23, R25: a step whose values are written does not fault. -/
theorem Micro.tick_noFault {s : State} {m : Micro} {w' : Written} (hw : m.writtenAfter s.written = some w') (f : Fault) :
    m.tick s ≠ .fault f := by
  intro h
  cases m <;>
    simp only [Micro.tick, stepLow, stepHigh, stepRel, stepSamp, stepDelay, stepWait, stepPoll, stepBwait,
      stepBwaitSample, stepBwaitCheck, stepPresent, stepSendBit, stepRecvBit, stepSampleBit, stepBitReturn,
      stepWriteByte, stepOpenWrite, stepSendData, stepAccumulate, stepSendParity, stepCloseFrame, stepReadByte, stepOpenRead,
      stepCheckFrame, stepByteReturn, stepSendCmd, stepCheckAck, stepPause, stepResume, stepEnableReporting, stepSetEnabled,
      stepDisableReporting, stepSetDisabled, stepSelectMode, stepReenable, stepModeSettle, stepSetPolledMode, stepRecordMode,
      stepInitMode, stepMarkInitialized, stepWriteReport, stepRespondReport, stepRespond, State.onSample, State.onNow,
      State.onDelay, waitDone] at h
  all_goals repeat' split at h
  all_goals first
    | cases h; done
    | (simp_all [Micro.writtenAfter, State.written]; done)
    | skip
  next f' hfr _ _ hno =>
    simp only [Micro.writtenAfter, State.written, hfr, Option.isSome_some, Option.bind_some, Bool.true_and] at hw
    split at hw
    · next hb =>
      rw [Bool.and_eq_true] at hb
      obtain ⟨p, hp⟩ := Option.isSome_iff_exists.mp hb.1
      obtain ⟨st, hst⟩ := Option.isSome_iff_exists.mp hb.2
      exact hno p st hp hst
    · cases hw

/-- R23, R25: an atomic step of a state with the invariant does not fault. -/
theorem State.tick_noFault {s : State} (hs : s.Inv) (f : Fault) : s.tick ≠ .fault f := by
  unfold State.tick
  split
  · nofun
  · nofun
  · next req m todo hp =>
    obtain ⟨w', hw, -⟩ := todoOk_cons (hs.busy req _ hp)
    exact Micro.tick_noFault (s := { s with pos := .busy req todo }) hw f

/-- A request starts in a state with the invariant: its pseudocode fits it and reads nothing before it is written. -/
theorem start_inv {s : State} {rest : List Request} {i : Instr} (h : s.Inv) (hp : s.pos = .idle) :
    State.Inv { s with requests := rest, pos := .busy i (requestBody i s) } := by
  have h0 := h.idle hp
  refine ⟨h.pins, nofun, ?_, ?_, h.flags⟩
  · intro req todo hr
    cases hr
    have hw : State.written { s with requests := rest, pos := .busy i (requestBody i s) } = ⟨false, false, false, false⟩ := by
      simp [State.written, h0.1, h0.2]
    rw [hw]
    cases i <;> rfl
  · intro req todo hr
    cases hr
    cases i <;> simp [requestBody, Micro.fits, initializeBody, pollReportBody, setPolledModeBody, setContinuousModeBody,
      configBody, Instr.transfers, Instr.sends, Instr.commands, Instr.reads, Instr.writesFlags]

/-- Taking a free move keeps the invariant. -/
theorem supply_inv {s : State} (h : s.Inv) : s.supplyMove.Inv := by
  unfold State.supplyMove
  split
  · exact ⟨h.pins, h.idle, h.busy, h.fits, h.flags⟩
  · exact h

/-! ### The parts of a trace -/

theorem lastDrive_append (l : Line) (a b : List Event) : lastDrive l (a ++ b) = (lastDrive l b).or (lastDrive l a) := by
  induction a with
  | nil => simp [lastDrive]
  | cons e es ih =>
    simp only [List.cons_append, lastDrive, ih]
    cases h1 : lastDrive l b <;> cases h2 : lastDrive l es <;> rfl

theorem delayed_append (a b : List Event) : delayed (a ++ b) = delayed a + delayed b := by
  induction a with
  | nil => simp [delayed]
  | cons e es ih => cases e <;> simp [delayed, ih, Nat.add_assoc]

theorem readings_append (a b : List Event) : readings (a ++ b) = readings a ++ readings b := List.filterMap_append ..

theorem lineEvents_append (a b : List Event) : lineEvents (a ++ b) = lineEvents a ++ lineEvents b := List.filter_append ..

theorem samplesOf_append (l : Line) (a b : List Event) : samplesOf l (a ++ b) = samplesOf l a ++ samplesOf l b :=
  List.filterMap_append ..

end Sys2Proof.Machine
end

