-- ==== Sys2Proof/Laws/Steps.lean ====
section
/-! SUPPORT. What one step of the machine can do, from what its atomic steps can do: its responses, the session fields it writes,
the high-drive events it adds, and the run behind it. -/

namespace Sys2Proof.Machine

/-- R17 to R19: the session fields after an atomic step, by the pseudocode step it was. -/
theorem session_tick {s t : State} (h : s.tick = .moved t) (P : State → Prop) (h0 : t.session = s.session → P t)
    (h1 : ∀ req todo, s.pos = .busy req (.setEnabled :: todo) →
      t.session = { s.session with enabled := true, disabled := otherFlag s.cfg s.reportingDisabled } → P t)
    (h2 : ∀ req todo, s.pos = .busy req (.setDisabled :: todo) →
      t.session = { s.session with disabled := true, enabled := otherFlag s.cfg s.reportingEnabled } → P t)
    (h3 : ∀ req todo g, s.pos = .busy req (.recordMode g :: todo) → t.session = { s.session with mode := g } → P t)
    (h4 : ∀ req todo, s.pos = .busy req (.markInitialized :: todo) →
      t.session = { s.session with initialized := true } → P t) : P t := by
  unfold State.tick at h
  split at h
  · cases h
  · cases h; exact h0 rfl
  · next req m todo hp =>
    rcases Micro.tick_session h with g | ⟨rfl, g⟩ | ⟨rfl, g⟩ | ⟨x, rfl, g⟩ | ⟨rfl, g⟩
    · exact h0 g
    · exact h1 _ _ hp g
    · exact h2 _ _ hp g
    · exact h3 _ _ _ hp g
    · exact h4 _ _ hp g

/-- R57: an atomic step leaves no request unaccounted for. -/
theorem accounted_tick {a b : State} (hab : a.tick = .moved b) : b.accounted = a.accounted := by
  have f := State.tick_facts hab
  have hb : ∃ req todo, a.pos = .busy req todo := by
    unfold State.tick at hab; split at hab
    · cases hab
    · exact ⟨_, _, ‹_›⟩
    · exact ⟨_, _, ‹_›⟩
  obtain ⟨req, todo, hp⟩ := hb
  rcases f.answered with ⟨h1, h2⟩ | ⟨r, h1, _, h2, _⟩
  · obtain ⟨todo', h2⟩ := h2 _ _ hp
    simp [State.accounted, f.requests, h1, h2, hp]
  · simp only [State.accounted, f.requests, h1, h2, hp, List.length_append, List.length_singleton]; omega

/-- R57: a run answers at most once, and only at its end. -/
theorem run_answers {s t : State} (h : s.Reaches t) :
    ∃ rs, t.responses = s.responses ++ rs ∧ (t.pos ≠ .idle → rs = []) ∧ rs.length ≤ 1 ∧
      ∀ r ∈ rs, r.code ≠ .ok → r.payload = .none := by
  refine h.keeps (P := fun t => ∃ rs, t.responses = s.responses ++ rs ∧ (t.pos ≠ .idle → rs = []) ∧ rs.length ≤ 1 ∧
    ∀ r ∈ rs, r.code ≠ .ok → r.payload = .none) ?_ ⟨[], by simp, fun _ => rfl, by simp, by simp⟩
  rintro a b ⟨rs, h1, h2, h3, h4⟩ hab
  have f := State.tick_facts hab
  have hb : a.pos ≠ .idle := by
    intro hp; rw [State.tick_idle hp] at hab; cases hab
  cases h2 hb
  rcases f.answered with ⟨g1, g2⟩ | ⟨r, g1, g3, g2, _⟩
  · exact ⟨[], g1.trans h1, fun _ => rfl, h3, h4⟩
  · exact ⟨[r], by rw [g1, h1]; simp, fun h => absurd g2 h, by simp, by simpa using g3⟩

/-- R26: a step from a state with the invariant stays, answers an illegal word, or is the run of the current request from a state
with the invariant. -/
theorem step_run {s t : State} (hs : s.Inv) (h : step s = .next t) (P : State → Prop) (hsame : P s)
    (hill : ∀ w rest e, s.pos = .idle → s.requests = w :: rest → decode w = .error e →
      t = { s with requests := rest, responses := s.responses ++ [⟨.illegalRequest, .none⟩] } → P t)
    (hrun : ∀ (a : State) i todo, s.current = some i → a.Inv → a.pos = .busy i todo → a.session = s.session → a.cfg = s.cfg →
      a.responses = s.responses → a.trace = s.trace → a.Reaches t → P t) : P t := by
  rcases step_cases s with ⟨h0, _, he⟩ | ⟨w, rest, e, hp, hr, hd, he⟩ | ⟨w, rest, i, hp, hr, hd, he⟩ | ⟨req, todo, hp, he⟩
  · rw [he] at h; cases h; exact hsame
  · rw [he] at h; cases h
    exact hill _ _ _ hp hr hd rfl
  · rw [he] at h
    obtain ⟨_, hreach, _⟩ := exec_next h
    have hi : State.Inv { s with requests := rest } := ⟨hs.pins, hs.idle, hs.busy, hs.fits, hs.flags⟩
    exact hrun _ i _ (by simp [State.current, hp, hr, hd]) (start_inv (rest := rest) (i := i) hi hp) rfl rfl rfl rfl rfl
      hreach
  · rw [he] at h
    have hreach := (State.resume_next h).1
    have hi := supply_inv hs
    refine hrun _ req todo (by simp [State.current, hp]) hi ?_ ?_ ?_ ?_ ?_ hreach
    all_goals (unfold State.supplyMove; split <;> first | rfl | exact hp)

/-- The engine is idle or works on the request `i`. -/
def Working (i : Instr) (s : State) : Prop := s.pos = .idle ∨ ∃ todo, s.pos = .busy i todo

/-- R26: an atomic step goes on with the request in progress, or ends it. -/
theorem working_tick {i : Instr} {a b : State} (hab : a.tick = .moved b) (ha : Working i a) : Working i b := by
  rcases ha with ha | ⟨todo, ha⟩
  · rw [State.tick_idle ha] at hab; cases hab
  rcases (State.tick_facts hab).answered with ⟨_, h⟩ | ⟨_, _, _, h, _⟩
  · exact .inr (h _ _ ha)
  · exact .inl h

/-- R109: what a pseudocode step may answer. -/
def Answer (m : Micro) (c : Config) (r : Response) : Prop :=
  match r.code with
  | .ok => True
  | .busTimeout => ∃ l v n st, m = .bwaitCheck l v n st .transfer
  | .unexpectedAcknowledgment => (∃ a, m = .checkAck a) ∧ c.strict = .strict
  | .parityError | .framingError => m = .checkFrame ∧ c.strict = .strict
  | .illegalRequest => False

/-- R84: the errors of a frame. -/
theorem frameError_cases {c : Config} {d : Byte} {p st : Bool} {code : ResponseCode}
    (h : frameError c d p st = some code) :
    c.strict = .strict ∧ (code = .parityError ∨ code = .framingError) := by
  unfold frameError at h
  cases hc : c.strict <;> rw [hc] at h
  · cases h
  · refine ⟨rfl, ?_⟩
    dsimp only at h
    split at h
    · cases h; exact .inl rfl
    · split at h
      · cases h; exact .inr rfl
      · cases h

/-- R109: what an atomic step answers. -/
theorem Micro.tick_answer {s t : State} {m : Micro} (h : m.tick s = .moved t) :
    t.responses = s.responses ∨ ∃ r, t.responses = s.responses ++ [r] ∧ Answer m s.cfg r := by
  cases m with
  | respond p => cases h; exact .inr ⟨_, rfl, trivial⟩
  | respondReport =>
    simp only [Micro.tick, stepRespondReport] at h
    split at h <;> cases h
    exact .inr ⟨_, rfl, trivial⟩
  | bwaitCheck l v n st use =>
    rw [Micro.tick_bwaitCheck] at h
    obtain ⟨x, rest, he, rfl⟩ := onNow_moved h
    split
    · cases use
      · exact .inr ⟨_, rfl, l, v, n, st, rfl⟩
      · exact .inl rfl
    · exact .inl rfl
  | checkFrame =>
    simp only [Micro.tick, stepCheckFrame] at h
    repeat' split at h
    all_goals first | (cases h; done) | skip
    all_goals cases h
    all_goals first | exact .inl rfl | skip
    rename_i hcode
    obtain ⟨hs, hc⟩ := frameError_cases hcode
    refine .inr ⟨_, rfl, ?_⟩
    rcases hc with rfl | rfl <;> exact ⟨rfl, hs⟩
  | checkAck a =>
    simp only [Micro.tick, stepCheckAck] at h
    split at h <;> cases h
    · exact .inl rfl
    · rename_i hn
      refine .inr ⟨_, rfl, ⟨a, rfl⟩, ?_⟩
      unfold ackAccepted at hn
      cases hc : s.cfg.strict <;> simp_all
  | _ =>
    refine .inl ?_
    simp only [Micro.tick, stepLow, stepHigh, stepRel, stepSamp, stepDelay, stepWait, stepPoll, stepBwait,
      stepBwaitSample, stepPresent, stepSendBit, stepRecvBit, stepSampleBit, stepBitReturn,
      stepWriteByte, stepOpenWrite, stepSendData, stepAccumulate, stepSendParity, stepCloseFrame, stepReadByte, stepOpenRead,
      stepByteReturn, stepSendCmd, stepPause, stepResume, stepEnableReporting,
      stepDisableReporting, stepSelectMode, stepReenable, stepModeSettle, stepSetPolledMode, stepInitMode, stepWriteReport,
      stepSetEnabled, stepSetDisabled, stepRecordMode, stepMarkInitialized,
      State.onSample, State.onNow, State.onDelay, waitDone] at h
    repeat' split at h
    all_goals cases h
    all_goals first | rfl | (exfalso; rename_i hx; cases hx)

/-- R65: a HIGH event comes from the step that drives the line high. -/
theorem Micro.tick_high_events {s t : State} {m : Micro} (h : m.tick s = .moved t) :
    ∃ es, t.trace = s.trace ++ es ∧ ∀ l, Event.high l ∈ es → m = .high l := by
  cases m with
  | high l => cases h; exact ⟨[.high l], rfl, by simp⟩
  | low l => cases h; exact ⟨[.low l], rfl, by simp⟩
  | rel l => cases h; exact ⟨[.rel l], rfl, by simp⟩
  | _ =>
    simp only [Micro.tick, stepSamp, stepDelay, stepWait, stepPoll, stepBwait, stepBwaitCheck,
      stepBwaitSample, stepPresent, stepSendBit, stepRecvBit, stepSampleBit, stepBitReturn,
      stepWriteByte, stepOpenWrite, stepSendData, stepAccumulate, stepSendParity, stepCloseFrame, stepReadByte, stepOpenRead,
      stepByteReturn, stepSendCmd, stepPause, stepResume, stepEnableReporting, stepCheckFrame, stepCheckAck,
      stepDisableReporting, stepSelectMode, stepReenable, stepModeSettle, stepSetPolledMode, stepInitMode, stepWriteReport,
      stepSetEnabled, stepSetDisabled, stepRecordMode, stepMarkInitialized, stepRespond, stepRespondReport,
      State.onSample, State.onNow, State.onDelay, waitDone] at h
    repeat' split at h
    all_goals cases h
    all_goals first
      | exact ⟨[], (List.append_nil _).symm, nofun⟩
      | exact ⟨[_], rfl, by simp⟩

/-- Only a busy engine moves. -/
theorem busy_of_tick {a b : State} (hab : a.tick = .moved b) : ∃ req todo, a.pos = .busy req todo := by
  unfold State.tick at hab; split at hab
  · cases hab
  · exact ⟨_, _, ‹_›⟩
  · exact ⟨_, _, ‹_›⟩

/-- R26: a property that the start of a request has and that every pseudocode step fitting it keeps holds of what exec
answers. -/
theorem exec_run {i : Instr} {s t : State} (hs : s.Inv) (h : exec i s = .next t) (P : State → Prop)
    (h0 : P { s with pos := .busy i (requestBody i s) })
    (hP : ∀ x y m todo, x.Inv → x.pos = .busy i (m :: todo) → m.fits x.cfg x.mode i = true → P x →
      m.tick { x with pos := .busy i todo } = .moved y → P y)
    (hd : ∀ x, x.Inv → x.pos = .busy i [] → P x → P (x.finish .ok .none)) : P t := by
  obtain ⟨hp, hr, _⟩ := exec_next h
  refine (hr.keeps (P := fun x => x.Inv ∧ Working i x ∧ P x) ?_ ⟨start_inv (rest := s.requests) hs hp, .inr ⟨_, rfl⟩, h0⟩).2.2
  rintro x y ⟨h1, h2, h3⟩ hxy
  refine ⟨State.tick_inv h1 hxy, working_tick hxy h2, ?_⟩
  obtain ⟨req, td, hp⟩ := busy_of_tick hxy
  have hi : req = i := by
        rcases h2 with h2 | ⟨_, h2⟩ <;> rw [h2] at hp <;> cases hp; rfl
  subst hi
  cases td with
  | nil => rw [State.tick_done hp] at hxy; cases hxy; exact hd x h1 hp h3
  | cons m td =>
    have hf := h1.fits _ _ hp m (by simp)
    rw [State.tick_busy hp] at hxy
    exact hP x y m td h1 hp hf h3 hxy

/-! ### More environment moves -/

/-- More environment moves placed after those that stand. -/
def State.moreEnv (s : State) (b : List EnvMove) : State := { s with env := s.env ++ b }

theorem waitDone_moreEnv (use : WaitUse) (r : Bool) (s : State) (b : List EnvMove) :
    waitDone use r (s.moreEnv b) = (waitDone use r s).moreEnv b := by
  cases use <;> cases r <;> rfl

/-- A step that moves does not look at the moves after those it uses. -/
theorem Micro.tick_moreEnv {m : Micro} {s t : State} (b : List EnvMove) (h : m.tick s = .moved t) :
    m.tick (s.moreEnv b) = .moved (t.moreEnv b) := by
  cases hm : m with
  | bwaitCheck l v t start use =>
    subst hm
    rw [Micro.tick_bwaitCheck] at h ⊢
    obtain ⟨x, rest, he, rfl⟩ := onNow_moved h
    rw [State.onNow_cons (s := s.moreEnv b) (m := x) (rest := rest ++ b) (by simp [State.moreEnv, he])]
    split <;> rename_i hn
    · rw [if_pos (by exact hn)]; cases use <;> rfl
    · rw [if_neg (by exact hn)]; rfl
  | _ =>
    subst hm
    simp only [Micro.tick, stepLow, stepHigh, stepRel, stepSamp, stepDelay, stepWait, stepPoll, stepBwait,
      stepBwaitSample, stepPresent, stepSendBit, stepRecvBit, stepSampleBit, stepBitReturn,
      stepWriteByte, stepOpenWrite, stepSendData, stepAccumulate, stepSendParity, stepCloseFrame, stepReadByte, stepOpenRead,
      stepCheckFrame, stepByteReturn, stepSendCmd, stepCheckAck, stepPause, stepResume, stepEnableReporting,
      stepDisableReporting, stepSelectMode, stepReenable, stepModeSettle, stepSetPolledMode, stepInitMode, stepWriteReport,
      stepSetEnabled, stepSetDisabled, stepRecordMode, stepMarkInitialized,
      stepRespondReport, stepRespond, State.onSample, State.onNow, State.onDelay, waitDone, reenableMode] at h ⊢
    repeat' split at h
    all_goals first
      | (cases h; done)
      | skip
    all_goals cases h
    all_goals first
      | rfl
      | (simp [State.moreEnv, State.push, State.raise, State.finish, State.levelAt, State.drive, State.absorb, State.emit, *]
         done)
      | simp_all [State.moreEnv, State.push, State.levelAt, State.drive, State.absorb, State.emit]

theorem State.tick_moreEnv {s t : State} (b : List EnvMove) (h : s.tick = .moved t) :
    (s.moreEnv b).tick = .moved (t.moreEnv b) := by
  unfold State.tick at h ⊢
  cases hp : s.pos with
  | idle => rw [hp] at h; cases h
  | busy req todo =>
    rw [hp] at h
    simp only [State.moreEnv, hp]
    cases todo with
    | nil => cases h; rfl
    | cons m todo => exact Micro.tick_moreEnv b h

theorem State.Reaches.moreEnv {s t : State} (b : List EnvMove) (h : s.Reaches t) : (s.moreEnv b).Reaches (t.moreEnv b) := by
  induction h with
  | refl => exact .refl _
  | tail _ hm ih => exact ih.trans (State.Moves.reaches (State.tick_moreEnv b hm))

theorem State.idle_of_fuel {s : State} (h : s.fuel = 0) : s.pos = .idle := by
  cases hp : s.pos with
  | idle => rfl
  | busy req todo => simp [State.fuel, hp, Pos.backlog] at h

/-- log 24: fuel beyond the bound changes nothing. -/
theorem runTicks_stable : ∀ (n m : Nat) (s : State), s.fuel ≤ n → s.fuel ≤ m → runTicks n s = runTicks m s
  | 0, m, s, hn, _ => by
    have ht := State.tick_idle (State.idle_of_fuel (Nat.le_zero.mp hn))
    cases m <;> simp [runTicks, ht]
  | n + 1, 0, s, _, hm => by
    have ht := State.tick_idle (State.idle_of_fuel (Nat.le_zero.mp hm))
    simp [runTicks, ht]
  | n + 1, m + 1, s, hn, hm => by
    cases ht : s.tick with
    | moved u =>
      have hlt := State.fuel_lt ht
      simp only [runTicks, ht]
      exact runTicks_stable n m u (by omega) (by omega)
    | _ => simp [runTicks, ht]

/-- The run of a state is the run of every state it reaches. -/
theorem State.Reaches.resume_eq {s t : State} (h : s.Reaches t) : s.resume = t.resume := by
  induction h with
  | refl => rfl
  | tail _ hm ih =>
    rename_i a c _
    rw [ih, State.resume, State.resume]
    have hlt := State.fuel_lt hm
    obtain ⟨k, hk⟩ : ∃ k, State.fuel a = k + 1 := ⟨a.fuel - 1, by omega⟩
    rw [hk, runTicks, show a.tick = .moved c from hm]
    exact runTicks_stable _ _ _ (by omega) le_rfl

theorem Micro.tick_awaits {m : Micro} {s : State} (h : m.tick s = .awaiting) : s.env = [] := by
  cases hm : m <;> subst hm <;>
    simp only [Micro.tick, stepLow, stepHigh, stepRel, stepSamp, stepDelay, stepWait, stepPoll, stepBwait,
      stepBwaitSample, stepBwaitCheck, stepPresent, stepSendBit, stepRecvBit, stepSampleBit, stepBitReturn,
      stepWriteByte, stepOpenWrite, stepSendData, stepAccumulate, stepSendParity, stepCloseFrame, stepReadByte, stepOpenRead,
      stepCheckFrame, stepByteReturn, stepSendCmd, stepCheckAck, stepPause, stepResume, stepEnableReporting,
      stepDisableReporting, stepSelectMode, stepReenable, stepModeSettle, stepSetPolledMode, stepInitMode, stepWriteReport,
      stepSetEnabled, stepSetDisabled, stepRecordMode, stepMarkInitialized,
      stepRespondReport, stepRespond, State.onSample, State.onNow, State.onDelay] at h
  all_goals repeat' split at h
  all_goals first
    | (cases h; done)
    | assumption

/-- A run ends at Idle or with no placed move left. -/
theorem State.Halted.idle_or_env {s : State} (h : s.Halted) : s.pos = .idle ∨ s.env = [] := by
  unfold State.Halted State.tick at h
  split at h
  · exact .inl ‹_›
  · rcases h with h | h <;> cases h
  · next req m todo hp =>
    rcases h with h | h
    · exfalso
      cases hm : m <;> subst hm <;>
        simp only [Micro.tick, stepLow, stepHigh, stepRel, stepSamp, stepDelay, stepWait, stepPoll, stepBwait,
          stepBwaitSample, stepBwaitCheck, stepPresent, stepSendBit, stepRecvBit, stepSampleBit, stepBitReturn,
          stepWriteByte, stepOpenWrite, stepSendData, stepAccumulate, stepSendParity, stepCloseFrame, stepReadByte, stepOpenRead,
          stepCheckFrame, stepByteReturn, stepSendCmd, stepCheckAck, stepPause, stepResume, stepEnableReporting,
          stepDisableReporting, stepSelectMode, stepReenable, stepModeSettle, stepSetPolledMode, stepInitMode, stepWriteReport,
          stepSetEnabled, stepSetDisabled, stepRecordMode, stepMarkInitialized,
          stepRespondReport, stepRespond, State.onSample, State.onNow, State.onDelay] at h
      all_goals repeat' split at h
      all_goals cases h
    · exact .inr (Micro.tick_awaits (s := { s with pos := .busy req todo }) h)

end Sys2Proof.Machine
end

