-- ==== Sys2Proof/Laws/Bounded.lean ====
section
/-! SUPPORT. How many environment moves a request can use under the Bounded policy where every move takes at least a microsecond
(spec/41_bit_transfer.md R72, spec/70_reset_and_hazards.md R128). -/

namespace Sys2Proof.Machine

/-- What is left of a timeout `t` that started at `start`. -/
def timeLeft (t start now : Nat) : Nat := t + start - now

theorem timeLeft_start (t now : Nat) : timeLeft t now now = t := by simp [timeLeft]

theorem timeLeft_antitone (t start : Nat) {a b : Nat} (h : a ≤ b) : timeLeft t start b ≤ timeLeft t start a :=
  Nat.sub_le_sub_left h _

/-- A deadline check that does not expire has used time. -/
theorem timeLeft_check {t start now dt : Nat} (hd : 1 ≤ dt) (h : now + dt - start < t) :
    timeLeft t start (now + dt) + 1 ≤ timeLeft t start now := by
  unfold timeLeft; omega

/-- The moves a transfer wait can use when no timeout is longer than `n`. -/
def waitMoves (n : Nat) : Nat := 2 * n + 3

/-- The moves a pseudocode step can use at time `now` when no transfer timeout is longer than `n`. -/
def Micro.moves (n now : Nat) : Micro → Nat
  | .low _ | .high _ | .rel _ | .present _ | .openWrite _ | .accumulate _ | .closeFrame | .openRead | .checkFrame
  | .checkAck _ | .setEnabled | .setDisabled | .recordMode _ | .markInitialized | .respondReport | .respond _
  | .bitReturn _ _ | .writeReport _ _ _ | .poll _ _ => 0
  | .samp _ | .delay _ | .modeSettle => 1
  | .wait _ _ => waitMoves n
  | .bwait _ _ t _ => waitMoves t
  | .bwaitSample _ _ t start _ => 2 * timeLeft t start now + 2
  | .bwaitCheck _ _ t start _ => 2 * timeLeft t start now + 1
  | .sendBit _ | .sendData _ | .sendParity => 2 * waitMoves n
  | .recvBit _ => 2 * waitMoves n + 1
  | .sampleBit _ => waitMoves n + 1
  | .writeByte _ => 22 * waitMoves n + 3
  | .byteReturn .ack | .byteReturn .result | .byteReturn (.moveY _ _) => 0
  | .byteReturn (.moveX _) => 22 * waitMoves n + 12
  | .byteReturn .status => 44 * waitMoves n + 24
  | .readByte .ack | .readByte .result | .readByte (.moveY _ _) => 22 * waitMoves n + 12
  | .readByte (.moveX _) => 44 * waitMoves n + 24
  | .readByte .status => 66 * waitMoves n + 36
  | .sendCmd _ | .enableReporting | .disableReporting | .pause | .resume | .reenable _ => 44 * waitMoves n + 15
  | .selectMode _ _ | .setPolledMode | .initMode => 132 * waitMoves n + 46

/-- The moves the steps still to do can use. -/
def todoMoves (n now : Nat) (todo : List Micro) : Nat := (todo.map (Micro.moves n now)).sum

@[simp] theorem todoMoves_nil (n now : Nat) : todoMoves n now [] = 0 := rfl

@[simp] theorem todoMoves_cons (n now : Nat) (m : Micro) (todo : List Micro) :
    todoMoves n now (m :: todo) = m.moves n now + todoMoves n now todo := by
  simp [todoMoves]

@[simp] theorem todoMoves_append (n now : Nat) (a b : List Micro) :
    todoMoves n now (a ++ b) = todoMoves n now a + todoMoves n now b := by
  simp [todoMoves]

/-- The moves the request in progress can still use. -/
def State.movesLeft (n : Nat) (s : State) : Nat :=
  match s.pos with
  | .idle => 0
  | .busy _ todo => todoMoves n s.now todo

theorem Micro.moves_antitone (n : Nat) {a b : Nat} (h : a ≤ b) (m : Micro) : m.moves n b ≤ m.moves n a := by
  cases m <;> simp only [Micro.moves, le_refl, Nat.add_le_add_iff_right]
  · exact Nat.mul_le_mul_left _ (timeLeft_antitone _ _ h)
  · exact Nat.mul_le_mul_left _ (timeLeft_antitone _ _ h)
  · next dst => cases dst <;> exact le_rfl
  · next dst => cases dst <;> exact le_rfl

theorem todoMoves_antitone (n : Nat) {a b : Nat} (h : a ≤ b) (todo : List Micro) : todoMoves n b todo ≤ todoMoves n a todo := by
  induction todo with
  | nil => exact le_rfl
  | cons m todo ih => simp only [todoMoves_cons]; exact Nat.add_le_add (Micro.moves_antitone n h m) ih

theorem writeByteBody_moves (n now : Nat) (v : Byte) : todoMoves n now (writeByteBody v) = 22 * waitMoves n + 3 := by
  simp [writeByteBody, writeStartSteps, writeEndSteps, bitIndices, Micro.moves]; omega

theorem readByteBody_moves (n now : Nat) (dst : ByteDst) :
    todoMoves n now (readByteBody dst) = (Micro.readByte dst).moves n now := by
  cases dst <;> simp [readByteBody, readStartSteps, readEndSteps, bitIndices, Micro.moves] <;> omega

theorem byteReturnBody_moves (n now : Nat) (dst : ByteDst) (v : Byte) :
    todoMoves n now (byteReturnBody dst v) = (Micro.byteReturn dst).moves n now := by
  cases dst <;> simp [byteReturnBody, Micro.moves]

theorem presentMicro_moves (n now : Nat) (c : Config) (b : Bool) : (presentMicro c b).moves n now = 0 := by
  unfold presentMicro; cases b
  · rfl
  · simp only [if_true]; split <;> rfl

/-- Under Bounded every step uses up at least the environment moves it takes. -/
theorem Micro.tick_moves {s t : State} {req : Instr} {m : Micro} {todo : List Micro} {n : Nat} (hb : s.cfg.waitPolicy = .bounded)
    (hn : s.cfg.timeoutUs ≤ n) (hw : s.cfg.timeWidth = none) (hd : ∀ x ∈ s.env, 1 ≤ x.dt) (hp : s.pos = .busy req todo)
    (hm : ∀ l v, m ≠ .poll l v)
    (h : m.tick s = .moved t) : t.movesLeft n + s.env.length ≤ m.moves n s.now + todoMoves n s.now todo + t.env.length := by
  cases m with
  | poll l v => exact absurd rfl (hm l v)
  | present b => cases h; simp [State.movesLeft, hp, presentMicro_moves]
  | readByte dst => cases h; have := readByteBody_moves n s.now dst; simp [State.movesLeft, hp]; omega
  | byteReturn dst =>
    simp only [Micro.tick, stepByteReturn] at h
    split at h
    · cases h
    · next f _ => cases h; have := byteReturnBody_moves n s.now dst f.data; simp [State.movesLeft, hp]; omega
  | bwait l v t use =>
    rw [Micro.tick_bwait] at h
    obtain ⟨x, rest, he, rfl⟩ := onNow_moved h
    have := todoMoves_antitone n (Nat.le_add_right s.now x.dt) todo
    simp [State.movesLeft, hp, he, Micro.moves, clockReading, hw, waitMoves, timeLeft_start]; omega
  | bwaitSample l v t start use =>
    rw [Micro.tick_bwaitSample] at h
    obtain ⟨x, rest, he, rfl⟩ := onSample_moved h
    have := todoMoves_antitone n (Nat.le_add_right s.now x.dt) todo
    split
    · cases use <;> simp [State.movesLeft, hp, he, Micro.moves, waitDone] <;> omega
    · have := timeLeft_antitone t start (Nat.le_add_right s.now x.dt)
      simp [State.movesLeft, hp, he, Micro.moves]; omega
  | bwaitCheck l v t start use =>
    rw [Micro.tick_bwaitCheck] at h
    obtain ⟨x, rest, he, rfl⟩ := onNow_moved h
    have := todoMoves_antitone n (Nat.le_add_right s.now x.dt) todo
    have hx := hd x (by simp [he])
    split
    · cases use <;> simp [State.movesLeft, hp, he, Micro.moves, waitDone, State.raise, State.finish] <;> omega
    · rename_i hlt
      simp [elapsed, clockReading, hw] at hlt
      have := timeLeft_check hx hlt
      simp [State.movesLeft, hp, he, Micro.moves]; omega
  | samp l =>
    rw [Micro.tick_samp] at h
    obtain ⟨x, rest, he, rfl⟩ := onSample_moved h
    have := todoMoves_antitone n (Nat.le_add_right s.now x.dt) todo
    simp [State.movesLeft, hp, he, Micro.moves]; omega
  | sampleBit l =>
    rw [Micro.tick_sampleBit] at h
    obtain ⟨x, rest, he, rfl⟩ := onSample_moved h
    have := todoMoves_antitone n (Nat.le_add_right s.now x.dt) todo
    simp [State.movesLeft, hp, he, Micro.moves]; omega
  | delay d =>
    rw [Micro.tick_delay] at h
    obtain ⟨x, rest, he, rfl⟩ := onDelay_moved h
    have := todoMoves_antitone n ((Nat.le_add_right s.now (s.cfg.delayOf d)).trans (Nat.le_add_right _ x.dt)) todo
    simp [State.movesLeft, hp, he, Micro.moves]; omega
  | low l | high l | rel l =>
    cases h
    have := todoMoves_antitone n (Nat.le_add_right s.now s.lag) todo
    simpa [State.movesLeft, hp, Micro.moves] using this
  | wait l v =>
    rw [Micro.tick_wait] at h
    cases h
    simpa [State.movesLeft, hp, Micro.moves, waitLoop, hb, waitMoves] using hn
  | _ =>
    simp only [Micro.tick, stepSendBit, stepRecvBit, stepBitReturn,
      stepWriteByte, stepOpenWrite, stepSendData, stepAccumulate, stepSendParity, stepCloseFrame, stepOpenRead,
      stepCheckFrame, stepSendCmd, stepCheckAck, stepPause, stepResume, stepEnableReporting,
      stepSetEnabled, stepDisableReporting, stepSetDisabled, stepSelectMode, stepReenable, stepModeSettle,
      stepSetPolledMode, stepRecordMode, stepInitMode, stepMarkInitialized, stepWriteReport, stepRespondReport,
      stepRespond] at h
    repeat' split at h
    all_goals cases h
    all_goals
      simp [State.movesLeft, Micro.moves, writeByteBody_moves, waitPulseBody, sendBitBody, recvBitBody,
        sendCmdBody, selectModeBody, setPolledModeBody, *] <;> try omega


/-- R72, R128: a run of a request under Bounded uses no more moves than it can, where every move takes at least a microsecond. -/
theorem State.Reaches.moves {s t : State} {n : Nat} (h : s.Reaches t) (hs : s.Inv) (hb : s.cfg.waitPolicy = .bounded)
    (hn : s.cfg.timeoutUs ≤ n) (hw : s.cfg.timeWidth = none) (hd : ∀ x ∈ s.env, 1 ≤ x.dt) :
    t.movesLeft n + s.env.length ≤ s.movesLeft n + t.env.length := by
  refine (h.keeps (P := fun t => t.Inv ∧ t.cfg = s.cfg ∧ (∀ x ∈ t.env, 1 ≤ x.dt) ∧
    t.movesLeft n + s.env.length ≤ s.movesLeft n + t.env.length) ?_ ⟨hs, rfl, hd, le_rfl⟩).2.2.2
  rintro a b ⟨h1, h2, h3, h4⟩ hab
  obtain ⟨used, hu⟩ := (State.tick_facts hab).env
  refine ⟨State.tick_inv h1 hab, (State.tick_facts hab).cfg.trans h2, fun x hx => h3 x (by rw [hu]; simp [hx]), ?_⟩
  obtain ⟨req, todo, hp⟩ := busy_of_tick hab
  cases todo with
  | nil => rw [State.tick_done hp] at hab; cases hab; simpa [State.movesLeft, State.finish, hp] using h4
  | cons m todo =>
    have hf := h1.fits _ _ hp m (by simp)
    rw [State.tick_busy hp] at hab
    have := Micro.tick_moves (s := { a with pos := .busy req todo }) (n := n) (by rw [h2]; exact hb) (by rw [h2]; exact hn)
      (by rw [h2]; exact hw) h3 rfl (by rintro l v rfl; simp [Micro.fits, h2, hb] at hf) hab
    have h5 : a.movesLeft n = m.moves n a.now + todoMoves n a.now todo := by simp [State.movesLeft, hp]
    rw [h5] at h4
    dsimp only at this
    omega

end Sys2Proof.Machine
end

