-- ==== Sys2Proof/Laws/Decode.lean ====
section
/-! SUPPORT. The fields of a packed request word (spec/30_encoding.md rule R52). -/

namespace Sys2Proof

theorem Request.pack_toNat (op arg : Byte) (tmo : BitVec 32) :
    (Request.pack op arg tmo).toNat = op.toNat * 2 ^ 40 + arg.toNat * 2 ^ 32 + tmo.toNat := by
  have h : (op ++ arg ++ tmo : BitVec (8 + 8 + 32)).toNat = op.toNat * 2 ^ 40 + arg.toNat * 2 ^ 32 + tmo.toNat := by
    rw [BitVec.toNat_append, BitVec.toNat_append, ← Nat.shiftLeft_add_eq_or_of_lt tmo.isLt,
      ← Nat.shiftLeft_add_eq_or_of_lt arg.isLt, Nat.shiftLeft_eq, Nat.shiftLeft_eq]
    omega
  exact h

@[simp] theorem Request.op_pack (op arg : Byte) (tmo : BitVec 32) : (Request.pack op arg tmo).op = op := by
  apply BitVec.eq_of_toNat_eq
  have := op.isLt; have := arg.isLt; have := tmo.isLt
  simp only [Request.op, BitVec.extractLsb'_toNat, Request.pack_toNat, Nat.shiftRight_eq_div_pow]
  omega

@[simp] theorem Request.arg_pack (op arg : Byte) (tmo : BitVec 32) : (Request.pack op arg tmo).arg = arg := by
  apply BitVec.eq_of_toNat_eq
  have := op.isLt; have := arg.isLt; have := tmo.isLt
  simp only [Request.arg, BitVec.extractLsb'_toNat, Request.pack_toNat, Nat.shiftRight_eq_div_pow]
  omega

@[simp] theorem Request.tmo_pack (op arg : Byte) (tmo : BitVec 32) : (Request.pack op arg tmo).tmo = tmo := by
  apply BitVec.eq_of_toNat_eq
  have := op.isLt; have := arg.isLt; have := tmo.isLt
  simp only [Request.tmo, BitVec.extractLsb'_toNat, Request.pack_toNat, Nat.shiftRight_eq_div_pow]
  omega

/-- R52: a bit of the `arg` field. -/
theorem Request.getLsbD_arg (w : Request) {i : Nat} (h : i < 8) : w.getLsbD (32 + i) = w.arg.getLsbD i := by
  simp [Request.arg, h]

/-- R52: a bit of the `tmo` field. -/
theorem Request.getLsbD_tmo (w : Request) {i : Nat} (h : i < 32) : w.getLsbD i = w.tmo.getLsbD i := by
  simp [Request.tmo, h]

end Sys2Proof
end

