-- ==== Sys2Proof/Laws/Runs.lean ====
section
/-! SUPPORT. Running pseudocode symbolically: where the engine stands, and that it leads from one place to another with the
events it adds. -/

namespace Sys2Proof.Machine

/-- Where a busy engine stands: its remaining steps, the placed moves, its drives, frame, report and session fields. -/
structure Spot where
  todo    : List Micro
  env     : List EnvMove
  clk     : Drive
  dat     : Drive
  frame   : Option Frame
  report  : Option Report
  session : SessionState

/-- The engine, configured as `c` and busy with `req`, stands at a spot. -/
structure At (c : Config) (req : Instr) (s : State) (p : Spot) : Prop where
  cfg : s.cfg = c
  pos : s.pos = .busy req p.todo
  env : s.env = p.env
  clk : s.driveClk = p.clk
  dat : s.driveDat = p.dat
  frame : s.frame = p.frame
  report : s.report = p.report
  session : s.session = p.session

/-- What no pseudocode step before the response changes, and the events added. -/
structure Carried (s t : State) (bus : List Event) : Prop where
  clockPin : t.clockPin = s.clockPin
  dataPin : t.dataPin = s.dataPin
  cfg : t.cfg = s.cfg
  requests : t.requests = s.requests
  responses : t.responses = s.responses
  freeMoves : t.freeMoves = s.freeMoves
  bus : ∃ es, t.trace = s.trace ++ es ∧ busEvents es = bus
  time : s.now ≤ t.now

@[simp] theorem busEvents_nil : busEvents [] = [] := rfl

@[simp] theorem busEvents_append (a b : List Event) : busEvents (a ++ b) = busEvents a ++ busEvents b :=
  List.filter_append ..

theorem Carried.refl (s : State) : Carried s s [] :=
  ⟨rfl, rfl, rfl, rfl, rfl, rfl, ⟨[], by simp, rfl⟩, le_rfl⟩

theorem Carried.trans {s t u : State} {a b : List Event} (h : Carried s t a) (g : Carried t u b) :
    Carried s u (a ++ b) := by
  obtain ⟨es, he, hb⟩ := h.bus
  obtain ⟨fs, hf, hc⟩ := g.bus
  exact ⟨g.clockPin.trans h.clockPin, g.dataPin.trans h.dataPin, g.cfg.trans h.cfg, g.requests.trans h.requests,
    g.responses.trans h.responses, g.freeMoves.trans h.freeMoves,
    ⟨es ++ fs, by rw [hf, he, List.append_assoc], by rw [busEvents_append, hb, hc]⟩, h.time.trans g.time⟩

/-- The engine leads from `s` to the spot `p`, adding the events `bus`. -/
def Leads (c : Config) (req : Instr) (s : State) (bus : List Event) (p : Spot) : Prop :=
  ∃ t, s.Reaches t ∧ Carried s t bus ∧ At c req t p

section Combinators

variable {c : Config} {req : Instr} {s t : State} {a b : List Event} {p q : Spot}

theorem Leads.refl (h : At c req s p) : Leads c req s [] p := ⟨s, .refl s, .refl s, h⟩

/-- Sequencing: from the spot reached, go on. -/
theorem Leads.bind (h : Leads c req s a p) (g : ∀ t, At c req t p → Leads c req t b q) : Leads c req s (a ++ b) q := by
  obtain ⟨t, hr, hc, ht⟩ := h
  obtain ⟨u, gr, gc, gu⟩ := g t ht
  exact ⟨u, hr.trans gr, hc.trans gc, gu⟩

/-- Sequencing where what follows adds no event. -/
theorem Leads.bindSilent (h : Leads c req s a p) (g : ∀ t, At c req t p → Leads c req t [] q) : Leads c req s a q := by
  simpa using h.bind g

/-- Sequencing after a step without an event. -/
theorem Leads.silentBind (h : Leads c req s [] p) (g : ∀ t, At c req t p → Leads c req t b q) : Leads c req s b q := by
  simpa using h.bind g

/-- One atomic step that emits the events `bus`. -/
theorem Leads.tick (h : s.tick = .moved t) (hc : Carried s t b) (ht : At c req t p) : Leads c req s b p :=
  ⟨t, State.Moves.reaches h, hc, ht⟩

end Combinators

variable {c : Config} {req : Instr} {s : State} {todo : List Micro} {env : List EnvMove} {dc dd : Drive}
  {f : Option Frame} {rep : Option Report} {σ : SessionState}

/-- The position stands after the step in progress. -/
def State.stepped (s : State) (req : Instr) (todo : List Micro) : State := { s with pos := .busy req todo }

/-- A step without an event. -/
theorem leads_silent {m : Micro} {t : State} {p : Spot} (h : At c req s ⟨m :: todo, env, dc, dd, f, rep, σ⟩)
    (hm : m.tick (s.stepped req todo) = .moved t) (ht : At c req t p) (h1 : t.clockPin = s.clockPin)
    (h2 : t.dataPin = s.dataPin) (h4 : t.requests = s.requests) (h5 : t.responses = s.responses)
    (h6 : t.freeMoves = s.freeMoves) (h7 : t.trace = s.trace) (h8 : t.now = s.now) : Leads c req s [] p :=
  .tick ((State.tick_busy h.pos).trans hm)
    ⟨h1, h2, ht.cfg.trans h.cfg.symm, h4, h5, h6, ⟨[], by simp [h7], rfl⟩, h8 ▸ le_rfl⟩ ht

/-- A step that only puts steps in front. -/
theorem leads_push {m : Micro} {body : List Micro} (h : At c req s ⟨m :: todo, env, dc, dd, f, rep, σ⟩)
    (hm : m.tick (s.stepped req todo) = .moved ((s.stepped req todo).push body)) :
    Leads c req s [] ⟨body ++ todo, env, dc, dd, f, rep, σ⟩ :=
  leads_silent h hm ⟨h.cfg, rfl, h.env, h.clk, h.dat, h.frame, h.report, h.session⟩ rfl rfl rfl rfl rfl rfl rfl

/-- A step that does nothing. -/
theorem leads_pass {m : Micro} (h : At c req s ⟨m :: todo, env, dc, dd, f, rep, σ⟩)
    (hm : m.tick (s.stepped req todo) = .moved (s.stepped req todo)) :
    Leads c req s [] ⟨todo, env, dc, dd, f, rep, σ⟩ :=
  leads_silent h hm ⟨h.cfg, rfl, h.env, h.clk, h.dat, h.frame, h.report, h.session⟩ rfl rfl rfl rfl rfl rfl rfl

/-- A step that only writes the frame. -/
theorem leads_frame {m : Micro} {f' : Option Frame} (h : At c req s ⟨m :: todo, env, dc, dd, f, rep, σ⟩)
    (hm : m.tick (s.stepped req todo) = .moved { s.stepped req todo with frame := f' }) :
    Leads c req s [] ⟨todo, env, dc, dd, f', rep, σ⟩ :=
  leads_silent h hm ⟨h.cfg, rfl, h.env, h.clk, h.dat, rfl, h.report, h.session⟩ rfl rfl rfl rfl rfl rfl rfl

/-- R64: `drive_low(CLK)`. -/
theorem leads_low_clk (h : At c req s ⟨.low .clk :: todo, env, dc, dd, f, rep, σ⟩) :
    Leads c req s [.low .clk] ⟨todo, env, .drivenLow, dd, f, rep, σ⟩ :=
  .tick (State.tick_busy h.pos) ⟨rfl, rfl, rfl, rfl, rfl, rfl, ⟨[.low .clk], rfl, rfl⟩, Nat.le_add_right _ _⟩
    ⟨h.cfg, rfl, h.env, rfl, h.dat, h.frame, h.report, h.session⟩

/-- R64: `drive_low(DAT)`. -/
theorem leads_low_dat (h : At c req s ⟨.low .dat :: todo, env, dc, dd, f, rep, σ⟩) :
    Leads c req s [.low .dat] ⟨todo, env, dc, .drivenLow, f, rep, σ⟩ :=
  .tick (State.tick_busy h.pos) ⟨rfl, rfl, rfl, rfl, rfl, rfl, ⟨[.low .dat], rfl, rfl⟩, Nat.le_add_right _ _⟩
    ⟨h.cfg, rfl, h.env, h.clk, rfl, h.frame, h.report, h.session⟩

/-- R65: `drive_high(DAT)`. -/
theorem leads_high_dat (h : At c req s ⟨.high .dat :: todo, env, dc, dd, f, rep, σ⟩) :
    Leads c req s [.high .dat] ⟨todo, env, dc, .drivenHigh, f, rep, σ⟩ :=
  .tick (State.tick_busy h.pos) ⟨rfl, rfl, rfl, rfl, rfl, rfl, ⟨[.high .dat], rfl, rfl⟩, Nat.le_add_right _ _⟩
    ⟨h.cfg, rfl, h.env, h.clk, rfl, h.frame, h.report, h.session⟩

/-- R66: `release(CLK)`. -/
theorem leads_rel_clk (h : At c req s ⟨.rel .clk :: todo, env, dc, dd, f, rep, σ⟩) :
    Leads c req s [.rel .clk] ⟨todo, env, .released, dd, f, rep, σ⟩ :=
  .tick (State.tick_busy h.pos) ⟨rfl, rfl, rfl, rfl, rfl, rfl, ⟨[.rel .clk], rfl, rfl⟩, Nat.le_add_right _ _⟩
    ⟨h.cfg, rfl, h.env, rfl, h.dat, h.frame, h.report, h.session⟩

/-- R66: `release(DAT)`. -/
theorem leads_rel_dat (h : At c req s ⟨.rel .dat :: todo, env, dc, dd, f, rep, σ⟩) :
    Leads c req s [.rel .dat] ⟨todo, env, dc, .released, f, rep, σ⟩ :=
  .tick (State.tick_busy h.pos) ⟨rfl, rfl, rfl, rfl, rfl, rfl, ⟨[.rel .dat], rfl, rfl⟩, Nat.le_add_right _ _⟩
    ⟨h.cfg, rfl, h.env, h.clk, rfl, h.frame, h.report, h.session⟩

/-- R71: a delay that one move answers. -/
theorem leads_delay {d : Delay} {m : EnvMove} (h : At c req s ⟨.delay d :: todo, m :: env, dc, dd, f, rep, σ⟩) :
    Leads c req s [.dly (c.delayOf d)] ⟨todo, env, dc, dd, f, rep, σ⟩ := by
  obtain rfl := h.cfg
  exact .tick ((State.tick_busy h.pos).trans (State.onDelay_cons (s := s.stepped req todo) h.env _))
    ⟨rfl, rfl, rfl, rfl, rfl, rfl, ⟨[.dly (s.cfg.delayOf d)], rfl, rfl⟩, by simp [Nat.add_assoc, State.stepped]⟩
    ⟨rfl, rfl, rfl, h.clk, h.dat, h.frame, h.report, h.session⟩

/-- A step that samples a line, answered by the next move. -/
theorem tick_onSample {x : Micro} {m : EnvMove} {p : Spot} {l : Line} {k : Level → State → State} (h : At c req s p)
    (hp : p.todo = x :: todo) (he : p.env = m :: env)
    (hx : x.tick (s.stepped req todo) = (s.stepped req todo).onSample l k) :
    s.tick = .moved (k (s.levelAt l m) (((s.stepped req todo).absorb m env).emit (.smp l (s.levelAt l m)))) := by
  rw [State.tick_busy (h.pos.trans (by rw [hp]))]
  exact hx.trans (State.onSample_cons (s := s.stepped req todo) (h.env.trans he) l k)

/-- A step that reads the clock, answered by the next move. -/
theorem tick_onNow {x : Micro} {m : EnvMove} {p : Spot} {k : Time → State → State} (h : At c req s p)
    (hp : p.todo = x :: todo) (he : p.env = m :: env)
    (hx : x.tick (s.stepped req todo) = (s.stepped req todo).onNow k) :
    s.tick = .moved (k (clockReading s.cfg (s.now + m.dt))
      (((s.stepped req todo).absorb m env).emit (.now (clockReading s.cfg (s.now + m.dt))))) := by
  rw [State.tick_busy (h.pos.trans (by rw [hp]))]
  exact hx.trans (State.onNow_cons (s := s.stepped req todo) (h.env.trans he) k)

/-- The drive of a line at a spot. -/
def lineDrive (dc dd : Drive) : Line → Drive
  | .clk => dc
  | .dat => dd

theorem At.drive {p : Spot} (h : At c req s p) (l : Line) : s.drive l = lineDrive p.clk p.dat l := by
  cases l
  · exact h.clk
  · exact h.dat

theorem level_of_met {drv : Line → Drive} {l : Line} {m : EnvMove} {v : Level} (hl : s.drive l = drv l)
    (hm : Need.met drv m (.reads l v) = true) : s.levelAt l m = v := by
  simpa [State.levelAt, hl, Need.met] using hm

theorem answers_append {drv : Line → Drive} {a b : List Need} {w : List EnvMove} (h : answersAt drv (a ++ b) w = true) :
    ∃ w₁ w₂, w = w₁ ++ w₂ ∧ answersAt drv a w₁ = true ∧ answersAt drv b w₂ = true := by
  induction a generalizing w with
  | nil => exact ⟨[], w, rfl, rfl, h⟩
  | cons n ns ih =>
    cases w with
    | nil => simp [answersAt] at h
    | cons m ms =>
      simp only [List.cons_append, answersAt, Bool.and_eq_true] at h
      obtain ⟨w₁, w₂, rfl, h1, h2⟩ := ih h.2
      exact ⟨m :: w₁, w₂, rfl, by simp [answersAt, h.1, h1], h2⟩

theorem answers_cons {drv : Line → Drive} {n : Need} {ns : List Need} {w : List EnvMove}
    (h : answersAt drv (n :: ns) w = true) : ∃ m w', w = m :: w' ∧ n.met drv m = true ∧ answersAt drv ns w' = true := by
  cases w with
  | nil => simp [answersAt] at h
  | cons m ms => simp only [answersAt, Bool.and_eq_true] at h; exact ⟨m, ms, rfl, h.1, h.2⟩

theorem answers_nil {drv : Line → Drive} {w : List EnvMove} (h : answersAt drv [] w = true) : w = [] := by
  cases w with
  | nil => rfl
  | cons m ms => simp [answersAt] at h

theorem answers_any {drv : Line → Drive} {w : List EnvMove} (h : answersAt drv [.any] w = true) : ∃ m, w = [m] := by
  obtain ⟨m, w', rfl, -, h'⟩ := answers_cons h
  cases answers_nil h'
  exact ⟨m, rfl⟩

/-- R72, R73: a transfer wait that its first sample meets, under either wait policy. -/
theorem leads_wait {drv : Line → Drive} {l : Line} {v : Level} {w : List EnvMove} (hw : answersAt drv (waitNeeds c l v) w = true)
    (h : At c req s ⟨.wait l v :: todo, w ++ env, dc, dd, f, rep, σ⟩) (hl : lineDrive dc dd l = drv l) :
    Leads c req s [.smp l v] ⟨todo, env, dc, dd, f, rep, σ⟩ := by
  refine (leads_push h (Micro.tick_wait _ l v)).silentBind fun t ht => ?_
  rw [show (s.stepped req todo).cfg = c from h.cfg] at ht
  cases hp : c.waitPolicy with
  | unbounded =>
    simp only [waitNeeds, hp] at hw
    obtain ⟨m, w', rfl, hm, hw'⟩ := answers_cons hw
    cases answers_nil hw'
    simp only [waitLoop, hp, List.singleton_append] at ht
    have htick := tick_onSample ht rfl rfl (Micro.tick_poll _ l v)
    simp only [level_of_met ((ht.drive l).trans hl) hm, if_true] at htick
    exact .tick htick ⟨rfl, rfl, rfl, rfl, rfl, rfl, ⟨[.smp l v], rfl, rfl⟩, by simp [State.stepped]⟩
      ⟨ht.cfg, rfl, rfl, ht.clk, ht.dat, ht.frame, ht.report, ht.session⟩
  | bounded =>
    simp only [waitNeeds, hp] at hw
    obtain ⟨m₁, w', rfl, -, hw'⟩ := answers_cons hw
    obtain ⟨m, w'', rfl, hm, hw''⟩ := answers_cons hw'
    cases answers_nil hw''
    simp only [waitLoop, hp, List.singleton_append] at ht
    have h1 : Leads c req t [] ⟨.bwaitSample l v c.timeoutUs (clockReading t.cfg (t.now + m₁.dt)) .transfer :: todo,
        m :: env, dc, dd, f, rep, σ⟩ :=
      .tick (tick_onNow ht rfl rfl (Micro.tick_bwait _ l v _ _))
        ⟨rfl, rfl, rfl, rfl, rfl, rfl, ⟨[.now (clockReading t.cfg (t.now + m₁.dt))], rfl, rfl⟩, by simp [State.stepped]⟩
        ⟨ht.cfg, rfl, rfl, ht.clk, ht.dat, ht.frame, ht.report, ht.session⟩
    refine h1.silentBind fun u hu => ?_
    have htick := tick_onSample hu rfl rfl (Micro.tick_bwaitSample _ l v _ _ _)
    simp only [level_of_met ((hu.drive l).trans hl) hm, if_true, waitDone] at htick
    exact .tick htick ⟨rfl, rfl, rfl, rfl, rfl, rfl, ⟨[.smp l v], rfl, rfl⟩, by simp [State.stepped]⟩
      ⟨hu.cfg, rfl, rfl, hu.clk, hu.dat, hu.frame, hu.report, hu.session⟩

end Sys2Proof.Machine
end

