-- ==== Sys2Proof/Laws/Framing.lean ====
section
/-! SUPPORT. The bit and byte operations, run against a peripheral that answers them (spec/41_bit_transfer.md R78, R79,
spec/42_byte_framing.md R80 to R84). -/

namespace Sys2Proof.Machine

/-- R80: the accumulator that starts at 1 ends as the odd parity. -/
theorem foldl_parity (v : Byte) : bitIndices.foldl (fun acc i => acc ^^ byteBit v i) true = oddParity v := by
  simp only [oddParity, xorReduce, bitIndices, List.foldl]
  generalize byteBit v 0 = a; generalize byteBit v 1 = b; generalize byteBit v 2 = c; generalize byteBit v 3 = d
  generalize byteBit v 4 = e; generalize byteBit v 5 = f; generalize byteBit v 6 = g; generalize byteBit v 7 = h
  revert a b c d e f g h; decide

/-- R32, R83 step 3: eight received bits make the byte. -/
theorem foldl_setByteBit (v : Byte) : bitIndices.foldl (fun acc i => setByteBit acc i (byteBit v i)) 0 = v := by
  revert v; decide +kernel

/-- R68: the drive that presents a data bit. -/
def presentDrive (c : Config) (b : Bool) : Drive :=
  match b, c.dataOne with
  | false, _ => .drivenLow
  | true, .release => .released
  | true, .driveHigh => .drivenHigh

variable {c : Config} {req : Instr} {s : State} {todo : List Micro} {env w : List EnvMove} {dc dd : Drive}
  {f : Option Frame} {rep : Option Report} {σ : SessionState}

/-- R68: `present(DAT, b)`. -/
theorem leads_present {b : Bool} (h : At c req s ⟨.present b :: todo, env, dc, dd, f, rep, σ⟩) :
    Leads c req s [presentEvent c b] ⟨todo, env, dc, presentDrive c b, f, rep, σ⟩ := by
  refine (leads_push h (Micro.tick_present _ b)).silentBind fun t ht => ?_
  rw [show (s.stepped req todo).cfg = c from h.cfg] at ht
  cases b with
  | false => exact leads_low_dat ht
  | true =>
    simp only [presentMicro, if_true, List.singleton_append] at ht
    cases hd : c.dataOne <;> simp only [hd] at ht <;> simp only [presentEvent, presentDrive, hd]
    · exact leads_rel_dat ht
    · exact leads_high_dat ht

/-- R77: `wait_pulse()`. -/
theorem leads_pulse {drv : Line → Drive} (hw : answersAt drv (pulseNeeds c) w = true)
    (h : At c req s ⟨.wait .clk .low :: .wait .clk .high :: todo, w ++ env, dc, dd, f, rep, σ⟩) (hl : dc = drv .clk) :
    Leads c req s [.smp .clk .low, .smp .clk .high] ⟨todo, env, dc, dd, f, rep, σ⟩ := by
  obtain ⟨w₁, w₂, rfl, h1, h2⟩ := answers_append hw
  rw [List.append_assoc] at h
  exact (leads_wait h1 h hl).bind (a := [_]) fun t ht => leads_wait h2 ht hl

/-- R78: `send_bit(b)`. -/
theorem leads_sendBit {drv : Line → Drive} {b : Bool} (hw : answersAt drv (pulseNeeds c) w = true)
    (h : At c req s ⟨.sendBit b :: todo, w ++ env, dc, dd, f, rep, σ⟩) (hl : dc = drv .clk) :
    Leads c req s (sendBitEvents c b) ⟨todo, env, dc, presentDrive c b, f, rep, σ⟩ :=
  (leads_push h (Micro.tick_sendBit _ b)).silentBind fun _ ht =>
    (leads_present ht).bind (a := [_]) fun _ hu => leads_pulse hw hu hl

/-- R81 step 6: one data bit of a write. -/
theorem leads_sendData {i : Fin 8} {v : Byte} {p : Bool} {st : Option Bool} {j : Fin 8}
    (hw : answers (pulseNeeds c) w = true)
    (h : At c req s ⟨.sendData i :: todo, w ++ env, .released, dd, some ⟨v, some p, st, j⟩, rep, σ⟩) :
    Leads c req s (sendBitEvents c (byteBit v i))
      ⟨todo, env, .released, presentDrive c (byteBit v i), some ⟨v, some (p ^^ byteBit v i), st, i⟩, rep, σ⟩ := by
  have hf := h.frame
  have h1 : Leads c req s [] ⟨.sendBit (byteBit v i) :: .accumulate i :: todo, w ++ env, .released, dd,
      some ⟨v, some p, st, i⟩, rep, σ⟩ := by
    refine leads_silent (t := ({ s.stepped req todo with frame := some ⟨v, some p, st, i⟩ } : State).push
      [.sendBit (byteBit v i), .accumulate i]) h ?_
      ⟨h.cfg, rfl, h.env, h.clk, h.dat, rfl, h.report, h.session⟩ rfl rfl rfl rfl rfl rfl rfl
    simp only [Micro.tick_sendData, stepSendData, hf, State.stepped]
  refine h1.silentBind fun t ht => (leads_sendBit hw ht rfl).bindSilent fun u hu => leads_frame hu ?_
  have hf := hu.frame
  simp only [Micro.tick_accumulate, stepAccumulate, hf, State.stepped]

/-- R81 step 6: the data bits of a write. -/
theorem leads_sendDatas (v : Byte) (st : Option Bool) : ∀ (is : List (Fin 8)) {s : State} {w : List EnvMove} {dd : Drive}
    {p : Bool} {j : Fin 8} {todo : List Micro}, answers (is.map fun _ => pulseNeeds c).flatten w = true →
    At c req s ⟨is.map Micro.sendData ++ todo, w ++ env, .released, dd, some ⟨v, some p, st, j⟩, rep, σ⟩ →
    ∃ dd' j', Leads c req s (is.map fun i => sendBitEvents c (byteBit v i)).flatten
      ⟨todo, env, .released, dd', some ⟨v, some (is.foldl (fun acc i => acc ^^ byteBit v i) p), st, j'⟩, rep, σ⟩
  | [], s, w, dd, p, j, todo, hw, h => by
    cases answers_nil hw
    exact ⟨dd, j, .refl h⟩
  | i :: is, s, w, dd, p, j, todo, hw, h => by
    simp only [List.map_cons, List.flatten_cons] at hw
    obtain ⟨w₁, w₂, rfl, h1, h2⟩ := answers_append hw
    rw [List.append_assoc] at h
    obtain ⟨t, hr, hc, ht⟩ := leads_sendData h1 h
    obtain ⟨dd', j', u, gr, gc, gu⟩ := leads_sendDatas v st is h2 ht
    exact ⟨dd', j', u, hr.trans gr, by simpa using hc.trans gc, by simpa using gu⟩

theorem writeNeeds_eq (c : Config) : writeNeeds c = startNeeds ++ (waitNeeds c .clk .low ++
    ((bitIndices.map fun _ => pulseNeeds c).flatten ++ (pulseNeeds c ++ (pulseNeeds c ++ waitNeeds c .dat .low)))) := by
  simp [writeNeeds, startNeeds, bitIndices, List.replicate]

/-- R81 steps 1 to 4: the request-to-send, up to the wait of step 5. -/
theorem leads_writeStart {v : Byte} (hw : answers startNeeds w = true)
    (h : At c req s ⟨.writeByte v :: todo, w ++ env, dc, dd, f, rep, σ⟩) :
    Leads c req s (writeStartEvents c) ⟨.wait .clk .low :: .openWrite v :: (bitIndices.map Micro.sendData ++
      (writeEndSteps ++ todo)), env, .released, .drivenLow, f, rep, σ⟩ := by
  obtain ⟨m₁, w', rfl, -, hw⟩ := answers_cons hw
  obtain ⟨m₂, w', rfl, -, hw⟩ := answers_cons hw
  obtain ⟨m₃, w', rfl, -, hw⟩ := answers_cons hw
  cases answers_nil hw
  refine (leads_push h (Micro.tick_writeByte _ v)).silentBind fun t ht => ?_
  simp only [writeByteBody, writeStartSteps, List.append_assoc, List.cons_append, List.nil_append] at ht
  simp only [writeStartEvents]
  refine (leads_rel_dat ht).bind (a := [_]) fun t1 h1 => ?_
  refine (leads_rel_clk h1).bind (a := [_]) fun t2 h2 => ?_
  refine (leads_delay h2).bind (a := [_]) fun t3 h3 => ?_
  refine (leads_low_clk h3).bind (a := [_]) fun t4 h4 => ?_
  refine (leads_delay h4).bind (a := [_]) fun t5 h5 => ?_
  refine (leads_low_dat h5).bind (a := [_]) fun t6 h6 => ?_
  refine (leads_delay h6).bind (a := [_]) fun t7 h7 => ?_
  exact leads_rel_clk h7

/-- R81: `write_byte(v)` against a peripheral that answers it. -/
theorem leads_writeByte {v : Byte} (hw : answers (writeNeeds c) w = true)
    (h : At c req s ⟨.writeByte v :: todo, w ++ env, dc, dd, f, rep, σ⟩) :
    Leads c req s (writeEvents c v) ⟨todo, env, .drivenLow, .released, none, rep, σ⟩ := by
  rw [writeNeeds_eq] at hw
  obtain ⟨w₁, w', rfl, a1, hw⟩ := answers_append hw
  obtain ⟨w₄, w', rfl, a4, hw⟩ := answers_append hw
  obtain ⟨w₅, w', rfl, a5, hw⟩ := answers_append hw
  obtain ⟨w₆, w', rfl, a6, hw⟩ := answers_append hw
  obtain ⟨w₇, w₈, rfl, a7, a8⟩ := answers_append hw
  simp only [writeEvents, writeSlotEvents, List.append_assoc, List.cons_append, List.nil_append]
  rw [List.append_assoc] at h
  refine (leads_writeStart a1 h).bind fun t8 h8 => ?_
  simp only [writeEndSteps, List.append_assoc, List.cons_append, List.nil_append] at h8
  refine (leads_wait a4 h8 rfl).bind (a := [_]) fun t9 h9 => ?_
  refine (leads_frame h9 (Micro.tick_openWrite _ v)).silentBind fun ta ha => ?_
  obtain ⟨dd', j', la⟩ := leads_sendDatas v none bitIndices a5 ha
  rw [foldl_parity] at la
  refine la.bind fun tb hb => ?_
  have hf := hb.frame
  have lb := leads_push (body := [.sendBit (oddParity v)]) hb
    (by simp only [Micro.tick_sendParity, stepSendParity, hf, State.stepped])
  refine lb.silentBind fun tc hc => ?_
  refine (leads_sendBit a6 hc rfl).bind fun td hd => ?_
  refine (leads_rel_dat hd).bind (a := [_]) fun te he => ?_
  refine (leads_pulse a7 he rfl).bind (a := [_, _]) fun tf hf => ?_
  refine (leads_wait a8 hf rfl).bind (a := [_]) fun tg hg => ?_
  refine (leads_low_clk hg).bindSilent fun th hh => leads_frame hh (Micro.tick_closeFrame _)

/-- R79: `recv_bit()` up to its second wait. -/
theorem leads_sampledBit {drv : Line → Drive} {dst : BitDst} {b : Bool}
    (hw : answersAt drv (waitNeeds c .clk .low ++ [.reads .dat (Level.ofBit b)]) w = true)
    (h : At c req s ⟨.recvBit dst :: todo, w ++ env, dc, dd, f, rep, σ⟩) (hl : ∀ l, lineDrive dc dd l = drv l) :
    Leads c req s [.smp .clk .low, .smp .dat (Level.ofBit b)]
      ⟨.wait .clk .high :: .bitReturn dst b :: todo, env, dc, dd, f, rep, σ⟩ := by
  obtain ⟨w₁, w₂, rfl, a1, a2⟩ := answers_append hw
  obtain ⟨m, _, rfl, hm, e⟩ := answers_cons a2; cases answers_nil e
  refine (leads_push h (Micro.tick_recvBit _ dst)).silentBind fun t ht => ?_
  simp only [recvBitBody, List.append_assoc, List.cons_append, List.nil_append] at ht
  refine (leads_wait a1 ht (hl .clk)).bind (a := [_]) fun u hu => ?_
  have htick := tick_onSample hu rfl rfl (Micro.tick_sampleBit _ dst)
  simp only [level_of_met ((hu.drive .dat).trans (hl .dat)) hm] at htick
  refine .tick htick ⟨rfl, rfl, rfl, rfl, rfl, rfl, ⟨[.smp .dat (Level.ofBit b)], rfl, rfl⟩, by simp [State.stepped]⟩
    ⟨hu.cfg, ?_, rfl, hu.clk, hu.dat, hu.frame, hu.report, hu.session⟩
  cases b <;> rfl

/-- R79: `recv_bit()` up to its return. -/
theorem leads_recvBit {drv : Line → Drive} {dst : BitDst} {b : Bool} (hw : answersAt drv (bitNeeds c b) w = true)
    (h : At c req s ⟨.recvBit dst :: todo, w ++ env, dc, dd, f, rep, σ⟩) (hl : ∀ l, lineDrive dc dd l = drv l) :
    Leads c req s (recvBitEvents b) ⟨.bitReturn dst b :: todo, env, dc, dd, f, rep, σ⟩ := by
  unfold bitNeeds at hw
  obtain ⟨w₁, w₂, rfl, a1, a2⟩ := answers_append hw
  rw [List.append_assoc] at h
  exact (leads_sampledBit a1 h hl).bind (a := [_, _]) fun t ht => leads_wait a2 ht (hl .clk)

/-- R83 steps 3 and 4: a received bit that is written into the frame. -/
theorem leads_recvInto {dst : BitDst} {b : Bool} {g g' : Frame} (hw : answers (bitNeeds c b) w = true)
    (hd : ∀ s : State, s.frame = some g → stepBitReturn dst b s = .moved { s with frame := some g' })
    (h : At c req s ⟨.recvBit dst :: todo, w ++ env, .released, .released, some g, rep, σ⟩) :
    Leads c req s (recvBitEvents b) ⟨todo, env, .released, .released, some g', rep, σ⟩ :=
  (leads_recvBit hw h (by intro l; cases l <;> rfl)).bindSilent fun t ht => leads_frame ht (hd (t.stepped req todo) ht.frame)

/-- R83 step 3: the data bits of a read. -/
theorem leads_recvDatas (v : Byte) (p st : Option Bool) : ∀ (is : List (Fin 8)) {s : State}
    {w : List EnvMove} {acc : Byte} {j : Fin 8} {todo : List Micro},
    answers (is.map fun i => bitNeeds c (byteBit v i)).flatten w = true →
    At c req s ⟨is.map (fun i => Micro.recvBit (.data i)) ++ todo, w ++ env, .released, .released,
      some ⟨acc, p, st, j⟩, rep, σ⟩ →
    ∃ j', Leads c req s (is.map fun i => recvBitEvents (byteBit v i)).flatten
      ⟨todo, env, .released, .released,
        some ⟨is.foldl (fun acc i => setByteBit acc i (byteBit v i)) acc, p, st, j'⟩, rep, σ⟩
  | [], s, w, acc, j, todo, hw, h => by
    cases answers_nil hw
    exact ⟨j, .refl h⟩
  | i :: is, s, w, acc, j, todo, hw, h => by
    simp only [List.map_cons, List.flatten_cons] at hw
    obtain ⟨w₁, w₂, rfl, h1, h2⟩ := answers_append hw
    rw [List.append_assoc] at h
    obtain ⟨t, hr, hc, ht⟩ := leads_recvInto (g' := ⟨setByteBit acc i (byteBit v i), p, st, i⟩) h1
      (fun s hs => by simp only [stepBitReturn, hs]) h
    obtain ⟨j', u, gr, gc, gu⟩ := leads_recvDatas v p st is h2 ht
    exact ⟨j', u, hr.trans gr, by simpa using hc.trans gc, by simpa using gu⟩

theorem readNeeds_eq (c : Config) (x : RxFrame) : readNeeds c x = ([.any] ++ pulseNeeds c ++ [.any]) ++
    ((bitIndices.map fun i => bitNeeds c (byteBit x.data i)).flatten ++ (bitNeeds c x.parity ++ bitNeeds c x.stop)) := by
  simp [readNeeds]

/-- R83 steps 1 and 2: a read up to its first data bit. -/
theorem leads_readStart {dst : ByteDst} (hw : answers ([.any] ++ pulseNeeds c ++ [.any]) w = true)
    (h : At c req s ⟨.readByte dst :: todo, w ++ env, dc, dd, f, rep, σ⟩) :
    Leads c req s [.rel .dat, .rel .clk, .dly c.tRdRelease, .smp .clk .low, .smp .clk .high, .dly c.tRdStart]
      ⟨bitIndices.map (fun i => Micro.recvBit (.data i)) ++
        (.recvBit .parity :: .recvBit .stop :: .low .clk :: .checkFrame :: .byteReturn dst :: todo),
      env, .released, .released, some ⟨0, none, none, 0⟩, rep, σ⟩ := by
  obtain ⟨w', w₃, rfl, hw, a3⟩ := answers_append hw
  obtain ⟨w₁, w₂, rfl, a1, a2⟩ := answers_append hw
  obtain ⟨m₁, rfl⟩ := answers_any a1
  obtain ⟨m₃, rfl⟩ := answers_any a3
  refine (leads_push h (Micro.tick_readByte _ dst)).silentBind fun t ht => ?_
  simp only [readByteBody, readStartSteps, readEndSteps, List.append_assoc, List.cons_append, List.nil_append] at ht
  refine (leads_rel_dat ht).bind (a := [_]) fun t1 h1 => ?_
  refine (leads_rel_clk h1).bind (a := [_]) fun t2 h2 => ?_
  refine (leads_delay h2).bind (a := [_]) fun t3 h3 => ?_
  refine (leads_pulse a2 h3 rfl).bind (a := [_, _]) fun t4 h4 => ?_
  refine (leads_delay h4).bindSilent fun t5 h5 => ?_
  exact leads_frame h5 (Micro.tick_openRead _)

/-- R83 steps 1 to 5: a read up to its checks, against a peripheral that sends a frame. -/
theorem leads_readByte_checks {dst : ByteDst} {x : RxFrame} (hw : answers (readNeeds c x) w = true)
    (h : At c req s ⟨.readByte dst :: todo, w ++ env, dc, dd, f, rep, σ⟩) :
    ∃ j, Leads c req s (readEvents c x) ⟨.checkFrame :: .byteReturn dst :: todo, env, .drivenLow, .released,
      some ⟨x.data, some x.parity, some x.stop, j⟩, rep, σ⟩ := by
  rw [readNeeds_eq] at hw
  obtain ⟨w₃, w', rfl, a3, hw⟩ := answers_append hw
  obtain ⟨w₄, w', rfl, a4, hw⟩ := answers_append hw
  obtain ⟨w₅, w₆, rfl, a5, a6⟩ := answers_append hw
  simp only [List.append_assoc] at h
  obtain ⟨t, hr, hc, ht⟩ := leads_readStart a3 h
  obtain ⟨j, hj⟩ := leads_recvDatas x.data none none bitIndices a4 ht
  rw [foldl_setByteBit] at hj
  refine ⟨j, ?_⟩
  have all : Leads c req t ((bitIndices.map fun i => recvBitEvents (byteBit x.data i)).flatten ++
      (recvBitEvents x.parity ++ (recvBitEvents x.stop ++ [.low .clk])))
      ⟨.checkFrame :: .byteReturn dst :: todo, env, .drivenLow, .released,
        some ⟨x.data, some x.parity, some x.stop, j⟩, rep, σ⟩ := by
    refine hj.bind fun t1 h1 => ?_
    refine (leads_recvInto (g' := ⟨x.data, some x.parity, none, j⟩) a5
      (fun s hs => by simp only [stepBitReturn, hs]) h1).bind fun t2 h2 => ?_
    refine (leads_recvInto (g' := ⟨x.data, some x.parity, some x.stop, j⟩) a6
      (fun s hs => by simp only [stepBitReturn, hs]) h2).bind fun t3 h3 => ?_
    exact leads_low_clk h3
  obtain ⟨u, gr, gc, gu⟩ := all
  exact ⟨u, hr.trans gr, by simpa [readEvents] using hc.trans gc, gu⟩

/-- R83: a read whose frame passes the checks, up to its return. -/
theorem leads_readByte {dst : ByteDst} {x : RxFrame} (hw : answers (readNeeds c x) w = true)
    (hx : frameError c x.data x.parity x.stop = none)
    (h : At c req s ⟨.readByte dst :: todo, w ++ env, dc, dd, f, rep, σ⟩) :
    Leads c req s (readEvents c x) ⟨byteReturnBody dst x.data ++ todo, env, .drivenLow, .released, none, rep, σ⟩ := by
  obtain ⟨j, hl⟩ := leads_readByte_checks hw h
  refine hl.bindSilent fun t ht => ?_
  have hf := ht.frame
  have h1 := leads_pass ht
    (by simp only [Micro.tick_checkFrame, stepCheckFrame, hf, ht.cfg, hx, State.stepped])
  refine h1.silentBind fun u hu => ?_
  have hf := hu.frame
  refine leads_silent (t := ({ u.stepped req todo with frame := none } : State).push (byteReturnBody dst x.data)) hu ?_
    ⟨hu.cfg, rfl, hu.env, hu.clk, hu.dat, rfl, hu.report, hu.session⟩ rfl rfl rfl rfl rfl rfl rfl
  simp only [Micro.tick_byteReturn, stepByteReturn, hf, State.stepped]

end Sys2Proof.Machine
end

