-- ==== Sys2Proof/Laws/Session.lean ====
section
/-! SUPPORT. The session operations, run against a peripheral that answers each command (spec/43_session.md R89 to R101). -/

namespace Sys2Proof.Machine

@[simp] theorem exchangeNeeds_nil (c : Config) : exchangeNeeds c [] = [] := rfl

@[simp] theorem exchangeNeeds_cons (c : Config) (x : RxFrame) (xs : List RxFrame) :
    exchangeNeeds c (x :: xs) = writeNeeds c ++ readNeeds c x ++ exchangeNeeds c xs := by
  simp [exchangeNeeds]

@[simp] theorem exchangeNeeds_append (c : Config) (a b : List RxFrame) :
    exchangeNeeds c (a ++ b) = exchangeNeeds c a ++ exchangeNeeds c b := by
  simp [exchangeNeeds]

@[simp] theorem exchangeEvents_append (c : Config) (a b : List (Byte × RxFrame)) :
    exchangeEvents c (a ++ b) = exchangeEvents c a ++ exchangeEvents c b := by
  simp [exchangeEvents]

variable {c : Config} {req : Instr} {s : State} {todo : List Micro} {env w : List EnvMove} {dc dd : Drive} {f : Option Frame}
  {rep : Option Report} {σ : SessionState}

/-- R89: the read of a reply that is accepted. -/
theorem leads_readAck {x : RxFrame} (hw : answers (readNeeds c x) w = true) (hx : replyAccepted c x = true)
    (h : At c req s ⟨.readByte .ack :: todo, w ++ env, dc, dd, f, rep, σ⟩) :
    Leads c req s (readEvents c x) ⟨todo, env, .drivenLow, .released, none, rep, σ⟩ := by
  simp only [replyAccepted, Bool.and_eq_true, decide_eq_true_eq] at hx
  refine (leads_readByte hw hx.1 h).bindSilent fun v hv => leads_pass (m := .checkAck x.data) (todo := todo) hv ?_
  simp only [Micro.tick_checkAck, stepCheckAck, State.stepped, hv.cfg, hx.2, if_true]

/-- R89: `send_cmd(b)` whose reply is accepted. -/
theorem leads_sendCmd {b : Byte} {x : RxFrame} (hw : answers (writeNeeds c ++ readNeeds c x) w = true)
    (hx : replyAccepted c x = true) (h : At c req s ⟨.sendCmd b :: todo, w ++ env, dc, dd, f, rep, σ⟩) :
    Leads c req s (writeEvents c b ++ readEvents c x) ⟨todo, env, .drivenLow, .released, none, rep, σ⟩ := by
  obtain ⟨w₁, w₂, rfl, a1, a2⟩ := answers_append hw
  refine (leads_push h (Micro.tick_sendCmd _ b)).silentBind fun t ht => ?_
  simp only [sendCmdBody, List.append_assoc, List.cons_append, List.nil_append] at ht
  exact (leads_writeByte a1 ht).bind fun u hu => leads_readAck a2 hx hu

/-- R97, R98: several commands in a row. -/
theorem leads_sendCmds : ∀ (bytes : List Byte) {replies : List RxFrame} {s : State} {w : List EnvMove} {dc dd : Drive}
    {todo : List Micro}, replies.length = bytes.length → answers (exchangeNeeds c replies) w = true →
    (∀ x ∈ replies, replyAccepted c x = true) →
    At c req s ⟨bytes.map Micro.sendCmd ++ todo, w ++ env, dc, dd, none, rep, σ⟩ →
    Leads c req s (exchangeEvents c (bytes.zip replies))
      ⟨todo, env, driveAfter bytes .clk dc, driveAfter bytes .dat dd, none, rep, σ⟩
  | [], [], s, w, dc, dd, todo, _, hw, _, h => by
    cases answers_nil hw
    exact .refl h
  | [], _ :: _, _, _, _, _, _, hn, _, _, _ => by simp at hn
  | _ :: _, [], _, _, _, _, _, hn, _, _, _ => by simp at hn
  | b :: bytes, x :: replies, s, w, dc, dd, todo, hn, hw, hx, h => by
    rw [exchangeNeeds_cons] at hw
    obtain ⟨w₁, w₂, rfl, a1, a2⟩ := answers_append hw
    rw [List.append_assoc] at h
    have he : exchangeEvents c ((b :: bytes).zip (x :: replies)) =
        (writeEvents c b ++ readEvents c x) ++ exchangeEvents c (bytes.zip replies) := by
      simp [exchangeEvents]
    rw [he]
    refine (leads_sendCmd a1 (hx x (by simp)) h).bind fun t ht => ?_
    have h2 := leads_sendCmds bytes (by simpa using hn) a2 (fun y hy => hx y (by simp [hy])) ht
    simpa [driveAfter] using h2

theorem session_mode (h : At c req s ⟨todo, env, dc, dd, f, rep, σ⟩) : s.mode = σ.mode := congrArg SessionState.mode h.session

theorem session_initialized (h : At c req s ⟨todo, env, dc, dd, f, rep, σ⟩) : s.initialized = σ.initialized :=
  congrArg SessionState.initialized h.session

theorem session_enabled (h : At c req s ⟨todo, env, dc, dd, f, rep, σ⟩) : s.reportingEnabled = σ.enabled :=
  congrArg SessionState.enabled h.session

theorem session_disabled (h : At c req s ⟨todo, env, dc, dd, f, rep, σ⟩) : s.reportingDisabled = σ.disabled :=
  congrArg SessionState.disabled h.session

/-- What an operation that exchanges the bytes of `plan` leads to. -/
def LeadsPlan (c : Config) (req : Instr) (s : State) (plan : List Byte × SessionState) (replies : List RxFrame)
    (todo : List Micro) (env : List EnvMove) (dc dd : Drive) (rep : Option Report) : Prop :=
  Leads c req s (exchangeEvents c (plan.1.zip replies))
    ⟨todo, env, driveAfter plan.1 .clk dc, driveAfter plan.1 .dat dd, none, rep, plan.2⟩

/-- The plan without bytes: a step that does nothing. -/
theorem leads_skip {m : Micro} {replies : List RxFrame} (hn : replies.length = 0)
    (hw : answers (exchangeNeeds c replies) w = true) (h : At c req s ⟨m :: todo, w ++ env, dc, dd, none, rep, σ⟩)
    (hm : m.tick (s.stepped req todo) = .moved (s.stepped req todo)) :
    LeadsPlan c req s ([], σ) replies todo env dc dd rep := by
  cases List.length_eq_zero_iff.mp hn
  cases answers_nil hw
  exact leads_pass h hm

/-- The plan of one command: its exchange, then a step that writes the session. -/
theorem leads_command {m : Micro} {b : Byte} {σ' : SessionState} {replies : List RxFrame} (hn : replies.length = 1)
    (hw : answers (exchangeNeeds c replies) w = true) (hx : ∀ x ∈ replies, replyAccepted c x = true)
    (hm : ∀ t, At c req t ⟨m :: todo, env, .drivenLow, .released, none, rep, σ⟩ →
      Leads c req t [] ⟨todo, env, .drivenLow, .released, none, rep, σ'⟩)
    (h : At c req s ⟨.sendCmd b :: m :: todo, w ++ env, dc, dd, none, rep, σ⟩) :
    LeadsPlan c req s ([b], σ') replies todo env dc dd rep := by
  obtain ⟨x, rfl⟩ := List.length_eq_one_iff.mp hn
  simp only [exchangeNeeds_cons, exchangeNeeds_nil, List.append_nil] at hw
  simp only [LeadsPlan, exchangeEvents, List.zip_cons_cons, List.zip_nil_left, List.map_cons, List.map_nil,
    List.flatten_cons, List.flatten_nil, List.append_nil]
  exact (leads_sendCmd hw (hx x (by simp)) h).bindSilent hm

/-- R95: `enable_reporting()`. -/
theorem leads_enable {replies : List RxFrame} (hn : replies.length = (enablePlan c σ).1.length)
    (hw : answers (exchangeNeeds c replies) w = true) (hx : ∀ x ∈ replies, replyAccepted c x = true)
    (h : At c req s ⟨.enableReporting :: todo, w ++ env, dc, dd, none, rep, σ⟩) :
    LeadsPlan c req s (enablePlan c σ) replies todo env dc dd rep := by
  have hE := session_enabled h
  cases he : σ.enabled with
  | true =>
    simp only [enablePlan, he, if_true] at hn ⊢
    refine leads_skip hn hw h ?_
    simp only [Micro.tick_enableReporting, stepEnableReporting, hE, he, if_true, State.stepped]
  | false =>
    simp only [enablePlan, he, Bool.false_eq_true, if_false, List.length_singleton] at hn ⊢
    have h1 := leads_push (body := [.sendCmd c.cmdEnable, .setEnabled]) h
      (by simp only [Micro.tick_enableReporting, stepEnableReporting, hE, he, Bool.false_eq_true, if_false, State.stepped,
        h.cfg])
    refine h1.silentBind fun t ht => leads_command hn hw hx (fun u hu => ?_) ht
    refine leads_silent (t := (u.stepped req todo).setEnabledFlags) hu (Micro.tick_setEnabled _)
      ⟨hu.cfg, rfl, hu.env, hu.clk, hu.dat, hu.frame, hu.report, ?_⟩ rfl rfl rfl rfl rfl rfl rfl
    simp only [State.session, State.setEnabledFlags, State.stepped, session_mode hu, session_initialized hu,
      session_disabled hu, otherFlag, hu.cfg] <;> rfl

/-- R96: `disable_reporting()`. -/
theorem leads_disable {replies : List RxFrame} (hn : replies.length = (disablePlan c σ).1.length)
    (hw : answers (exchangeNeeds c replies) w = true) (hx : ∀ x ∈ replies, replyAccepted c x = true)
    (h : At c req s ⟨.disableReporting :: todo, w ++ env, dc, dd, none, rep, σ⟩) :
    LeadsPlan c req s (disablePlan c σ) replies todo env dc dd rep := by
  have hD := session_disabled h
  cases he : σ.disabled with
  | true =>
    simp only [disablePlan, he, if_true] at hn ⊢
    refine leads_skip hn hw h ?_
    simp only [Micro.tick_disableReporting, stepDisableReporting, hD, he, if_true, State.stepped]
  | false =>
    simp only [disablePlan, he, Bool.false_eq_true, if_false, List.length_singleton] at hn ⊢
    have h1 := leads_push (body := [.sendCmd c.cmdDisable, .setDisabled]) h
      (by simp only [Micro.tick_disableReporting, stepDisableReporting, hD, he, Bool.false_eq_true, if_false,
        State.stepped, h.cfg])
    refine h1.silentBind fun t ht => leads_command hn hw hx (fun u hu => ?_) ht
    refine leads_silent (t := (u.stepped req todo).setDisabledFlags) hu (Micro.tick_setDisabled _)
      ⟨hu.cfg, rfl, hu.env, hu.clk, hu.dat, hu.frame, hu.report, ?_⟩ rfl rfl rfl rfl rfl rfl rfl
    simp only [State.session, State.setDisabledFlags, State.stepped, session_mode hu, session_initialized hu,
      session_enabled hu, otherFlag, hu.cfg] <;> rfl

/-- R94: `pause()`. -/
theorem leads_pause {replies : List RxFrame} (hn : replies.length = (pausePlan c σ).1.length)
    (hw : answers (exchangeNeeds c replies) w = true) (hx : ∀ x ∈ replies, replyAccepted c x = true)
    (h : At c req s ⟨.pause :: todo, w ++ env, dc, dd, none, rep, σ⟩) :
    LeadsPlan c req s (pausePlan c σ) replies todo env dc dd rep := by
  have hm := session_mode h
  cases hmode : σ.mode with
  | polled =>
    simp only [pausePlan, hmode, reduceCtorEq, if_false] at hn ⊢
    refine leads_skip hn hw h ?_
    simp only [Micro.tick_pause, stepPause, State.stepped, hm, hmode]
  | continuous =>
    simp only [pausePlan, hmode, if_true] at hn ⊢
    have h1 := leads_push (body := [.disableReporting]) h
      (by simp only [Micro.tick_pause, stepPause, State.stepped, hm, hmode])
    exact h1.silentBind fun t ht => leads_disable hn hw hx ht

/-- R94: `resume()`. -/
theorem leads_resume {replies : List RxFrame} (hn : replies.length = (resumePlan c σ).1.length)
    (hw : answers (exchangeNeeds c replies) w = true) (hx : ∀ x ∈ replies, replyAccepted c x = true)
    (h : At c req s ⟨.resume :: todo, w ++ env, dc, dd, none, rep, σ⟩) :
    LeadsPlan c req s (resumePlan c σ) replies todo env dc dd rep := by
  have hm := session_mode h
  cases hmode : σ.mode with
  | polled =>
    simp only [resumePlan, hmode, reduceCtorEq, if_false] at hn ⊢
    refine leads_skip hn hw h ?_
    simp only [Micro.tick_resume, stepResume, State.stepped, hm, hmode]
  | continuous =>
    simp only [resumePlan, hmode, if_true] at hn ⊢
    have h1 := leads_push (body := [.enableReporting]) h
      (by simp only [Micro.tick_resume, stepResume, State.stepped, hm, hmode])
    exact h1.silentBind fun t ht => leads_enable hn hw hx ht

/-- The mode whose re-enable R91 step 3 decides on (C1, D19). -/
theorem leads_reenable {m : Mode} {replies : List RxFrame} {g : Mode}
    (hg : g = match c.reenableGuard with | .target => m | .recorded => σ.mode)
    (hn : replies.length = (if g = .continuous then enablePlan c σ else ([], σ)).1.length)
    (hw : answers (exchangeNeeds c replies) w = true) (hx : ∀ x ∈ replies, replyAccepted c x = true)
    (h : At c req s ⟨.reenable m :: todo, w ++ env, dc, dd, none, rep, σ⟩) :
    LeadsPlan c req s (if g = .continuous then enablePlan c σ else ([], σ)) replies todo env dc dd rep := by
  have hr : reenableMode (s.stepped req todo) m = g := by
    rw [hg]
    simp only [reenableMode, State.stepped, h.cfg, session_mode h] <;> rfl
  cases g with
  | polled =>
    simp only [reduceCtorEq, if_false] at hn ⊢
    refine leads_skip hn hw h ?_
    simp only [Micro.tick_reenable, stepReenable, hr]
  | continuous =>
    simp only [if_true] at hn ⊢
    have h1 := leads_push (body := [.enableReporting]) h (by simp only [Micro.tick_reenable, stepReenable, hr])
    exact h1.silentBind fun t ht => leads_enable hn hw hx ht

/-- The replies split as the bytes do. -/
theorem split_replies {a b : List Byte} {replies : List RxFrame} (hn : replies.length = (a ++ b).length) :
    ∃ r₁ r₂, replies = r₁ ++ r₂ ∧ r₁.length = a.length ∧ r₂.length = b.length := by
  refine ⟨replies.take a.length, replies.drop a.length, (List.take_append_drop ..).symm, ?_, ?_⟩ <;>
    simp at hn ⊢ <;> omega

theorem driveAfter_append (a b : List Byte) (l : Line) (d : Drive) :
    driveAfter (a ++ b) l d = driveAfter b l (driveAfter a l d) := by
  cases a <;> cases b <;> cases l <;> simp [driveAfter]

/-- Three plans in a row: an operation before, command bytes, an operation after. -/
theorem leads_bracket {first last : Micro} {p₁ p₂ : List Byte × SessionState} {bytes : List Byte}
    {replies : List RxFrame} (hn : replies.length = (p₁.1 ++ bytes ++ p₂.1).length)
    (hw : answers (exchangeNeeds c replies) w = true) (hx : ∀ x ∈ replies, replyAccepted c x = true)
    (hfirst : ∀ r w env, r.length = p₁.1.length → answers (exchangeNeeds c r) w = true →
      (∀ x ∈ r, replyAccepted c x = true) →
      At c req s ⟨first :: (bytes.map Micro.sendCmd ++ last :: todo), w ++ env, dc, dd, none, rep, σ⟩ →
      LeadsPlan c req s p₁ r (bytes.map Micro.sendCmd ++ last :: todo) env dc dd rep)
    (hlast : ∀ t r w env dc dd, r.length = p₂.1.length → answers (exchangeNeeds c r) w = true →
      (∀ x ∈ r, replyAccepted c x = true) → At c req t ⟨last :: todo, w ++ env, dc, dd, none, rep, p₁.2⟩ →
      LeadsPlan c req t p₂ r todo env dc dd rep)
    (h : At c req s ⟨first :: (bytes.map Micro.sendCmd ++ last :: todo), w ++ env, dc, dd, none, rep, σ⟩) :
    LeadsPlan c req s (p₁.1 ++ bytes ++ p₂.1, p₂.2) replies todo env dc dd rep := by
  obtain ⟨r₁₂, r₃, rfl, n12, n3⟩ := split_replies hn
  obtain ⟨r₁, r₂, rfl, n1, n2⟩ := split_replies n12
  rw [exchangeNeeds_append, exchangeNeeds_append] at hw
  obtain ⟨w₁₂, w₃, rfl, a12, a3⟩ := answers_append hw
  obtain ⟨w₁, w₂, rfl, a1, a2⟩ := answers_append a12
  simp only [LeadsPlan]
  rw [List.zip_append (by simp [n1, n2]), List.zip_append n1.symm]
  simp only [exchangeEvents_append, driveAfter_append, List.append_assoc]
  simp only [List.append_assoc] at h
  refine Leads.bind (hfirst r₁ w₁ _ n1 a1 (fun x hx' => hx x (by simp [hx'])) h) fun t ht => ?_
  refine (leads_sendCmds bytes n2 a2 (fun x hx' => hx x (by simp [hx'])) ht).bind fun u hu => ?_
  exact hlast u r₃ w₃ env _ _ n3 a3 (fun x hx' => hx x (by simp [hx'])) hu

/-- R97 to R100: a configuration command. -/
theorem leads_config {bytes : List Byte} {replies : List RxFrame}
    (hn : replies.length = (configPlan c bytes σ).1.length)
    (hw : answers (exchangeNeeds c replies) w = true) (hx : ∀ x ∈ replies, replyAccepted c x = true)
    (h : At c req s ⟨configBody bytes, w ++ env, dc, dd, none, rep, σ⟩) :
    LeadsPlan c req s (configPlan c bytes σ) replies [] env dc dd rep :=
  leads_bracket hn hw hx (fun _ _ _ hn hw hx h => leads_pause hn hw hx h)
    (fun _ _ _ _ _ _ hn hw hx h => leads_resume hn hw hx h) h

theorem disablePlan_mode (p : SessionState) : (disablePlan c p).2.mode = p.mode := by
  unfold disablePlan; split <;> rfl

theorem enablePlan_mode (p : SessionState) : (enablePlan c p).2.mode = p.mode := by
  unfold enablePlan; split <;> rfl

theorem pausePlan_mode (p : SessionState) : (pausePlan c p).2.mode = p.mode := by
  unfold pausePlan; split <;> simp [disablePlan_mode]

/-- R91 steps 1 to 3. -/
theorem leads_select {b : Byte} {m : Mode} {replies : List RxFrame}
    (hn : replies.length = (selectPlan c b m σ).1.length)
    (hw : answers (exchangeNeeds c replies) w = true) (hx : ∀ x ∈ replies, replyAccepted c x = true)
    (h : At c req s ⟨.selectMode b m :: todo, w ++ env, dc, dd, none, rep, σ⟩) :
    LeadsPlan c req s (selectPlan c b m σ) replies (.modeSettle :: todo) env dc dd rep := by
  refine Leads.silentBind (leads_push h (Micro.tick_selectMode _ b m)) fun t ht => ?_
  exact leads_bracket (first := .pause) (last := .reenable m) (bytes := [b]) hn hw hx
    (fun _ _ _ hn hw hx h => leads_pause hn hw hx h)
    (fun _ _ _ _ _ _ hn hw hx h => leads_reenable (by rw [pausePlan_mode] <;> rfl) hn hw hx h) ht

/-- R91 step 4. -/
theorem leads_settle (hw : answers (settleNeeds σ) w = true)
    (h : At c req s ⟨.modeSettle :: todo, w ++ env, dc, dd, f, rep, σ⟩) :
    Leads c req s (settleEvents c σ) ⟨todo, env, dc, dd, f, rep, σ⟩ := by
  have hi := session_initialized h
  cases he : σ.initialized with
  | false =>
    simp only [settleNeeds, settleEvents, he, Bool.false_eq_true, if_false] at hw ⊢
    cases answers_nil hw
    exact leads_pass h (by simp only [Micro.tick_modeSettle, stepModeSettle, State.stepped, hi, he, Bool.false_eq_true,
      if_false])
  | true =>
    simp only [settleNeeds, settleEvents, he, if_true] at hw ⊢
    obtain ⟨m, rfl⟩ := answers_any hw
    exact (leads_push (body := [.delay .modeSettle]) h
      (by simp only [Micro.tick_modeSettle, stepModeSettle, State.stepped, hi, he, if_true])).silentBind
      fun t ht => leads_delay ht

/-! ### What the plans keep -/

theorem enablePlan_init (p : SessionState) : (enablePlan c p).2.initialized = p.initialized := by
  unfold enablePlan; split <;> rfl

theorem disablePlan_init (p : SessionState) : (disablePlan c p).2.initialized = p.initialized := by
  unfold disablePlan; split <;> rfl

theorem pausePlan_init (p : SessionState) : (pausePlan c p).2.initialized = p.initialized := by
  unfold pausePlan; split
  · exact disablePlan_init p
  · rfl

theorem selectPlan_init (b : Byte) (m : Mode) (p : SessionState) :
    (selectPlan c b m p).2.initialized = p.initialized := by
  simp only [selectPlan]
  split
  all_goals split
  all_goals simp [enablePlan_init, pausePlan_init]

/-- R91: SELECT_MODE never writes `mode`. -/
theorem selectPlan_mode (b : Byte) (m : Mode) (p : SessionState) : (selectPlan c b m p).2.mode = p.mode := by
  simp only [selectPlan]
  split
  all_goals split
  all_goals simp [enablePlan_mode, pausePlan_mode]

theorem selectPlan_ne (b : Byte) (m : Mode) (p : SessionState) : (selectPlan c b m p).1 ≠ [] := by simp [selectPlan]

theorem configPlan_ne {bytes : List Byte} (hb : bytes ≠ []) (p : SessionState) : (configPlan c bytes p).1 ≠ [] := by
  simp [configPlan, hb]

theorem settleNeeds_eq {p q : SessionState} (h : p.initialized = q.initialized) : settleNeeds p = settleNeeds q := by
  simp [settleNeeds, h]

theorem settleEvents_eq {p q : SessionState} (h : p.initialized = q.initialized) :
    settleEvents c p = settleEvents c q := by
  simp [settleEvents, h]

/-- R92, R93: the mode write. -/
theorem leads_recordMode {m : Mode} (h : At c req s ⟨.recordMode m :: todo, env, dc, dd, f, rep, σ⟩) :
    Leads c req s [] ⟨todo, env, dc, dd, f, rep, { σ with mode := m }⟩ := by
  refine leads_silent (t := { s.stepped req todo with mode := m }) h (Micro.tick_recordMode _ m)
    ⟨h.cfg, rfl, h.env, h.clk, h.dat, h.frame, h.report, ?_⟩ rfl rfl rfl rfl rfl rfl rfl
  simp only [State.session, State.stepped, session_initialized h, session_enabled h, session_disabled h]

/-- R92, R93: SELECT_MODE, then the mode write. -/
theorem leads_setMode {b : Byte} {m : Mode} {replies : List RxFrame} (hn : replies.length = (selectPlan c b m σ).1.length)
    (hw : answers (exchangeNeeds c replies ++ settleNeeds σ) w = true) (hx : ∀ x ∈ replies, replyAccepted c x = true)
    (h : At c req s ⟨.selectMode b m :: .recordMode m :: todo, w ++ env, dc, dd, none, rep, σ⟩) :
    Leads c req s (exchangeEvents c ((selectPlan c b m σ).1.zip replies) ++ settleEvents c σ)
      ⟨todo, env, .drivenLow, .released, none, rep, { (selectPlan c b m σ).2 with mode := m }⟩ := by
  obtain ⟨w₁, w₂, rfl, a1, a2⟩ := answers_append hw
  rw [List.append_assoc] at h
  have := (leads_select hn a1 hx h).bind fun u hu =>
    (leads_settle (by rw [settleNeeds_eq (selectPlan_init b m σ)]; exact a2) hu).bindSilent fun v hv => leads_recordMode hv
  rw [settleEvents_eq (selectPlan_init b m σ)] at this
  simpa [driveAfter, selectPlan_ne] using this

/-- R90 step 7. -/
theorem leads_markInitialized (h : At c req s ⟨.markInitialized :: todo, env, dc, dd, f, rep, σ⟩) :
    Leads c req s [] ⟨todo, env, dc, dd, f, rep, { σ with initialized := true }⟩ := by
  refine leads_silent (t := { s.stepped req todo with initialized := true }) h (Micro.tick_markInitialized _)
    ⟨h.cfg, rfl, h.env, h.clk, h.dat, h.frame, h.report, ?_⟩ rfl rfl rfl rfl rfl rfl rfl
  simp only [State.session, State.stepped, session_mode h, session_enabled h, session_disabled h]

/-! ### From where a request starts to where it ends -/

/-- R26: a request starts at its first pseudocode step. -/
theorem at_start {i : Instr} (hf : s.frame = none) (hr : s.report = none) (he : s.env = env) :
    At s.cfg i { s with pos := .busy i (requestBody i s) }
      ⟨requestBody i s, env, s.driveClk, s.driveDat, none, none, s.session⟩ :=
  ⟨rfl, rfl, he, rfl, rfl, hf, hr, rfl⟩

/-- A request that leads to a last step which ends it: what exec answers. -/
theorem exec_ends {i : Instr} {bus : List Event} {p : Spot} {r : Response} (hpos : s.pos = .idle) (hf : s.frame = none)
    (hr : s.report = none) (he : s.env = env)
    (h : At s.cfg i { s with pos := .busy i (requestBody i s) }
        ⟨requestBody i s, env, s.driveClk, s.driveDat, none, none, s.session⟩ →
      Leads s.cfg i { s with pos := .busy i (requestBody i s) } bus p)
    (hend : ∀ t, At s.cfg i t p → t.tick = .moved (t.finish r.code r.payload)) :
    ∃ t, exec i s = .next t ∧ Ended s t p.env r bus ∧ t.driveClk = p.clk ∧ t.driveDat = p.dat ∧ t.session = p.session := by
  obtain ⟨t, hreach, hc, ht⟩ := h (at_start hf hr he)
  have htick := hend t ht
  refine ⟨t.finish r.code r.payload, exec_of_reaches hpos (hreach.trans (State.Moves.reaches htick)) rfl, ?_, ht.clk,
    ht.dat, ht.session⟩
  exact ⟨rfl, rfl, rfl, ht.env, by simp [hc.responses], hc.bus, hc.clockPin, hc.dataPin, hc.cfg, hc.requests,
    hc.freeMoves, hc.time⟩

/-- R57: with no step left the engine responds OK. -/
theorem end_ok {i : Instr} {t : State} {p : Spot} (h : At c i t p) (hp : p.todo = []) :
    t.tick = .moved (t.finish .ok .none) :=
  State.tick_done (h.pos.trans (by rw [hp]))

/-- R57: the response step. -/
theorem end_respond {i : Instr} {t : State} {q : Payload} {p : Spot} (h : At c i t p)
    (hp : p.todo = .respond q :: todo) : t.tick = .moved (t.finish .ok q) :=
  by rw [State.tick_busy (h.pos.trans (by rw [hp]))]; rfl

/-- R101: the report's response. -/
theorem end_report {i : Instr} {t : State} {r : Report} {p : Spot} (h : At c i t p)
    (hp : p.todo = .respondReport :: todo) (hr : p.report = some r) : t.tick = .moved (t.finish .ok (.report r)) := by
  have h1 := h.report.trans hr
  rw [State.tick_busy (h.pos.trans (by rw [hp]))]
  simp only [Micro.tick_respondReport, stepRespondReport, h1]
  rfl

end Sys2Proof.Machine
end

