-- ==== Sys2Proof/Laws/Ends.lean ====
section
/-! SUPPORT. How a request ends: the run that leads to its last atomic step, whether that responds or raises (spec/60_exceptions.md
R111), and the expiry of a bounded wait (spec/41_bit_transfer.md R72, R73); and the wait that never ends (spec/70_reset_and_hazards.md
R128). -/

namespace Sys2Proof.Machine

/-- From `s` the engine ends its request with the response `r`, adding the events `bus` and leaving the moves `env`, the drives
and the session given. -/
def Finishes (c : Config) (s : State) (bus : List Event) (r : Response) (env : List EnvMove) (dc dd : Drive)
    (σ : SessionState) : Prop :=
  ∃ u, s.Reaches (u.finish r.code r.payload) ∧ Carried s u bus ∧ u.cfg = c ∧ u.env = env ∧ u.driveClk = dc ∧
    u.driveDat = dd ∧ u.session = σ

variable {c : Config} {req : Instr} {s : State} {todo : List Micro} {env w rest : List EnvMove} {dc dd : Drive}
  {f : Option Frame} {rep : Option Report} {σ : SessionState} {a b bus : List Event} {p : Spot} {r : Response}

/-- Sequencing: from the spot reached, the request ends. -/
theorem Leads.ends (h : Leads c req s a p) (g : ∀ t, At c req t p → Finishes c t b r env dc dd σ) :
    Finishes c s (a ++ b) r env dc dd σ := by
  obtain ⟨t, hr, hc, ht⟩ := h
  obtain ⟨u, gr, gc, gu⟩ := g t ht
  exact ⟨u, hr.trans gr, hc.trans gc, gu⟩

/-- The last step ends the request where it stands. -/
theorem At.ends (h : At c req s p) (ht : s.tick = .moved (s.finish r.code r.payload)) :
    Finishes c s [] r p.env p.clk p.dat p.session :=
  ⟨s, State.Moves.reaches ht, .refl s, h.cfg, h.env, h.clk, h.dat, h.session⟩

/-- A request that ends: what exec answers. -/
theorem exec_finishes {i : Instr} (h : s.Ready w rest)
    (hl : At s.cfg i { s with pos := .busy i (requestBody i s) }
        ⟨requestBody i s, w ++ rest, s.driveClk, s.driveDat, none, none, s.session⟩ →
      Finishes s.cfg { s with pos := .busy i (requestBody i s) } bus r env dc dd σ) :
    ∃ t, exec i s = .next t ∧ Ended s t env r bus ∧ t.driveClk = dc ∧ t.driveDat = dd ∧ t.session = σ := by
  obtain ⟨hf, hr⟩ := h.inv.idle h.idle
  obtain ⟨u, hreach, hc, hcfg, henv, hclk, hdat, hses⟩ := hl (at_start hf hr h.env)
  exact ⟨u.finish r.code r.payload, exec_of_reaches h.idle hreach rfl,
    ⟨rfl, rfl, rfl, henv, by simp [hc.responses], hc.bus, hc.clockPin, hc.dataPin, hc.cfg, hc.requests, hc.freeMoves, hc.time⟩,
    hclk, hdat, hses⟩

/-- A request that leads to its last step: what exec answers. -/
theorem exec_leads {i : Instr} (h : s.Ready w rest)
    (hl : At s.cfg i { s with pos := .busy i (requestBody i s) }
        ⟨requestBody i s, w ++ rest, s.driveClk, s.driveDat, none, none, s.session⟩ →
      Leads s.cfg i { s with pos := .busy i (requestBody i s) } bus p)
    (hend : ∀ t, At s.cfg i t p → t.tick = .moved (t.finish r.code r.payload)) :
    ∃ t, exec i s = .next t ∧ Ended s t p.env r bus ∧ t.driveClk = p.clk ∧ t.driveDat = p.dat ∧ t.session = p.session :=
  exec_finishes h fun hat => by
    have := (hl hat).ends fun t ht => ht.ends (hend t ht)
    simpa using this

theorem met_late {drv : Line → Drive} {m : EnvMove} {n : Time} (h : Need.met drv m (.late n) = true) : n ≤ m.dt := by
  simpa [Need.met] using h

theorem met_other {l : Line} {m : EnvMove} {v : Level} (h : s.levelAt l m = otherLevel v) : s.levelAt l m ≠ v := by
  rw [h]; cases v <;> nofun

theorem Config.noWrap_append (h : c.noWrap (w ++ rest)) : c.noWrap w ∧ c.noWrap rest := by
  have hs : ((w ++ rest).map EnvMove.dt).sum = (w.map EnvMove.dt).sum + (rest.map EnvMove.dt).sum := by simp
  exact ⟨fun n hn => Nat.lt_of_le_of_lt (Nat.le_add_right _ _) (hs ▸ h n hn),
    fun n hn => Nat.lt_of_le_of_lt (Nat.le_add_left _ _) (hs ▸ h n hn)⟩

/-- R72: the bounded wait that expires at its first deadline check, up to its verdict. -/
theorem leads_expire {drv : Line → Drive} {l : Line} {v : Level} {t : Time} {use : WaitUse} (htw : c.noWrap w)
    (hw : answersAt drv [.any, .reads l (otherLevel v), .late t] w = true)
    (h : At c req s ⟨.bwait l v t use :: todo, w ++ env, dc, dd, f, rep, σ⟩) (hl : lineDrive dc dd l = drv l) :
    ∃ u, s.Reaches (waitDone use false u) ∧ Carried s u [.smp l (otherLevel v)] ∧
      At c req u ⟨todo, env, dc, dd, f, rep, σ⟩ := by
  obtain ⟨m₁, w', rfl, -, hw⟩ := answers_cons hw
  obtain ⟨m₂, w', rfl, h2, hw⟩ := answers_cons hw
  obtain ⟨m₃, w', rfl, h3, hw⟩ := answers_cons hw
  cases answers_nil hw
  have first : ∃ u, s.Reaches u ∧ Carried s u [] ∧
      At c req u ⟨.bwaitSample l v t (clockReading c u.now) use :: todo, m₂ :: m₃ :: env, dc, dd, f, rep, σ⟩ := by
    have htick := tick_onNow h rfl rfl (Micro.tick_bwait _ l v t use)
    refine ⟨_, State.Moves.reaches htick, ⟨rfl, rfl, rfl, rfl, rfl, rfl, ⟨[.now _], rfl, rfl⟩, by simp [State.stepped]⟩,
      ⟨h.cfg, ?_, rfl, h.clk, h.dat, h.frame, h.report, h.session⟩⟩
    rw [h.cfg]; rfl
  obtain ⟨u, ur, uc, hu⟩ := first
  have second : ∃ x, u.Reaches x ∧ Carried u x [.smp l (otherLevel v)] ∧ x.now = u.now + m₂.dt ∧
      At c req x ⟨.bwaitCheck l v t (clockReading c u.now) use :: todo, m₃ :: env, dc, dd, f, rep, σ⟩ := by
    have htick := tick_onSample hu rfl rfl (Micro.tick_bwaitSample _ l v t _ use)
    rw [level_of_met ((hu.drive l).trans hl) h2, if_neg (by cases v <;> nofun)] at htick
    exact ⟨_, State.Moves.reaches htick,
      ⟨rfl, rfl, rfl, rfl, rfl, rfl, ⟨[.smp l (otherLevel v)], rfl, rfl⟩, by simp [State.stepped]⟩, rfl,
      ⟨hu.cfg, rfl, rfl, hu.clk, hu.dat, hu.frame, hu.report, hu.session⟩⟩
  obtain ⟨x, xr, xc, xn, hx⟩ := second
  have htick := tick_onNow hx rfl rfl (Micro.tick_bwaitCheck _ l v t _ use)
  have hlate : t ≤ elapsed c (clockReading c u.now) (clockReading c (x.now + m₃.dt)) := by
    have hspan : x.now + m₃.dt = u.now + (m₂.dt + m₃.dt) := by rw [xn, Nat.add_assoc]
    have hsub : u.now + (m₂.dt + m₃.dt) - u.now = m₂.dt + m₃.dt := Nat.add_sub_cancel_left ..
    rw [hspan, elapsed_of_lt (Nat.le_add_right _ _) fun n hn => ?_, hsub]
    · exact Nat.le_trans (met_late h3) (Nat.le_add_left _ _)
    · rw [hsub]
      refine Nat.lt_of_le_of_lt ?_ (htw n hn)
      simp
  rw [show ((State.absorb (x.stepped req todo) m₃ env).emit (.now (clockReading x.cfg (x.now + m₃.dt)))).cfg = c from hx.cfg,
    hx.cfg, if_pos hlate] at htick
  refine ⟨_, ur.trans (xr.trans (State.Moves.reaches htick)), (uc.trans xc).trans
    ⟨rfl, rfl, rfl, rfl, rfl, rfl, ⟨[.now _], rfl, rfl⟩, by simp [State.stepped]⟩,
    ⟨hx.cfg, rfl, rfl, hx.clk, hx.dat, hx.frame, hx.report, hx.session⟩⟩

/-- R73, R110, R111: a transfer wait that expires raises BusTimeout where the request stands. -/
theorem wait_expires {drv : Line → Drive} {l : Line} {v : Level} (hb : c.waitPolicy = .bounded) (htw : c.noWrap w)
    (hw : answersAt drv (timeoutNeeds c l v) w = true)
    (h : At c req s ⟨.wait l v :: todo, w ++ env, dc, dd, f, rep, σ⟩) (hl : lineDrive dc dd l = drv l) :
    Finishes c s [.smp l (otherLevel v)] ⟨.busTimeout, .none⟩ env dc dd σ := by
  have h1 := leads_push h (Micro.tick_wait _ l v)
  rw [show (s.stepped req todo).cfg = c from h.cfg] at h1
  simp only [waitLoop, hb, List.singleton_append] at h1
  refine h1.ends (a := []) fun t ht => ?_
  obtain ⟨u, hr, hc, hu⟩ := leads_expire htw hw ht hl
  exact ⟨u, hr, hc, hu.cfg, hu.env, hu.clk, hu.dat, hu.session⟩

/-- R73, R110, R111: a transfer wait whose second of two waits expires. -/
theorem pulse_expires {drv : Line → Drive} (hb : c.waitPolicy = .bounded) (htw : c.noWrap w)
    (hw : answersAt drv (waitNeeds c .clk .low ++ timeoutNeeds c .clk .high) w = true)
    (h : At c req s ⟨.wait .clk .low :: .wait .clk .high :: todo, w ++ env, dc, dd, f, rep, σ⟩) (hl : dc = drv .clk) :
    Finishes c s [.smp .clk .low, .smp .clk .low] ⟨.busTimeout, .none⟩ env dc dd σ := by
  obtain ⟨w₁, w₂, rfl, a1, a2⟩ := answers_append hw
  rw [List.append_assoc] at h
  exact (leads_wait a1 h hl).ends (a := [_]) fun t ht => wait_expires hb (Config.noWrap_append htw).2 a2 ht hl

/-- R79: a received bit whose second wait expires. -/
theorem recvBit_expires {drv : Line → Drive} {dst : BitDst} {b : Bool} (hb : c.waitPolicy = .bounded) (htw : c.noWrap w)
    (hw : answersAt drv (waitNeeds c .clk .low ++ [.reads .dat (Level.ofBit b)] ++ timeoutNeeds c .clk .high) w = true)
    (h : At c req s ⟨.recvBit dst :: todo, w ++ env, dc, dd, f, rep, σ⟩) (hl : ∀ l, lineDrive dc dd l = drv l) :
    Finishes c s [.smp .clk .low, .smp .dat (Level.ofBit b), .smp .clk .low] ⟨.busTimeout, .none⟩ env dc dd σ := by
  obtain ⟨w₁, w₂, rfl, a1, a2⟩ := answers_append hw
  refine (leads_sampledBit a1 (by rwa [List.append_assoc] at h) hl).ends (a := [_, _]) fun t ht => ?_
  exact wait_expires hb (Config.noWrap_append htw).2 a2 ht (hl .clk)

/-! ### Waits that never end (R128) -/

/-- From `s` the engine uses up the placed moves inside its request, adding the events `bus` and leaving the drives and the session
given. -/
def Hangs (c : Config) (req : Instr) (s : State) (bus : List Event) (dc dd : Drive) (σ : SessionState) : Prop :=
  ∃ u, s.Reaches u ∧ Carried s u bus ∧ u.tick = .awaiting ∧ (∃ todo, u.pos = .busy req todo) ∧ u.env = [] ∧ u.driveClk = dc ∧
    u.driveDat = dd ∧ u.session = σ

/-- Sequencing: from the spot reached, the request hangs. -/
theorem Leads.hangs (h : Leads c req s a p) (g : ∀ t, At c req t p → Hangs c req t b dc dd σ) :
    Hangs c req s (a ++ b) dc dd σ := by
  obtain ⟨t, hr, hc, ht⟩ := h
  obtain ⟨u, gr, gc, gu⟩ := g t ht
  exact ⟨u, hr.trans gr, hc.trans gc, gu⟩

/-- A request that hangs: what exec answers. -/
theorem exec_hangs {i : Instr} (h : s.Ready w rest)
    (hl : At s.cfg i { s with pos := .busy i (requestBody i s) }
        ⟨requestBody i s, w ++ rest, s.driveClk, s.driveDat, none, none, s.session⟩ →
      Hangs s.cfg i { s with pos := .busy i (requestBody i s) } bus dc dd s.session) :
    ∃ t, exec i s = .next t ∧ Hung i s t bus ∧ t.driveClk = dc ∧ t.driveDat = dd := by
  obtain ⟨hf, hr⟩ := h.inv.idle h.idle
  obtain ⟨u, hreach, hc, hawait, hpos, henv, hclk, hdat, hses⟩ := hl (at_start hf hr h.env)
  exact ⟨u, exec_of_halted h.idle hreach (.inr hawait),
    ⟨hpos, henv, hc.responses, hc.bus, hses, hc.clockPin, hc.dataPin, hc.cfg, hc.requests, hc.freeMoves, hc.time⟩, hclk, hdat⟩

/-- R73: the unbounded loop, where no placed move brings its level. -/
theorem poll_hangs {l : Line} {v : Level} : ∀ {never : List EnvMove} {s : State},
    (∀ m ∈ never, resolveLevel (lineDrive dc dd l) (devDrive m l) m.draw = otherLevel v) →
    At c req s ⟨.poll l v :: todo, never, dc, dd, f, rep, σ⟩ →
    Hangs c req s (never.map fun _ => .smp l (otherLevel v)) dc dd σ
  | [], s, _, h => by
    refine ⟨s, .refl s, .refl s, ?_, ⟨_, h.pos⟩, h.env, h.clk, h.dat, h.session⟩
    have henv : s.env = [] := h.env
    rw [State.tick_busy h.pos, Micro.tick_poll]
    simp only [State.onSample, henv]
  | m :: never, s, hn, h => by
    have hlevel : s.levelAt l m = otherLevel v := by
      have := hn m (by simp)
      rwa [← h.drive l] at this
    have htick := tick_onSample h rfl rfl (Micro.tick_poll _ l v)
    rw [hlevel, if_neg (by cases v <;> nofun)] at htick
    have turn : Leads c req s [.smp l (otherLevel v)] ⟨.poll l v :: todo, never, dc, dd, f, rep, σ⟩ :=
      .tick htick ⟨rfl, rfl, rfl, rfl, rfl, rfl, ⟨[.smp l (otherLevel v)], rfl, rfl⟩, by simp [State.stepped]⟩
        ⟨h.cfg, rfl, rfl, h.clk, h.dat, h.frame, h.report, h.session⟩
    exact turn.hangs fun t ht => poll_hangs (fun m hm => hn m (by simp [hm])) ht

/-- R73, R128: a transfer wait under Unbounded, where no placed move brings its level. -/
theorem wait_hangs {l : Line} {v : Level} {never : List EnvMove} (hu : c.waitPolicy = .unbounded)
    (hn : ∀ m ∈ never, resolveLevel (lineDrive dc dd l) (devDrive m l) m.draw = otherLevel v)
    (h : At c req s ⟨.wait l v :: todo, never, dc, dd, f, rep, σ⟩) :
    Hangs c req s (never.map fun _ => .smp l (otherLevel v)) dc dd σ := by
  have h1 := leads_push h (Micro.tick_wait _ l v)
  rw [show (s.stepped req todo).cfg = c from h.cfg] at h1
  simp only [waitLoop, hu, List.singleton_append] at h1
  exact h1.hangs (a := []) fun t ht => poll_hangs hn ht

/-! ### Waits that expire inside a write -/

/-- R81: a write whose step 5 expires. -/
theorem writeByte_expires {v : Byte} (hb : c.waitPolicy = .bounded) (htw : c.noWrap w)
    (hw : answers (startNeeds ++ timeoutNeeds c .clk .low) w = true)
    (h : At c req s ⟨.writeByte v :: todo, w ++ env, dc, dd, f, rep, σ⟩) :
    Finishes c s (writeStartEvents c ++ [.smp .clk .high]) ⟨.busTimeout, .none⟩ env .released .drivenLow σ := by
  obtain ⟨w₁, w₂, rfl, a1, a2⟩ := answers_append hw
  rw [List.append_assoc] at h
  exact (leads_writeStart a1 h).ends fun t ht => wait_expires hb (Config.noWrap_append htw).2 a2 ht rfl

/-- The pseudocode steps of the ten slots a write clocks out (R81 steps 6 to 8). -/
def slotSteps : List (List Micro) :=
  (bitIndices.map fun i => [Micro.sendData i]) ++ [[.sendParity], [.rel .dat, .wait .clk .low, .wait .clk .high]]

/-- R81 step 6: the accumulated parity of the first `k` data bits. -/
def parityUpTo (v : Byte) (k : Nat) : Bool := (bitIndices.take k).foldl (fun acc i => acc ^^ byteBit v i) true

/-- The frame of a write whose first `k` slots are done. -/
def WriteFrame (v : Byte) (k : Nat) (f : Option Frame) : Prop := ∃ j, f = some ⟨v, some (parityUpTo v k), none, j⟩

/-- R81 steps 6 to 8: slot `k` up to its clock pulse, and what is left of it after the pulse. -/
theorem leads_slotOpen {v : Byte} {k : Nat} (hk : k < 10) (hf : WriteFrame v k f)
    (h : At c req s ⟨(slotSteps.drop k).flatten ++ todo, env, .released, dd, f, rep, σ⟩) :
    ∃ dd' f' last, some dd' = lastDrive .dat [slotEvent c v k] ∧
      Leads c req s [slotEvent c v k]
        ⟨.wait .clk .low :: .wait .clk .high :: last, env, .released, dd', f', rep, σ⟩ ∧
      ∀ t env dd, At c req t ⟨last, env, .released, dd, f', rep, σ⟩ →
        ∃ f'', WriteFrame v (k + 1) f'' ∧
          Leads c req t [] ⟨(slotSteps.drop (k + 1)).flatten ++ todo, env, .released, dd, f'', rep, σ⟩ := by
  obtain ⟨j, rfl⟩ := hf
  have present : ∀ {s : State} {b : Bool} {f : Option Frame} {last : List Micro},
      At c req s ⟨.sendBit b :: last, env, .released, dd, f, rep, σ⟩ →
      Leads c req s [presentEvent c b]
        ⟨.wait .clk .low :: .wait .clk .high :: last, env, .released, presentDrive c b, f, rep, σ⟩ := fun h =>
    (leads_push h (Micro.tick_sendBit _ _)).silentBind fun _ ht => leads_present ht
  have driven : ∀ b, some (presentDrive c b) = lastDrive .dat [presentEvent c b] := by
    intro b; cases b <;> cases hd : c.dataOne <;> simp [presentDrive, presentEvent, hd, lastDrive]
  by_cases h8 : k < 8
  · have hev : slotEvent c v k = presentEvent c (byteBit v ⟨k, h8⟩) := by simp [slotEvent, h8, byteBit]
    have hdrop : (slotSteps.drop k).flatten = .sendData ⟨k, h8⟩ :: (slotSteps.drop (k + 1)).flatten := by
      interval_cases k <;> rfl
    have hpar : parityUpTo v (k + 1) = (parityUpTo v k ^^ byteBit v ⟨k, h8⟩) := by
      interval_cases k <;> rfl
    rw [hdrop, List.cons_append] at h
    have hf := h.frame
    have h1 : Leads c req s [] ⟨.sendBit (byteBit v ⟨k, h8⟩) :: .accumulate ⟨k, h8⟩ ::
        ((slotSteps.drop (k + 1)).flatten ++ todo), env, .released, dd, some ⟨v, some (parityUpTo v k), none, ⟨k, h8⟩⟩, rep,
        σ⟩ := by
      refine leads_silent (t := ({ s.stepped req ((slotSteps.drop (k + 1)).flatten ++ todo) with
        frame := some ⟨v, some (parityUpTo v k), none, ⟨k, h8⟩⟩ } : State).push
        [.sendBit (byteBit v ⟨k, h8⟩), .accumulate ⟨k, h8⟩]) h ?_
        ⟨h.cfg, rfl, h.env, h.clk, h.dat, rfl, h.report, h.session⟩ rfl rfl rfl rfl rfl rfl rfl
      simp only [Micro.tick_sendData, stepSendData, hf, State.stepped]
    refine ⟨_, _, _, (driven _).trans (by rw [hev]), hev ▸ h1.silentBind fun t ht => present ht, fun t env dd ht => ?_⟩
    refine ⟨_, ⟨⟨k, h8⟩, rfl⟩, leads_frame ht ?_⟩
    have hf := ht.frame
    simp only [Micro.tick_accumulate, stepAccumulate, hf, State.stepped, hpar]
  · by_cases h9 : k = 8
    · subst h9
      have hf := h.frame
      have lb := leads_push (body := [.sendBit (oddParity v)]) (m := .sendParity)
        (todo := .rel .dat :: .wait .clk .low :: .wait .clk .high :: todo) h
        (by simp only [Micro.tick_sendParity, stepSendParity, hf, State.stepped]; rw [← foldl_parity]; rfl)
      refine ⟨_, _, _, driven (oddParity v), lb.silentBind fun t ht => present ht, fun t env dd ht => ?_⟩
      exact ⟨_, ⟨j, rfl⟩, .refl ht⟩
    · obtain rfl : k = 9 := by omega
      exact ⟨_, _, todo, rfl, leads_rel_dat h, fun t env dd ht => ⟨_, ⟨j, rfl⟩, .refl ht⟩⟩

/-- R68, R81: the data line is driven as the last of the first `k` slots says. -/
def SlotDrive (c : Config) (v : Byte) (k : Nat) (dd : Drive) : Prop :=
  ∀ j, k = j + 1 → some dd = lastDrive .dat [slotEvent c v j]

/-- R81 steps 6 to 8: the first `k` slots of a write. -/
theorem leads_slots {v : Byte} : ∀ (k : Nat) {s : State} {w env : List EnvMove} {dd : Drive}, k ≤ 10 →
    answers (List.replicate k (pulseNeeds c)).flatten w = true → WriteFrame v 0 f →
    At c req s ⟨slotSteps.flatten ++ todo, w ++ env, .released, dd, f, rep, σ⟩ →
    ∃ dd' f', WriteFrame v k f' ∧ SlotDrive c v k dd' ∧
      Leads c req s (slotsBefore c v k) ⟨(slotSteps.drop k).flatten ++ todo, env, .released, dd', f', rep, σ⟩
  | 0, s, w, env, dd, _, hw, hf, h => by
    cases answers_nil hw
    exact ⟨dd, f, hf, nofun, .refl h⟩
  | k + 1, s, w, env, dd, hk, hw, hf, h => by
    rw [List.replicate_succ', List.flatten_append, List.flatten_singleton] at hw
    obtain ⟨w₁, w₂, rfl, a1, a2⟩ := answers_append hw
    rw [List.append_assoc] at h
    obtain ⟨dd', f', hf', -, t, hr, hc, ht⟩ := leads_slots k (by omega) a1 hf h
    obtain ⟨dd'', f'', last, hd, hl, hlast⟩ := leads_slotOpen (by omega) hf' ht
    obtain ⟨u, ur, uc, hu⟩ := hl.bind fun x hx => leads_pulse a2 hx rfl
    obtain ⟨f₃, hf₃, x, xr, xc, hx⟩ := hlast u _ _ hu
    refine ⟨dd'', f₃, hf₃, fun j hj => by cases hj; exact hd, x, hr.trans (ur.trans xr), ?_, hx⟩
    have := (hc.trans uc).trans xc
    simpa [slotsBefore, List.range_succ] using this

/-- R81: a write up to slot `k`. -/
theorem leads_writeSlots {v : Byte} {k : Nat} (hk : k ≤ 10)
    (hw : answers (startNeeds ++ waitNeeds c .clk .low ++ (List.replicate k (pulseNeeds c)).flatten) w = true)
    (h : At c req s ⟨.writeByte v :: todo, w ++ env, dc, dd, f, rep, σ⟩) :
    ∃ dd' f', WriteFrame v k f' ∧ SlotDrive c v k dd' ∧ Leads c req s (writeStartEvents c ++ [.smp .clk .low] ++ slotsBefore c v k)
      ⟨(slotSteps.drop k).flatten ++ (.wait .dat .low :: .low .clk :: .closeFrame :: todo), env, .released, dd', f', rep,
        σ⟩ := by
  obtain ⟨w₁, w₂, rfl, a, a3⟩ := answers_append hw
  obtain ⟨w₀, w₁, rfl, a1, a2⟩ := answers_append a
  rw [List.append_assoc, List.append_assoc] at h
  have open_ : Leads c req s (writeStartEvents c ++ [.smp .clk .low]) ⟨slotSteps.flatten ++
      (.wait .dat .low :: .low .clk :: .closeFrame :: todo), w₂ ++ env, .released, .drivenLow,
      some ⟨v, some true, none, 0⟩, rep, σ⟩ :=
    (leads_writeStart a1 h).bind fun t ht => (leads_wait a2 ht rfl).bindSilent fun u hu =>
      leads_frame hu (Micro.tick_openWrite _ v)
  obtain ⟨t, hr, hc, ht⟩ := open_
  obtain ⟨dd', f', hf', hd, u, ur, uc, hu⟩ := leads_slots k hk a3 ⟨0, rfl⟩ ht
  exact ⟨dd', f', hf', hd, u, hr.trans ur, hc.trans uc, hu⟩

/-! ### Waits that expire inside a read -/

/-- Bits that go into the frame. -/
def BitDst.framed : BitDst → Bool
  | .data _ | .parity | .stop => true
  | .result => false

/-- R83 steps 3 and 4: several received bits, whatever they are. -/
theorem leads_recvs : ∀ (ds : List BitDst) {bits : List Bool} {s : State} {w env : List EnvMove} {g : Frame}
    {todo : List Micro}, (∀ d ∈ ds, d.framed = true) → bits.length = ds.length →
    answers (bits.map (bitNeeds c)).flatten w = true →
    At c req s ⟨ds.map Micro.recvBit ++ todo, w ++ env, .released, .released, some g, rep, σ⟩ →
    ∃ g', Leads c req s (bits.map recvBitEvents).flatten ⟨todo, env, .released, .released, some g', rep, σ⟩
  | [], [], s, w, env, g, todo, _, _, hw, h => by
    cases answers_nil hw
    exact ⟨g, .refl h⟩
  | [], _ :: _, _, _, _, _, _, _, hn, _, _ => by simp at hn
  | _ :: _, [], _, _, _, _, _, _, hn, _, _ => by simp at hn
  | d :: ds, b :: bits, s, w, env, g, todo, hd, hn, hw, h => by
    simp only [List.map_cons, List.flatten_cons] at hw
    obtain ⟨w₁, w₂, rfl, a1, a2⟩ := answers_append hw
    rw [List.append_assoc] at h
    have hmove : ∃ g', ∀ s : State, s.frame = some g → stepBitReturn d b s = .moved { s with frame := some g' } := by
      have := hd d (by simp)
      cases d with
      | result => cases this
      | data i => exact ⟨_, fun s hs => by simp only [stepBitReturn, hs]; rfl⟩
      | parity => exact ⟨_, fun s hs => by simp only [stepBitReturn, hs]; rfl⟩
      | stop => exact ⟨_, fun s hs => by simp only [stepBitReturn, hs]; rfl⟩
    obtain ⟨g', hg⟩ := hmove
    obtain ⟨t, hr, hc, ht⟩ := leads_recvInto a1 hg h
    obtain ⟨g'', u, ur, uc, hu⟩ := leads_recvs ds (fun d hd' => hd d (by simp [hd'])) (by simpa using hn) a2 ht
    exact ⟨g'', u, hr.trans ur, by simpa using hc.trans uc, hu⟩

/-- R83 steps 3 and 4: where the ten received bits go. -/
def readDsts : List BitDst := bitIndices.map .data ++ [.parity, .stop]

/-- R83: a read up to any of its bits. -/
theorem leads_readBits {dst : ByteDst} {bits : List Bool} (hn : bits.length ≤ 10)
    (hw : answers ([.any] ++ pulseNeeds c ++ [.any] ++ (bits.map (bitNeeds c)).flatten) w = true)
    (h : At c req s ⟨.readByte dst :: todo, w ++ env, dc, dd, f, rep, σ⟩) :
    ∃ g, Leads c req s ([.rel .dat, .rel .clk, .dly c.tRdRelease] ++
        ([.smp .clk .low, .smp .clk .high, .dly c.tRdStart] ++ (bits.map recvBitEvents).flatten))
      ⟨(readDsts.drop bits.length).map .recvBit ++ (.low .clk :: .checkFrame :: .byteReturn dst :: todo), env, .released,
        .released, some g, rep, σ⟩ := by
  obtain ⟨w₁, w₂, rfl, a1, a2⟩ := answers_append hw
  rw [List.append_assoc] at h
  obtain ⟨t, hr, hc, ht⟩ := leads_readStart a1 h
  have hsplit : bitIndices.map (fun i => Micro.recvBit (.data i)) ++
      (.recvBit .parity :: .recvBit .stop :: .low .clk :: .checkFrame :: .byteReturn dst :: todo) =
      (readDsts.take bits.length).map .recvBit ++ ((readDsts.drop bits.length).map .recvBit ++
        (.low .clk :: .checkFrame :: .byteReturn dst :: todo)) := by
    rw [← List.append_assoc, ← List.map_append, List.take_append_drop]; rfl
  rw [hsplit] at ht
  obtain ⟨g, u, ur, uc, hu⟩ := leads_recvs (readDsts.take bits.length)
    (fun d hd => (show ∀ d ∈ readDsts, d.framed = true by decide) d (List.mem_of_mem_take hd))
    (by simp [readDsts, bitIndices] <;> omega) a2 ht
  exact ⟨g, u, hr.trans ur, by simpa using hc.trans uc, hu⟩

end Sys2Proof.Machine
end

