-- ==== Sys2Proof/Laws/PerInstr.lean ====
section
/-! SUPPORT. Statements made of every request, one lemma per constructor: the operation code its word carries
(spec/30_encoding.md rules R52 and R53). -/

namespace Sys2Proof.Laws.OpField

/-- R52, R53: bits 47:40 of a request's word are its operation code. -/
def Statement (i : Instr) : Prop := (encode i).op = i.op

theorem initializeDevice : Statement .initializeDevice := Request.op_pack _ _ _
theorem pollReport : Statement .pollReport := Request.op_pack _ _ _
theorem setPolledMode : Statement .setPolledMode := Request.op_pack _ _ _
theorem setContinuousMode : Statement .setContinuousMode := Request.op_pack _ _ _
theorem setSampleRate (rate : Byte) : Statement (.setSampleRate rate) := Request.op_pack _ _ _
theorem setResolution (value : Byte) : Statement (.setResolution value) := Request.op_pack _ _ _
theorem setScaling2to1 : Statement .setScaling2to1 := Request.op_pack _ _ _
theorem setScaling1to1 : Statement .setScaling1to1 := Request.op_pack _ _ _
theorem enableReporting : Statement .enableReporting := Request.op_pack _ _ _
theorem disableReporting : Statement .disableReporting := Request.op_pack _ _ _
theorem getPins : Statement .getPins := Request.op_pack _ _ _
theorem selectMode (cmd : Byte) (target : Mode) : Statement (.selectMode cmd target) := Request.op_pack _ _ _
theorem writeByte (data : Byte) : Statement (.writeByte data) := Request.op_pack _ _ _
theorem readByte : Statement .readByte := Request.op_pack _ _ _
theorem waitClockBounded (level : Level) (timeout : Time) : Statement (.waitClockBounded level timeout) :=
  Request.op_pack _ _ _
theorem driveLow (line : Line) : Statement (.driveLow line) := Request.op_pack _ _ _
theorem driveHigh (line : Line) : Statement (.driveHigh line) := Request.op_pack _ _ _
theorem release (line : Line) : Statement (.release line) := Request.op_pack _ _ _
theorem sample (line : Line) : Statement (.sample line) := Request.op_pack _ _ _
theorem sendBit (bit : Bool) : Statement (.sendBit bit) := Request.op_pack _ _ _
theorem recvBit : Statement .recvBit := Request.op_pack _ _ _
theorem waitLevel (line : Line) (level : Level) : Statement (.waitLevel line level) := Request.op_pack _ _ _

end Sys2Proof.Laws.OpField
end

