-- ==== Sys2Proof/Laws/Refused.lean ====
section
/-! SUPPORT. Where a refused acknowledgment ends a request in strict mode (spec/43_session.md R89, spec/60_exceptions.md R111, R112):
the exchanges of one operation after another, up to the one that is refused. -/

namespace Sys2Proof.Machine

variable {c : Config} {req : Instr} {s : State} {todo : List Micro} {env w : List EnvMove} {dc dd : Drive}
  {f : Option Frame} {rep : Option Report} {σ σ₁ σ₂ σ' : SessionState}

/-- R111: a step that raises ends the request where it stands. -/
theorem At.raises {m : Micro} {code : ResponseCode} (h : At c req s ⟨m :: todo, env, dc, dd, f, rep, σ⟩)
    (hm : m.tick (s.stepped req todo) = .moved ((s.stepped req todo).raise code)) :
    Finishes c s [] ⟨code, .none⟩ env dc dd σ :=
  h.ends (r := ⟨code, .none⟩) ((State.tick_busy h.pos).trans hm)

/-- R84, R114: a frame that fails a check ends its read with the frame's error. -/
theorem readByte_refused {dst : ByteDst} {x : RxFrame} {code : ResponseCode} (hw : answers (readNeeds c x) w = true)
    (hx : frameError c x.data x.parity x.stop = some code)
    (h : At c req s ⟨.readByte dst :: todo, w ++ env, dc, dd, f, rep, σ⟩) :
    Finishes c s (readEvents c x) ⟨code, .none⟩ env .drivenLow .released σ := by
  obtain ⟨j, hl⟩ := leads_readByte_checks hw h
  have := hl.ends fun t ht => ht.raises (code := code) (by
    have hf := ht.frame
    simp only [Micro.tick_checkFrame, stepCheckFrame, State.stepped, hf, ht.cfg, hx])
  simpa using this

/-- R89, R112, R114: an acknowledgment that is not accepted ends the request in strict mode. -/
theorem readAck_refused {x : RxFrame} (hs : c.strict = .strict) (hw : answers (readNeeds c x) w = true)
    (hx : replyAccepted c x = false) (h : At c req s ⟨.readByte .ack :: todo, w ++ env, dc, dd, f, rep, σ⟩) :
    Finishes c s (readEvents c x) ⟨replyError x, .none⟩ env .drivenLow .released σ := by
  by_cases hp : x.parity = oddParity x.data
  · by_cases hst : x.stop = true
    · have hfr : frameError c x.data x.parity x.stop = none := by simp [frameError, hs, hp, hst]
      have hack : ackAccepted c x.data = false := by simpa [replyAccepted, hfr] using hx
      rw [show replyError x = .unexpectedAcknowledgment by simp [replyError, hp, hst]]
      have := (leads_readByte hw hfr h).ends fun t ht => At.raises (m := .checkAck x.data) (todo := todo)
        (code := .unexpectedAcknowledgment) ht
        (by simp only [Micro.tick_checkAck, stepCheckAck, State.stepped, ht.cfg, hack, Bool.false_eq_true, if_false])
      simpa using this
    · rw [show replyError x = .framingError by simp [replyError, hp, hst]]
      exact readByte_refused hw (by simp [frameError, hs, hp, hst]) h
  · rw [show replyError x = .parityError by simp [replyError, hp]]
    exact readByte_refused hw (by simp [frameError, hs, hp]) h

/-- R89: a command exchange that is refused. -/
theorem sendCmd_refused {b : Byte} {x : RxFrame} (hs : c.strict = .strict)
    (hw : answers (writeNeeds c ++ readNeeds c x) w = true) (hx : replyAccepted c x = false)
    (h : At c req s ⟨.sendCmd b :: todo, w ++ env, dc, dd, f, rep, σ⟩) :
    Finishes c s (writeEvents c b ++ readEvents c x) ⟨replyError x, .none⟩ env .drivenLow .released σ := by
  obtain ⟨w₁, w₂, rfl, a1, a2⟩ := answers_append hw
  refine (leads_push h (Micro.tick_sendCmd _ b)).ends (a := []) fun t ht => ?_
  simp only [sendCmdBody, List.append_assoc, List.cons_append, List.nil_append] at ht
  exact (leads_writeByte a1 ht).ends fun u hu => readAck_refused hs a2 hx hu

/-- The `steps`, from the session `σ`, open with the command exchanges of `plan`: where one is refused the request ends there, with
the session the exchanges before it left. -/
def Refuses (c : Config) (req : Instr) (steps : List Micro) (σ : SessionState) (plan : List (Byte × SessionState)) : Prop :=
  ∀ (good : List RxFrame) (bad : RxFrame) {s : State} {w env : List EnvMove} {dc dd : Drive} {rep : Option Report},
    good.length < plan.length → answers (exchangeNeeds c (good ++ [bad])) w = true →
    (∀ x ∈ good, replyAccepted c x = true) → replyAccepted c bad = false →
    At c req s ⟨steps, w ++ env, dc, dd, none, rep, σ⟩ →
    ∃ τ, (σ :: plan.map Prod.snd)[good.length]? = some τ ∧
      Finishes c s (exchangeEvents c ((plan.map Prod.fst).zip (good ++ [bad]))) ⟨replyError bad, .none⟩ env .drivenLow
        .released τ

/-- The steps `ms`, from the session `σ`, make the command exchanges of `plan` and leave the session `σ'`; where one is refused the
request ends there, with the session the exchanges before it left. -/
structure Exchanges (c : Config) (req : Instr) (ms : List Micro) (σ : SessionState) (plan : List (Byte × SessionState))
    (σ' : SessionState) : Prop where
  leaves : (σ :: plan.map Prod.snd)[plan.length]? = some σ'
  accepted : ∀ (replies : List RxFrame) {s : State} {todo : List Micro} {w env : List EnvMove} {dc dd : Drive}
    {rep : Option Report}, replies.length = plan.length → answers (exchangeNeeds c replies) w = true →
    (∀ x ∈ replies, replyAccepted c x = true) → At c req s ⟨ms ++ todo, w ++ env, dc, dd, none, rep, σ⟩ →
    ∃ dc' dd', Leads c req s (exchangeEvents c ((plan.map Prod.fst).zip replies)) ⟨todo, env, dc', dd', none, rep, σ'⟩
  refused : ∀ todo : List Micro, Refuses c req (ms ++ todo) σ plan

/-- Steps that make no exchange. -/
theorem Exchanges.silent {ms : List Micro}
    (h : ∀ {s : State} {todo : List Micro} {env : List EnvMove} {dc dd : Drive} {rep : Option Report},
      At c req s ⟨ms ++ todo, env, dc, dd, none, rep, σ⟩ → Leads c req s [] ⟨todo, env, dc, dd, none, rep, σ'⟩)
    (hσ : σ' = σ) : Exchanges c req ms σ [] σ' := by
  subst hσ
  refine ⟨rfl, fun replies {s todo w env dc dd rep} hn hw _ hat => ?_, fun _ _ _ _ _ _ _ _ _ hn _ _ _ _ => by simp at hn⟩
  cases List.length_eq_zero_iff.mp hn
  cases answers_nil hw
  exact ⟨dc, dd, h hat⟩

/-- One command exchange, then steps that write the session. -/
theorem Exchanges.command {b : Byte} {ms : List Micro} (hs : c.strict = .strict)
    (h : ∀ {s : State} {todo : List Micro} {env : List EnvMove} {rep : Option Report},
      At c req s ⟨ms ++ todo, env, .drivenLow, .released, none, rep, σ⟩ →
      Leads c req s [] ⟨todo, env, .drivenLow, .released, none, rep, σ'⟩) :
    Exchanges c req (.sendCmd b :: ms) σ [(b, σ')] σ' := by
  refine ⟨rfl, fun replies {s todo w env dc dd rep} hn hw hx hat => ?_,
    fun todo good bad {s w env dc dd rep} hn hw _ hx hat => ?_⟩
  · obtain ⟨x, rfl⟩ := List.length_eq_one_iff.mp hn
    simp only [exchangeNeeds_cons, exchangeNeeds_nil, List.append_nil] at hw
    have := (leads_sendCmd hw (hx x (by simp)) hat).bindSilent fun t ht => h ht
    exact ⟨_, _, by simpa [exchangeEvents] using this⟩
  · cases List.length_eq_zero_iff.mp (Nat.lt_one_iff.mp hn)
    simp only [List.nil_append, exchangeNeeds_cons, exchangeNeeds_nil, List.append_nil] at hw
    exact ⟨σ, rfl, by simpa [exchangeEvents] using sendCmd_refused hs hw hx hat⟩

theorem zip_append_of_le {α β : Type} : ∀ {l l' : List α} {m : List β}, m.length ≤ l.length → (l ++ l').zip m = l.zip m
  | [], _, [], _ => by simp
  | _ :: _, _, [], _ => by simp
  | _ :: _, _, _ :: _, h => by
    simpa using zip_append_of_le (Nat.le_of_succ_le_succ h)

/-- Operations one after another. -/
theorem Exchanges.append {a b : List Micro} {p q : List (Byte × SessionState)} (h : Exchanges c req a σ p σ₁)
    (g : Exchanges c req b σ₁ q σ₂) : Exchanges c req (a ++ b) σ (p ++ q) σ₂ := by
  have after : ∀ k, (σ :: (p ++ q).map Prod.snd)[p.length + k]? = (σ₁ :: q.map Prod.snd)[k]? := by
    intro k
    cases k with
    | zero =>
      have := h.leaves
      rw [List.map_append, ← List.cons_append, List.getElem?_append_left (by simp), Nat.add_zero, this]; rfl
    | succ k =>
      rw [← Nat.add_assoc, List.getElem?_cons_succ, List.getElem?_cons_succ, List.map_append,
        List.getElem?_append_right (by simp)]
      simp
  refine ⟨by rw [List.length_append, after, g.leaves], fun replies {s todo w env dc dd rep} hn hw hx hat => ?_,
    fun todo good bad {s w env dc dd rep} hn hw hx hbad hat => ?_⟩
  · rw [List.length_append] at hn
    obtain ⟨r₁, r₂, rfl, hn₁, hn₂⟩ : ∃ r₁ r₂, replies = r₁ ++ r₂ ∧ r₁.length = p.length ∧ r₂.length = q.length :=
      ⟨replies.take p.length, replies.drop p.length, (List.take_append_drop ..).symm, by simp; omega, by simp; omega⟩
    rw [exchangeNeeds_append] at hw
    obtain ⟨w₁, w₂, rfl, a1, a2⟩ := answers_append hw
    simp only [List.append_assoc] at hat
    obtain ⟨dc', dd', t, tr, tc, ht⟩ := h.accepted r₁ hn₁ a1 (fun x hx' => hx x (by simp [hx'])) hat
    obtain ⟨dc'', dd'', u, ur, uc, hu⟩ := g.accepted r₂ hn₂ a2 (fun x hx' => hx x (by simp [hx'])) ht
    refine ⟨dc'', dd'', u, tr.trans ur, ?_, hu⟩
    rw [List.map_append, List.zip_append (by simp [hn₁]), exchangeEvents_append]
    exact tc.trans uc
  · by_cases hlt : good.length < p.length
    · rw [List.append_assoc] at hat
      obtain ⟨τ, hτ, hfin⟩ := h.refused _ good bad hlt hw hx hbad hat
      refine ⟨τ, ?_, ?_⟩
      · rw [List.map_append, ← List.cons_append, List.getElem?_append_left (by simp; omega), hτ]
      · have : ((p ++ q).map Prod.fst).zip (good ++ [bad]) = (p.map Prod.fst).zip (good ++ [bad]) := by
          rw [List.map_append]
          exact zip_append_of_le (by simp; omega)
        rw [this]
        exact hfin
    · obtain ⟨r₁, r₂, rfl, hn₁⟩ : ∃ r₁ r₂, good = r₁ ++ r₂ ∧ r₁.length = p.length :=
        ⟨good.take p.length, good.drop p.length, (List.take_append_drop ..).symm, by simp; omega⟩
      rw [List.append_assoc, exchangeNeeds_append] at hw
      obtain ⟨w₁, w₂, rfl, a1, a2⟩ := answers_append hw
      simp only [List.append_assoc] at hat
      obtain ⟨dc', dd', t, tr, tc, ht⟩ := h.accepted r₁ hn₁ a1 (fun x hx' => hx x (by simp [hx'])) hat
      obtain ⟨τ, hτ, u, ur, uc, hu⟩ := g.refused _ r₂ bad (by simp at hn; omega) a2 (fun x hx' => hx x (by simp [hx'])) hbad ht
      refine ⟨τ, by rw [List.length_append, hn₁, after, hτ], u, tr.trans ur, ?_, hu⟩
      rw [List.map_append, List.append_assoc, List.zip_append (by simp [hn₁]), exchangeEvents_append]
      exact tc.trans uc

/-- A step that puts the steps of an operation in front. -/
theorem Exchanges.call {m : Micro} {ms : List Micro} {p : List (Byte × SessionState)} (h : Exchanges c req ms σ p σ')
    (hm : ∀ {s : State} {todo : List Micro} {env : List EnvMove} {dc dd : Drive} {rep : Option Report},
      At c req s ⟨m :: todo, env, dc, dd, none, rep, σ⟩ →
      m.tick (s.stepped req todo) = .moved ((s.stepped req todo).push ms)) : Exchanges c req [m] σ p σ' := by
  refine ⟨h.leaves, fun replies {s todo w env dc dd rep} hn hw hx hat => ?_,
    fun todo good bad {s w env dc dd rep} hn hw hx hbad hat => ?_⟩
  · obtain ⟨t, tr, tc, ht⟩ := leads_push hat (hm hat)
    obtain ⟨dc', dd', u, ur, uc, hu⟩ := h.accepted replies hn hw hx ht
    exact ⟨dc', dd', u, tr.trans ur, tc.trans uc, hu⟩
  · obtain ⟨t, tr, tc, ht⟩ := leads_push hat (hm hat)
    obtain ⟨τ, hτ, u, ur, uc, hu⟩ := h.refused _ good bad hn hw hx hbad ht
    exact ⟨τ, hτ, u, tr.trans ur, tc.trans uc, hu⟩

/-- R95: `enable_reporting()`. -/
theorem exchanges_enable (hs : c.strict = .strict) :
    Exchanges c req [.enableReporting] σ (planExchanges (enablePlan c σ)) (enablePlan c σ).2 := by
  cases he : σ.enabled with
  | true =>
    simp only [planExchanges, enablePlan, he, if_true, List.map_nil]
    refine .silent (fun h => leads_pass h ?_) rfl
    simp only [Micro.tick_enableReporting, stepEnableReporting, session_enabled h, he, if_true, State.stepped]
  | false =>
    simp only [planExchanges, enablePlan, he, Bool.false_eq_true, if_false, List.map_cons, List.map_nil]
    refine (Exchanges.command (ms := [.setEnabled]) hs fun hu => ?_).call fun h => by
      simp only [Micro.tick_enableReporting, stepEnableReporting, session_enabled h, he, Bool.false_eq_true, if_false,
        State.stepped, h.cfg]
    refine leads_silent (t := (State.stepped _ req _).setEnabledFlags) hu (Micro.tick_setEnabled _)
      ⟨hu.cfg, rfl, hu.env, hu.clk, hu.dat, hu.frame, hu.report, ?_⟩ rfl rfl rfl rfl rfl rfl rfl
    simp only [State.session, State.setEnabledFlags, State.stepped, session_mode hu, session_initialized hu,
      session_disabled hu, otherFlag, hu.cfg] <;> rfl

/-- R96: `disable_reporting()`. -/
theorem exchanges_disable (hs : c.strict = .strict) :
    Exchanges c req [.disableReporting] σ (planExchanges (disablePlan c σ)) (disablePlan c σ).2 := by
  cases hd : σ.disabled with
  | true =>
    simp only [planExchanges, disablePlan, hd, if_true, List.map_nil]
    refine .silent (fun h => leads_pass h ?_) rfl
    simp only [Micro.tick_disableReporting, stepDisableReporting, session_disabled h, hd, if_true, State.stepped]
  | false =>
    simp only [planExchanges, disablePlan, hd, Bool.false_eq_true, if_false, List.map_cons, List.map_nil]
    refine (Exchanges.command (ms := [.setDisabled]) hs fun hu => ?_).call fun h => by
      simp only [Micro.tick_disableReporting, stepDisableReporting, session_disabled h, hd, Bool.false_eq_true, if_false,
        State.stepped, h.cfg]
    refine leads_silent (t := (State.stepped _ req _).setDisabledFlags) hu (Micro.tick_setDisabled _)
      ⟨hu.cfg, rfl, hu.env, hu.clk, hu.dat, hu.frame, hu.report, ?_⟩ rfl rfl rfl rfl rfl rfl rfl
    simp only [State.session, State.setDisabledFlags, State.stepped, session_mode hu, session_initialized hu,
      session_enabled hu, otherFlag, hu.cfg] <;> rfl

/-- R94: `pause()`. -/
theorem exchanges_pause (hs : c.strict = .strict) :
    Exchanges c req [.pause] σ (planExchanges (pausePlan c σ)) (pausePlan c σ).2 := by
  cases hm : σ.mode with
  | polled =>
    simp only [planExchanges, pausePlan, hm, reduceCtorEq, if_false, List.map_nil]
    exact .silent (fun h => leads_pass h (by simp only [Micro.tick_pause, stepPause, State.stepped, session_mode h, hm])) rfl
  | continuous =>
    simp only [pausePlan, hm, if_true]
    exact (exchanges_disable hs).call fun h => by simp only [Micro.tick_pause, stepPause, State.stepped, session_mode h, hm]

/-- R94: `resume()`. -/
theorem exchanges_resume (hs : c.strict = .strict) :
    Exchanges c req [.resume] σ (planExchanges (resumePlan c σ)) (resumePlan c σ).2 := by
  cases hm : σ.mode with
  | polled =>
    simp only [planExchanges, resumePlan, hm, reduceCtorEq, if_false, List.map_nil]
    exact .silent (fun h => leads_pass h (by simp only [Micro.tick_resume, stepResume, State.stepped, session_mode h, hm])) rfl
  | continuous =>
    simp only [resumePlan, hm, if_true]
    exact (exchanges_enable hs).call fun h => by simp only [Micro.tick_resume, stepResume, State.stepped, session_mode h, hm]

/-- R97 to R100: the command bytes of a configuration command. -/
theorem exchanges_bytes (hs : c.strict = .strict) : ∀ bytes : List Byte,
    Exchanges c req (bytes.map .sendCmd) σ (bytes.map fun b => (b, σ)) σ
  | [] => .silent (fun h => .refl h) rfl
  | b :: bytes => (Exchanges.command (ms := []) hs fun h => .refl h).append (exchanges_bytes hs bytes)

/-- R97 to R100: a configuration command. -/
theorem exchanges_config (hs : c.strict = .strict) (bytes : List Byte) :
    Exchanges c req (configBody bytes) σ (configExchanges c bytes σ) (resumePlan c (pausePlan c σ).2).2 := by
  have := ((exchanges_pause (σ := σ) (req := req) hs).append (exchanges_bytes hs bytes)).append (exchanges_resume hs)
  exact this

/-- R91 steps 1 to 3, up to the settle delay. -/
theorem exchanges_select (hs : c.strict = .strict) (b : Byte) (m : Mode) :
    ∃ σ', Exchanges c req [.pause, .sendCmd b, .reenable m] σ (selectExchanges c b m σ) σ' := by
  have hr : ∃ σ', Exchanges c req [.reenable m] (pausePlan c σ).2
      (if (match c.reenableGuard with | .target => m | .recorded => σ.mode) = .continuous
        then planExchanges (enablePlan c (pausePlan c σ).2) else []) σ' := by
    have hmode : ∀ {s : State} {todo env dc dd rep}, At c req s ⟨.reenable m :: todo, env, dc, dd, none, rep, (pausePlan c σ).2⟩ →
        reenableMode (s.stepped req todo) m = match c.reenableGuard with | .target => m | .recorded => σ.mode := fun h => by
      simp only [reenableMode, State.stepped, h.cfg, session_mode h, pausePlan_mode] <;> rfl
    generalize (match c.reenableGuard with | .target => m | .recorded => σ.mode) = g at hmode
    cases g with
    | polled =>
      simp only [reduceCtorEq, if_false]
      exact ⟨_, .silent (fun h => leads_pass h (by
        have hg := hmode h
        simp only [Micro.tick_reenable, stepReenable]
        exact hg ▸ rfl)) rfl⟩
    | continuous =>
      simp only [if_true]
      exact ⟨_, (exchanges_enable hs).call fun h => by simp only [Micro.tick_reenable, stepReenable, hmode h]⟩
  obtain ⟨σ', hr⟩ := hr
  exact ⟨σ', ((exchanges_pause (σ := σ) (req := req) hs).append (exchanges_bytes hs [b])).append hr⟩

/-- A step that only puts others in front. -/
theorem Refuses.push {m : Micro} {ms : List Micro} {p : List (Byte × SessionState)} (h : Refuses c req (ms ++ todo) σ p)
    (hm : ∀ {s : State} {env : List EnvMove} {dc dd : Drive} {rep : Option Report},
      At c req s ⟨m :: todo, env, dc, dd, none, rep, σ⟩ →
      m.tick (s.stepped req todo) = .moved ((s.stepped req todo).push ms)) : Refuses c req (m :: todo) σ p := by
  intro good bad s w env dc dd rep hn hw hx hbad hat
  obtain ⟨t, tr, tc, ht⟩ := leads_push hat (hm hat)
  obtain ⟨τ, hτ, u, ur, uc, hu⟩ := h good bad hn hw hx hbad ht
  exact ⟨τ, hτ, u, tr.trans ur, tc.trans uc, hu⟩

/-- R91: `select_mode(b, m)`. -/
theorem refuses_select (hs : c.strict = .strict) (b : Byte) (m : Mode) (todo : List Micro) :
    Refuses c req (.selectMode b m :: todo) σ (selectExchanges c b m σ) := by
  obtain ⟨σ', hx⟩ := exchanges_select (req := req) (σ := σ) hs b m
  exact Refuses.push (ms := selectModeBody b m) (hx.refused (.modeSettle :: todo)) fun _ => Micro.tick_selectMode _ b m

/-- R90 step 5: the mode selection or the enable command of INITIALIZE. -/
theorem refuses_initMode (hs : c.strict = .strict) (todo : List Micro) :
    Refuses c req (.initMode :: todo) σ (exchangePlan c σ .initializeDevice).tail := by
  cases hm : σ.mode with
  | polled =>
    simp only [exchangePlan, hm, List.tail_cons]
    refine Refuses.push (ms := [.setPolledMode]) ?_ fun h => by
      simp only [Micro.tick_initMode, stepInitMode, State.stepped, session_mode h, hm]
    refine Refuses.push (ms := setPolledModeBody c) (refuses_select hs _ _ _) fun h => by
      simp only [Micro.tick_setPolledMode, stepSetPolledMode, State.stepped, h.cfg]
  | continuous =>
    simp only [exchangePlan, hm, List.tail_cons]
    refine Refuses.push (ms := [.enableReporting]) ((exchanges_enable hs).refused todo) fun h => by
      simp only [Micro.tick_initMode, stepInitMode, State.stepped, session_mode h, hm]

end Sys2Proof.Machine
end

