-- ==== Sys2Proof/Tests/Slice0.lean ====
section
/-! SUPPORT. The model's own tests: expected values from spec/95_test_vectors.md (L1, L2, L3) and the rules it cites, and for
every statement with hypotheses a concrete state and operands that meet them. -/

namespace Sys2Proof.Tests

open Sys2Proof Sys2Proof.Machine

set_option Elab.async false

/-! ### A small environment -/

/-- A configuration with every duration a number of its own. -/
def config : Config :=
  { Config.default with
    timeoutUs := 1000
    tWrRelease := 1
    tWrInhibit := 2
    tWrStart := 3
    tRdRelease := 4
    tRdStart := 5
    tInitRelease := 6
    tInitReset := 7
    tInitFinal := 8
    tModeSettle := 9 }

def strict : Config := { config with strict := .strict }
def unbounded : Config := { config with waitPolicy := .unbounded }
def setOnly : Config := { config with flagPolicy := .setOnly }
def driveHighOne : Config := { config with dataOne := .driveHigh }
/-- A clock of eleven bits, the least that `config`'s timeout fits. -/
def narrow : Config := { config with timeWidth := some 11 }

/-- The move of a peripheral that answers a need. -/
def answer : Need → EnvMove
  | .any => ⟨1, .released, .released, .low⟩
  | .late n => ⟨n, .released, .released, .low⟩
  | .reads .clk .low => ⟨1, .low, .released, .low⟩
  | .reads .dat .low => ⟨1, .released, .low, .low⟩
  | .reads _ .high => ⟨1, .released, .released, .low⟩

/-- A peripheral that never pulls a line low. -/
def silent (dt : Time) : EnvMove := ⟨dt, .released, .released, .low⟩

/-- A handle of two distinct pins with the given session fields, the environment about to answer the needs and to let no time pass
at its line-control steps. -/
def handle (c : Config) (p : SessionState) (ns : List Need) : State :=
  { State.reset with
    clockPin := .first
    dataPin := .second
    cfg := c
    mode := p.mode
    initialized := p.initialized
    reportingEnabled := p.enabled
    reportingDisabled := p.disabled
    env := ns.map answer
    lags := List.replicate 100 0 }

def fresh : SessionState := ⟨.polled, false, false, false⟩
def polledReady : SessionState := ⟨.polled, true, false, false⟩
def streaming : SessionState := ⟨.continuous, true, true, false⟩

/-- The state a run ends in. -/
def ended (o : Host.Outcome State Fault Refusal) : Option State :=
  match o with
  | .next s => some s
  | .fault _ => none
  | .refused _ => none

/-- What a request adds to the trace but its clock reads, and its response. -/
def traced (o : Host.Outcome State Fault Refusal) : Option (List Event × List Response) :=
  (ended o).map fun s => (busEvents s.trace, s.responses)

/-- The bytes a request puts on the bus, its response, the session fields and the two drives. -/
def summary (o : Host.Outcome State Fault Refusal) : Option (List Xfer × List Response × SessionState × Drive × Drive) :=
  (ended o).map fun s => (bytesOnBus s.trace, s.responses, s.session, s.driveClk, s.driveDat)

def ok : Response := ⟨.ok, .none⟩
def ack : RxFrame := .good 0xFA

theorem handle_inv (c : Config) (p : SessionState) (ns : List Need) (h : ¬(p.enabled = true ∧ p.disabled = true)) :
    (handle c p ns).Inv :=
  ⟨show PinId.first ≠ .second by decide, fun _ => ⟨rfl, rfl⟩, nofun, nofun, fun _ => h⟩

theorem handle_ready (c : Config) (p : SessionState) (a b : List Need) (h : ¬(p.enabled = true ∧ p.disabled = true)) :
    (handle c p (a ++ b)).Ready (a.map answer) (b.map answer) :=
  ⟨handle_inv c p _ h, rfl, List.map_append⟩

/-- A run that ends in a state with a decidable property. -/
theorem runs {o : Host.Outcome State Fault Refusal} {P : State → Prop} [DecidablePred P]
    (h : (ended o).any (fun t => decide (P t)) = true) : ∃ t, o = .next t ∧ P t := by
  cases o with
  | next t => exact ⟨t, rfl, by simpa [ended] using h⟩
  | fault f => simp [ended] at h
  | refused r => simp [ended] at h

/-- The unbounded clock never wraps. -/
theorem noWrap_config (w : List EnvMove) : config.noWrap w := fun _ h => nomatch h

/-- Moves that fit an eleven-bit clock. -/
theorem noWrap_narrow {w : List EnvMove} (h : (w.map EnvMove.dt).sum < 2 ^ 11) : narrow.noWrap w := fun _ hn => by
  cases hn; exact h

/-! ### Well-formedness and encoding -/

/-- R52: a timeout of 33 bits is in no request word. -/
theorem test_wellFormed_refuses_wide_timeout : Instr.wellFormed (.waitClockBounded .high (2 ^ 32)) = false := by decide

theorem test_wellFormed_accepts_widest_timeout : Instr.wellFormed (.waitClockBounded .high (2 ^ 32 - 1)) = true := by decide

/-- V-ENC: the public requests. -/
theorem test_decode_public :
    [0x010000000000, 0x020000000000, 0x030000000000, 0x040000000000, 0x056400000000, 0x060200000000, 0x070000000000,
      0x080000000000, 0x090000000000, 0x0A0000000000, 0x0B0000000000].map (decodeTableWord 48) =
    [some .initializeDevice, some .pollReport, some .setPolledMode, some .setContinuousMode, some (.setSampleRate 100),
      some (.setResolution 2), some .setScaling2to1, some .setScaling1to1, some .enableReporting, some .disableReporting,
      some .getPins] := by decide

/-- V-ENC: the diagnostic requests. -/
theorem test_decode_diagnostic :
    [0x40F000000000, 0x40EA00000001, 0x80E800000000, 0x810000000000, 0x8200000001F4, 0x8201000003E8, 0x900000000000,
      0x900100000000, 0x910100000000, 0x920000000000, 0x930100000000, 0xA00100000000, 0xA10000000000, 0xA20200000000,
      0xA20100000000].map (decodeTableWord 48) =
    [some (.selectMode 0xF0 .polled), some (.selectMode 0xEA .continuous), some (.writeByte 0xE8), some .readByte,
      some (.waitClockBounded .low 500), some (.waitClockBounded .high 1000), some (.driveLow .clk), some (.driveLow .dat),
      some (.driveHigh .dat), some (.release .clk), some (.sample .dat), some (.sendBit true), some .recvBit,
      some (.waitLevel .clk .high), some (.waitLevel .dat .low)] := by decide

/-- V-ENC: unused fields are ignored. -/
theorem test_decode_ignores_unused_fields :
    decode 0x01FFFFFFFFFF = .ok .initializeDevice ∧ decode 0x90FE00000000 = .ok (.driveLow .clk) := by decide

/-- V-ENC: illegal words. -/
theorem test_decode_illegal :
    [0x000000000000, 0x0C0000000000, 0x41F000000000, 0x830000000000, 0xFF0000000000].map (decodeTableWord 48) =
    [none, none, none, none, none] := by decide

/-- R52: an operation code alone, eight bits of a word from bit 40 on. -/
theorem test_decodeTableWord_cuts_at_nbits : decodeTableWord 48 0x10B0000000000 = some .getPins := by decide

/-- V-ENC, read backwards. -/
theorem test_encode :
    [Instr.setSampleRate 100, .selectMode 0xEA .continuous, .waitClockBounded .low 500, .waitLevel .clk .high].map encode =
    [0x056400000000, 0x40EA00000001, 0x8200000001F4, 0xA20200000000] := by decide

/-- R58, R59: lines of 95_test_vectors.md L3. -/
theorem test_assembler :
    [AsmLine.toWord ⟨"SET_RESOLUTION", [.number 2]⟩, AsmLine.toWord ⟨"SET_SCALING", [.twoToOne]⟩,
      AsmLine.toWord ⟨"WAIT_CLOCK_BOUNDED", [.level .low, .number 500]⟩,
      AsmLine.toWord ⟨"WAIT_LEVEL", [.line .clk, .level .high]⟩] =
    [some 0x060200000000, some 0x070000000000, some 0x8200000001F4, some 0xA20200000000] := by decide

/-- Log 30: a microsecond count is assembled up to the widest the word holds, and no further. -/
theorem test_assembler_timeout_range :
    AsmLine.toWord ⟨"WAIT_CLOCK_BOUNDED", [.level .low, .number (2 ^ 32 - 1)]⟩ = some 0x8200FFFFFFFF ∧
    AsmLine.toWord ⟨"WAIT_CLOCK_BOUNDED", [.level .low, .number (2 ^ 32)]⟩ = none := by decide

/-! ### Parity, sign extension, levels -/

/-- V-F0. -/
theorem test_frame_words :
    [0x00, 0x01, 0x03, 0x7F, 0x80, 0xAA, 0xE8, 0xF4, 0xFA, 0xFF].map frameWord =
    [0x600, 0x402, 0x606, 0x4FE, 0x500, 0x754, 0x7D0, 0x5E8, 0x7F4, 0x7FE] := by decide

/-- V-S, sign extension. -/
theorem test_decodeReport :
    ([(0x10, 0xFF, 0x00), (0x00, 0xFF, 0x00), (0x10, 0x05, 0x00), (0x10, 0x00, 0x00), (0x00, 0x80, 0x00), (0x20, 0x00, 0xFE),
      (0x30, 0x80, 0x80)] : List (Byte × Byte × Byte)).map (fun x => ((decodeReport x.1 x.2.1 x.2.2).dx.toInt,
        (decodeReport x.1 x.2.1 x.2.2).dy.toInt)) =
    [(-1, 0), (255, 0), (-251, 0), (-256, 0), (128, 0), (0, -2), (-128, -128)] := by decide

/-- V-LC. -/
theorem test_levels : ∀ draw,
    resolveLevel .drivenLow .released draw = .low ∧ resolveLevel .drivenLow .low draw = .low ∧
    resolveLevel .drivenHigh .released draw = .high ∧ resolveLevel .drivenHigh .low draw = draw ∧
    resolveLevel .released .released draw = .high ∧ resolveLevel .released .low draw = .low := by
  intro draw; cases draw <;> decide

/-! ### Construction -/

/-- R125. -/
theorem test_construct_equal_pins :
    State.construct config .first .first .polled .released .released = .refused .equalPins := if_pos rfl

/-! ### Line Control (P3) -/

theorem test_driveLow_then_sample :
    ((ended (exec (.driveLow .clk) (handle config fresh [.any]))).bind fun s => traced (exec (.sample .clk) s)) =
    some ([.low .clk, .smp .clk .low], [ok, ⟨.ok, .level .low⟩]) := by decide +kernel

theorem test_release_then_sample :
    ((ended (exec (.release .clk) (handle config fresh [.any]))).bind fun s => traced (exec (.sample .clk) s)) =
    some ([.rel .clk, .smp .clk .high], [ok, ⟨.ok, .level .high⟩]) := by decide +kernel

/-- R63: contention reads the environment's draw. -/
theorem test_driveHigh_contention :
    ((ended (exec (.driveHigh .dat) (handle config fresh [.reads .dat .low]))).bind fun s => traced (exec (.sample .dat) s)) =
    some ([.high .dat, .smp .dat .low], [ok, ⟨.ok, .level .low⟩]) := by decide +kernel

/-! ### Bit Transfer (V-BT) -/

theorem test_waitClockBounded_zero_timeout :
    (ended (exec (.waitClockBounded .low 0) (handle config fresh [.any, .any, .late 7]))).map (fun s => (s.trace, s.responses)) =
    some ([.now 1, .smp .clk .high, .now 9], [⟨.ok, .reached false⟩]) := by decide +kernel

theorem test_waitClockBounded_met_later :
    (ended (exec (.waitClockBounded .low 1000) (handle unbounded fresh [.any, .any, .late 997, .reads .clk .low]))).map
      (fun s => (s.trace, s.responses)) =
    some ([.now 1, .smp .clk .high, .now 999, .smp .clk .low], [⟨.ok, .reached true⟩]) := by decide +kernel

/-- The deadline check at the very microsecond of the timeout fails the wait. -/
theorem test_waitLevel_times_out :
    (ended (exec (.waitLevel .clk .low) (handle config fresh [.any, .any, .late 999]))).map (fun s => (s.trace, s.responses)) =
    some ([.now 1, .smp .clk .high, .now 1001], [⟨.busTimeout, .none⟩]) := by decide +kernel

theorem test_waitLevel_unbounded_hangs :
    (ended (exec (.waitLevel .clk .low) (handle unbounded fresh [.any, .late 5000]))).map (fun s => (s.trace, s.responses, s.pos)) =
    some ([.smp .clk .high, .smp .clk .high], [], .busy (.waitLevel .clk .low) [.poll .clk .low]) := by decide +kernel

theorem test_sendBit :
    (traced (exec (.sendBit false) (handle config fresh (pulseNeeds config)))) =
    some ([.low .dat, .smp .clk .low, .smp .clk .high], [ok]) := by decide +kernel

theorem test_sendBit_driveHigh :
    (traced (exec (.sendBit true) (handle driveHighOne fresh (pulseNeeds driveHighOne)))) =
    some ([.high .dat, .smp .clk .low, .smp .clk .high], [ok]) := by decide +kernel

theorem test_recvBit :
    (traced (exec .recvBit (handle config fresh (bitNeeds config false)))) =
    some ([.smp .clk .low, .smp .dat .low, .smp .clk .high], [⟨.ok, .bit false⟩]) := by decide +kernel

/-- R63: a bit received while the host drives data low is 0. -/
theorem test_recvBit_host_low :
    (traced (exec .recvBit { handle config fresh (bitNeeds config true) with driveDat := .drivenLow })) =
    some ([.smp .clk .low, .smp .dat .low, .smp .clk .high], [⟨.ok, .bit false⟩]) := by decide +kernel

/-! ### Byte Framing (V-F3, V-F4) -/

/-- The events of a frame: those before its slots, the slots, those after them. -/
def slots (first levels : List Event) (slot : Event → List Event) (last : List Event) : List Event :=
  first ++ (levels.map slot).flatten ++ last

theorem test_writeByte_E8 :
    (traced (exec (.writeByte 0xE8) (handle config fresh (writeNeeds config)))) =
    some (slots [.rel .dat, .rel .clk, .dly 1, .low .clk, .dly 2, .low .dat, .dly 3, .rel .clk, .smp .clk .low]
      [.low .dat, .low .dat, .low .dat, .rel .dat, .low .dat, .rel .dat, .rel .dat, .rel .dat, .rel .dat, .rel .dat]
      (fun e => [e, .smp .clk .low, .smp .clk .high]) [.smp .dat .low, .low .clk], [ok]) := by decide +kernel

theorem test_writeByte_times_out :
    summary (exec (.writeByte 0x28) (handle config fresh (startNeeds ++ timeoutNeeds config .clk .low))) =
    some ([], [⟨.busTimeout, .none⟩], fresh, .released, .drivenLow) := by decide +kernel

theorem test_readByte_FA :
    (traced (exec .readByte (handle strict fresh (readNeeds strict ack)))) =
    some (slots [.rel .dat, .rel .clk, .dly 4, .smp .clk .low, .smp .clk .high, .dly 5]
      [.smp .dat .low, .smp .dat .high, .smp .dat .low, .smp .dat .high, .smp .dat .high, .smp .dat .high, .smp .dat .high,
        .smp .dat .high, .smp .dat .high, .smp .dat .high]
      (fun e => [.smp .clk .low, e, .smp .clk .high]) [.low .clk], [⟨.ok, .byte 0xFA⟩]) := by decide +kernel

/-- R128: a read whose start bit never comes. -/
theorem test_readByte_unbounded_hangs :
    (ended (exec .readByte (handle unbounded fresh [.any, .any, .any]))).map (fun s => (s.trace, s.responses, s.env)) =
    some ([.rel .dat, .rel .clk, .dly 4, .smp .clk .high, .smp .clk .high], [], []) := by decide +kernel

/-- V-F4: the table of parity and stop errors, strict beside lenient. -/
theorem test_readByte_checks :
    ([⟨0xFA, false, true⟩, ⟨0xFA, true, false⟩, ⟨0xFA, false, false⟩] : List RxFrame).map (fun f =>
      ((ended (exec .readByte (handle strict fresh (readNeeds strict f)))).map (·.responses),
        (ended (exec .readByte (handle config fresh (readNeeds config f)))).map (·.responses))) =
    [(some [⟨.parityError, .none⟩], some [⟨.ok, .byte 0xFA⟩]), (some [⟨.framingError, .none⟩], some [⟨.ok, .byte 0xFA⟩]),
      (some [⟨.parityError, .none⟩], some [⟨.ok, .byte 0xFA⟩])] := by decide +kernel

/-! ### Session Protocol (V-S, V-E) -/

/-- P1 request 1. -/
theorem test_initialize_polled :
    summary (exec .initializeDevice (handle config fresh (initializeNeeds config fresh ack [ack]))) =
    some ([.wrote 0xFF, .read 0xFA, .wrote 0xF0, .read 0xFA], [ok], ⟨.polled, true, false, false⟩, .drivenLow, .released) := by
  decide +kernel

/-- V-S: repeated in Continuous with reporting recorded as enabled, the reset byte only. -/
theorem test_initialize_again :
    summary (exec .initializeDevice (handle config streaming (initializeNeeds config streaming ack []))) =
    some ([.wrote 0xFF, .read 0xFA], [ok], streaming, .drivenLow, .released) := by decide +kernel

/-- P1 request 2. -/
theorem test_pollReport :
    ((ended (exec .pollReport (handle config polledReady (exchangeNeeds config [ack] ++ readNeeds config (.good 0x09)
      ++ readNeeds config (.good 0x01) ++ readNeeds config (.good 0xFF))))).map fun s => (bytesOnBus s.trace, s.responses, s.report)) =
    some ([.wrote 0xEB, .read 0xFA, .read 0x09, .read 0x01, .read 0xFF], [⟨.ok, .report ⟨0x09, 1, 255⟩⟩], none) := by decide +kernel

/-- V-E6: a framing error in the X byte. -/
theorem test_pollReport_framingError :
    ((ended (exec .pollReport (handle strict polledReady (exchangeNeeds strict [ack] ++ readNeeds strict (.good 0x00)
      ++ readNeeds strict ⟨0x05, true, false⟩)))).map fun s => (s.responses, s.report, s.pos)) =
    some ([⟨.framingError, .none⟩], none, .idle) := by decide +kernel

/-- P2 request 5. -/
theorem test_setPolledMode :
    summary (exec .setPolledMode (handle config streaming (exchangeNeeds config [ack, ack] ++ settleNeeds streaming))) =
    some ([.wrote 0xF5, .read 0xFA, .wrote 0xF0, .read 0xFA], [ok], ⟨.polled, true, false, true⟩, .drivenLow, .released) := by
  decide +kernel

/-- V-S: no settle delay before the first INITIALIZE. -/
theorem test_setContinuousMode :
    summary (exec .setContinuousMode (handle config fresh (exchangeNeeds config [ack, ack]))) =
    some ([.wrote 0xEA, .read 0xFA, .wrote 0xF4, .read 0xFA], [ok], ⟨.continuous, false, true, false⟩, .drivenLow, .released) := by
  decide +kernel

theorem test_setSampleRate_polled :
    summary (exec (.setSampleRate 100) (handle config polledReady (exchangeNeeds config [ack, ack]))) =
    some ([.wrote 0xF3, .read 0xFA, .wrote 0x64, .read 0xFA], [ok], polledReady, .drivenLow, .released) := by decide +kernel

/-- L1-4. -/
theorem test_setResolution_continuous :
    summary (exec (.setResolution 3) (handle config streaming (exchangeNeeds config [ack, ack, ack, ack]))) =
    some ([.wrote 0xF5, .read 0xFA, .wrote 0xE8, .read 0xFA, .wrote 0x03, .read 0xFA, .wrote 0xF4, .read 0xFA], [ok], streaming,
      .drivenLow, .released) := by decide +kernel

/-- V-S: with both flags set under SetOnly no bracketing is left. -/
theorem test_setResolution_setOnly :
    summary (exec (.setResolution 1) (handle setOnly ⟨.continuous, true, true, true⟩ (exchangeNeeds setOnly [ack, ack]))) =
    some ([.wrote 0xE8, .read 0xFA, .wrote 0x01, .read 0xFA], [ok], ⟨.continuous, true, true, true⟩, .drivenLow, .released) := by
  decide +kernel

theorem test_setScaling2to1_polled :
    summary (exec .setScaling2to1 (handle config polledReady (exchangeNeeds config [ack]))) =
    some ([.wrote 0xE7, .read 0xFA], [ok], polledReady, .drivenLow, .released) := by decide +kernel

theorem test_setScaling1to1_polled :
    summary (exec .setScaling1to1 (handle config polledReady (exchangeNeeds config [ack]))) =
    some ([.wrote 0xE6, .read 0xFA], [ok], polledReady, .drivenLow, .released) := by decide +kernel

/-- V-E2: an unexpected acknowledgment in strict mode. -/
theorem test_enableReporting_refused :
    summary (exec .enableReporting (handle strict polledReady (exchangeNeeds strict [.good 0xFE]))) =
    some ([.wrote 0xF4, .read 0xFE], [⟨.unexpectedAcknowledgment, .none⟩], polledReady, .drivenLow, .released) := by decide +kernel

/-- V-E5: the parity of the acknowledgment is checked before its value. -/
theorem test_enableReporting_parity :
    summary (exec .enableReporting (handle strict polledReady (exchangeNeeds strict [⟨0xFE, true, true⟩]))) =
    some ([.wrote 0xF4, .read 0xFE], [⟨.parityError, .none⟩], polledReady, .drivenLow, .released) := by decide +kernel

theorem test_disableReporting :
    summary (exec .disableReporting (handle config ⟨.polled, true, true, false⟩ (exchangeNeeds config [ack]))) =
    some ([.wrote 0xF5, .read 0xFA], [ok], ⟨.polled, true, false, true⟩, .drivenLow, .released) := by decide +kernel

theorem test_disableReporting_skipped :
    summary (exec .disableReporting (handle config ⟨.polled, true, false, true⟩ [])) =
    some ([], [ok], ⟨.polled, true, false, true⟩, .released, .released) := by decide +kernel

theorem test_getPins :
    traced (exec .getPins (handle config fresh [])) = some ([], [⟨.ok, .pins .first .second⟩]) := by decide +kernel

/-- V-S: the diagnostic SELECT_MODE leaves the mode. -/
theorem test_selectMode :
    summary (exec (.selectMode 0xF0 .polled) (handle config streaming (exchangeNeeds config [ack, ack] ++ settleNeeds streaming))) =
    some ([.wrote 0xF5, .read 0xFA, .wrote 0xF0, .read 0xFA], [ok], ⟨.continuous, true, false, true⟩, .drivenLow, .released) := by
  decide +kernel

/-- C1: with the Recorded guard the re-enable follows the recorded mode. -/
theorem test_selectMode_recorded :
    (ended (exec (.selectMode 0xF0 .polled) (handle { config with reenableGuard := .recorded } ⟨.continuous, false, true, false⟩
      (exchangeNeeds config [ack, ack, ack])))).map (fun s => (s.session, s.responses, s.env)) =
    some (⟨.continuous, false, true, false⟩, [ok], []) := by decide +kernel

/-- V-E1, P3 request 9. -/
theorem test_illegal_word :
    (ended (step { handle config fresh [] with requests := [0x7F0000000000] })).map (fun s => (s.trace, s.responses)) =
    some ([], [⟨.illegalRequest, .none⟩]) := by decide +kernel

/-- The host's placement: GET_PINS as the first request after reset. -/
theorem test_withFetchWord :
    (ended (step (State.reset.withFetchWord 48 0x0B0000000000))).map (fun s => (s.requests, s.responses)) =
    some ([], [⟨.ok, .pins .first .second⟩]) := by decide +kernel

/-! ### Witnesses: a concrete state and operands that meet the hypotheses of each statement -/

/-- The widest timeout an encoding admits. -/
theorem witness_DecodeOfEncode : Instr.wellFormed (.waitClockBounded .high (2 ^ 32 - 1)) = true := by decide

theorem witness_DecodeReadsUsedBits :
    decode 0xA203FFFFFFFF = .ok (.waitLevel .dat .high) ∧
    0xA2FF00000000 &&& (Instr.waitLevel .dat .high).usedBits = 0xA203FFFFFFFF &&& (Instr.waitLevel .dat .high).usedBits := by
  decide

/-- Both ends of every range of R54's list, at `Idle` with the word next. -/
theorem witness_IllegalRequests :
    (∀ op ∈ ([0x00, 0x0C, 0x3F, 0x41, 0x7F, 0x83, 0x8F, 0x94, 0x9F, 0xA3, 0xFF] : List Byte),
      (decode (op ++ 0#40)).toOption = none) ∧
    (∀ op ∈ ([0x01, 0x0B, 0x40, 0x80, 0x82, 0x90, 0x93, 0xA0, 0xA2] : List Byte), (decode (op ++ 0#40)).toOption ≠ none) ∧
    (handle config fresh []).pos = .idle ∧
    { handle config fresh [] with requests := [0xA30000000000] }.requests = 0xA30000000000 :: [] := by decide

theorem witness_StepRunsDecodedRequest :
    (handle config fresh []).pos = .idle ∧ (handle config fresh []).requests = [] ∧
    { handle config fresh [] with requests := [0x810000000000] }.requests = 0x810000000000 :: [] ∧
    decode 0x810000000000 = .ok .readByte := by decide

/-- A busy engine, with a placed move and without one. -/
theorem witness_StepResumesBusyRequest :
    { handle config fresh [.any] with pos := .busy .readByte [.readByte .result] }.pos = .busy .readByte [.readByte .result] ∧
    { handle config fresh [.any] with pos := .busy .readByte [.readByte .result] }.env ≠ [] ∧
    { handle config fresh [] with pos := .busy .readByte [.readByte .result] }.env = [] := by decide

/-- SAMPLE with no move placed stays busy. -/
theorem witness_EnvironmentMayAnswerInParts :
    (handle config fresh []).pos = .idle ∧ [answer .any] ≠ [] ∧
    ∃ t, exec (.sample .clk) (handle config fresh []) = .next t ∧ t.pos ≠ .idle :=
  ⟨rfl, by decide, runs (by decide)⟩

/-- The statements about a step from a state with the invariant: a step that sets `mode`, both flags and the drives. -/
theorem witness_Step :
    let s := { handle config streaming (exchangeNeeds config [ack, ack] ++ settleNeeds streaming) with
      requests := [0x030000000000] }
    s.Inv ∧ s.current = some .setPolledMode ∧ s.cfg.flagPolicy = .exclusive ∧
      ∃ t, step s = .next t ∧ t.mode ≠ s.mode ∧ t.reportingEnabled ≠ s.reportingEnabled ∧ t.responses = s.responses ++ [ok] :=
  ⟨⟨by decide, fun _ => ⟨rfl, rfl⟩, nofun, nofun, fun _ => by decide⟩, by decide +kernel, rfl, runs (by decide +kernel)⟩

/-- SessionWrittenOnlyByItsRequests: a step that sets `initialized`. -/
theorem witness_SessionWritten_initialized :
    let s := { handle config fresh (initializeNeeds config fresh ack [ack]) with requests := [0x010000000000] }
    s.Inv ∧ ∃ t, step s = .next t ∧ t.initialized ≠ s.initialized :=
  ⟨⟨by decide, fun _ => ⟨rfl, rfl⟩, nofun, nofun, fun _ => by decide⟩, runs (by decide +kernel)⟩

/-- ErrorsOnlyFromTheirCause, OneResponsePerRequest: a step that answers an error. -/
theorem witness_Errors :
    let s := { handle strict polledReady (exchangeNeeds strict [.good 0xFE]) with requests := [0x090000000000] }
    s.Inv ∧ ∃ t, step s = .next t ∧ t.responses = s.responses ++ [⟨.unexpectedAcknowledgment, .none⟩] :=
  ⟨⟨by decide, fun _ => ⟨rfl, rfl⟩, nofun, nofun, fun _ => by decide⟩, runs (by decide +kernel)⟩

/-- HighOnlyWhereAllowed: steps with a HIGH event: SEND_BIT, WRITE_BYTE and a command exchange under DriveHigh, DRIVE_HIGH of the
clock. -/
theorem witness_HighOnlyWhereAllowed :
    let s (c : Config) (ns : List Need) (w : Request) := { handle c fresh ns with requests := [w] }
    (s driveHighOne (pulseNeeds driveHighOne) 0xA00100000000).Inv ∧
    (∃ t, step (s driveHighOne (pulseNeeds driveHighOne) 0xA00100000000) = .next t ∧ Event.high .dat ∈ t.trace) ∧
    (∃ t, step (s driveHighOne (writeNeeds driveHighOne) 0x800100000000) = .next t ∧ Event.high .dat ∈ t.trace) ∧
    (∃ t, step (s driveHighOne (exchangeNeeds driveHighOne [ack]) 0x090000000000) = .next t ∧ Event.high .dat ∈ t.trace) ∧
    ∃ t, step (s config [] 0x910000000000) = .next t ∧ Event.high .clk ∈ t.trace :=
  ⟨⟨by decide, fun _ => ⟨rfl, rfl⟩, nofun, nofun, fun _ => by decide⟩, runs (by decide +kernel), runs (by decide +kernel),
    runs (by decide +kernel), runs (by decide +kernel)⟩

/-- TimeIsMonotonic: clock readings of a three-bit clock that wraps while a wait is in progress. -/
theorem witness_TimeIsMonotonic :
    ∃ t, step { handle { config with timeWidth := some 3 } fresh [.late 7, .any, .late 7, .any] with
      requests := [0x820000000064] } = .next t ∧ readings t.trace = [7, 15 % 8] :=
  runs (by decide +kernel)

/-- ElapsedTime: with no width, and at the ends and across the wrap of an eleven-bit clock (R71). -/
theorem witness_ElapsedTime :
    config.timeWidth = none ∧ narrow.timeWidth = some 11 ∧ elapsed config 2047 2053 = 6 ∧
    elapsed narrow (clockReading narrow 2047) (clockReading narrow 2053) = 6 ∧ elapsed narrow 0 2047 = 2047 ∧
    elapsed narrow (clockReading narrow 0) (clockReading narrow 2048) = 0 := by decide

/-- FlagPairs under SetOnly. -/
theorem witness_FlagPairs_setOnly :
    let s := { handle setOnly streaming (exchangeNeeds setOnly [ack]) with requests := [0x0A0000000000] }
    s.cfg.flagPolicy = .setOnly ∧ s.reportingEnabled = true ∧ ∃ t, step s = .next t ∧ t.reportingDisabled = true :=
  ⟨rfl, rfl, runs (by decide +kernel)⟩

theorem witness_Construction :
    PinId.first ≠ .second ∧ ∃ s, State.construct config .first .second .continuous .drivenLow .released = .next s :=
  ⟨by decide, _, rfl⟩

theorem witness_DiagnosticsLeaveSession :
    Instr.writesFlags .pollReport = false ∧ Instr.writesFlags (.writeByte 0) = false ∧
    (handle config fresh []).Inv ∧ Instr.writesFlags .getPins = false ∧
    ∃ t, exec .getPins (handle config fresh []) = .next t := ⟨rfl, rfl, handle_inv _ _ _ (by decide), rfl, _, rfl⟩

theorem witness_OneRequestAtATime :
    { handle config fresh [] with pos := .busy .readByte [.readByte .result] }.pos ≠ .idle := by decide

/-- EveryRequestAnswers, LineOperations, GetPinsReturnsPins, EnableAndDisable; time placed for a line-control step, and none. -/
theorem witness_Idle :
    (handle config fresh []).Inv ∧ (handle config fresh []).pos = .idle ∧ (handle config fresh []).lags ≠ [] ∧
    { handle config fresh [] with lags := [] }.Inv ∧
    (∃ t, exec (.driveLow .clk) { handle config fresh [] with lags := [7, 8] } = .next t ∧ t.now = 7 ∧ t.lags = [8]) ∧
    ∃ t, exec (.release .dat) { handle config fresh [] with lags := [] } = .next t ∧ t.freeLags = 1 :=
  ⟨handle_inv _ _ _ (by decide), rfl, nofun, ⟨by decide, fun _ => ⟨rfl, rfl⟩, nofun, nofun, fun _ => by decide⟩,
    runs (by decide), ⟨_, rfl, rfl⟩⟩

/-- Moves of one microsecond, at the boundary of both timeouts. -/
theorem witness_BoundedRequestsEnd (enough : Nat) :
    let s := { handle config fresh [] with env := List.replicate enough (silent 1) }
    s.Inv ∧ s.pos = .idle ∧ s.cfg.waitPolicy = .bounded ∧ s.cfg.timeoutUs ≤ 1000 ∧ s.cfg.timeWidth = none ∧
    (∀ v t, Instr.waitClockBounded .low 1000 = .waitClockBounded v t → t ≤ 1000) ∧ (∀ m ∈ s.env, 1 ≤ m.dt) ∧
    enough ≤ s.env.length :=
  ⟨⟨show PinId.first ≠ .second by decide, fun _ => ⟨rfl, rfl⟩, nofun, nofun, fun _ => by simp [handle, fresh]⟩, rfl, rfl, Nat.le_refl _, rfl,
    fun _ _ h => by cases h; exact Nat.le_refl _, by simp [silent], by simp⟩

theorem witness_UnboundedWaitsHang :
    (handle unbounded fresh [.any, .any]).Inv ∧ (handle unbounded fresh []).cfg.waitPolicy = .unbounded ∧
    (∀ m ∈ (handle unbounded fresh [.any, .any]).env, (handle unbounded fresh [.any, .any]).levelAt .clk m ≠ .low) ∧
    (handle unbounded fresh (startNeeds ++ [Need.any, .any])).Ready (startNeeds.map answer) ([Need.any, .any].map answer) ∧
    answers startNeeds (startNeeds.map answer) = true ∧ (∀ m ∈ [Need.any, .any].map answer, m.clk = .released) :=
  ⟨handle_inv _ _ _ (by decide), rfl, by decide, handle_ready _ _ _ _ (by decide), by decide, by decide⟩

/-- FramingWaitsHang: every wait of a write (step 5, both waits of the first and last data slot, of the parity and the stop slot, the
acknowledgment) and of a read (both waits of the start bit, of the first data bit, of the parity and the stop bit), and moves that
bring neither level. -/
theorem witness_FramingWaitsHang :
    let slots (k : Nat) := startNeeds ++ waitNeeds unbounded .clk .low ++ (List.replicate k (pulseNeeds unbounded)).flatten
    let bitsRead (k : Nat) := [Need.any] ++ pulseNeeds unbounded ++ [.any]
      ++ ((List.replicate k false).map (bitNeeds unbounded)).flatten
    (∀ ns ∈ [startNeeds, slots 10, [Need.any], [Need.any] ++ waitNeeds unbounded .clk .low]
        ++ ([0, 7, 8, 9].map fun k => [slots k, slots k ++ waitNeeds unbounded .clk .low]).flatten
        ++ ([0, 8, 9].map fun k => [bitsRead k,
          bitsRead k ++ waitNeeds unbounded .clk .low ++ [.reads .dat (Level.ofBit true)]]).flatten,
      answers ns (ns.map answer) = true) ∧
    (∀ a b, (handle unbounded fresh (a ++ b)).Ready (a.map answer) (b.map answer)) ∧ unbounded.waitPolicy = .unbounded ∧
    (∀ m ∈ [Need.any, .reads .clk .high].map answer, devDrive m .clk = .released ∧ devDrive m .dat = .released) ∧
    (∀ m ∈ [Need.reads .clk .low, .reads .clk .low].map answer, devDrive m .clk = .low) :=
  ⟨by decide +kernel, fun _ _ => handle_ready _ _ _ _ (by decide), rfl, by decide, by decide⟩

theorem witness_SampleReturnsLevel :
    (handle config fresh ([.reads .clk .low] ++ [])).Ready [answer (.reads .clk .low)] [] ∧
    { handle config fresh [] with driveClk := .drivenHigh }.drive .clk = .drivenHigh ∧
    devDrive (answer (.reads .clk .low)) .clk = .low :=
  ⟨handle_ready _ _ _ _ (by decide), rfl, rfl⟩

/-- WaitLevel: a first sample that meets the level, and a deadline check at the very timeout. -/
theorem witness_WaitLevel :
    (handle config fresh (waitNeeds config .clk .low ++ [])).Ready ((waitNeeds config .clk .low).map answer) [] ∧
    answersAt (handle config fresh []).drive (waitNeeds config .clk .low) ((waitNeeds config .clk .low).map answer) = true ∧
    (handle config fresh (timeoutNeeds config .clk .low ++ [])).Ready ((timeoutNeeds config .clk .low).map answer) [] ∧
    answersAt (handle config fresh []).drive (timeoutNeeds config .clk .low)
      ((timeoutNeeds config .clk .low).map answer) = true ∧
    config.waitPolicy = .bounded ∧ narrow.waitPolicy = .bounded ∧ config.noWrap ((timeoutNeeds config .clk .low).map answer) ∧
    narrow.noWrap ((timeoutNeeds narrow .clk .low).map answer) ∧
    ∃ t, exec (.waitLevel .clk .low) (handle config fresh (waitNeeds config .clk .low)) = .next t ∧ t.pos = .idle :=
  ⟨handle_ready _ _ _ _ (by decide), by decide, handle_ready _ _ _ _ (by decide), by decide, rfl, rfl, noWrap_config _,
    noWrap_narrow (by decide), runs (by decide)⟩

/-- WaitClockBounded: timeout 0 in both clauses. -/
theorem witness_WaitClockBounded :
    (handle config fresh ([.any, .reads .clk .low] ++ [])).Ready ([Need.any, .reads .clk .low].map answer) [] ∧
    answersAt (handle config fresh []).drive [.any, .reads .clk .low] ([Need.any, .reads .clk .low].map answer) = true ∧
    (handle config fresh ([.any, .reads .clk .high, .late 0] ++ [])).Ready
      ([Need.any, .reads .clk .high, .late 0].map answer) [] ∧
    answersAt (handle config fresh []).drive [.any, .reads .clk (otherLevel .low), .late 0]
      ([Need.any, .reads .clk .high, .late 0].map answer) = true ∧
    config.noWrap ([Need.any, .reads .clk .high, .late 0].map answer) ∧
    narrow.noWrap ([Need.any, .reads .clk .high, .late 2000].map answer) ∧
    ∃ t, exec (.waitClockBounded .low 0) (handle config fresh [.any, .reads .clk .high, .late 0]) = .next t ∧ t.pos = .idle :=
  ⟨handle_ready _ _ _ _ (by decide), by decide, handle_ready _ _ _ _ (by decide), by decide, noWrap_config _,
    noWrap_narrow (by decide), runs (by decide)⟩

/-- SendBit, ReceiveBit: a pulse, a first wait that expires, and a second one, with either clock. -/
theorem witness_Bits :
    let second := waitNeeds config .clk .low ++ timeoutNeeds config .clk .high
    let read (b : Bool) := waitNeeds config .clk .low ++ [.reads .dat (Level.ofBit b)] ++ timeoutNeeds config .clk .high
    (∀ ns ∈ [pulseNeeds config, bitNeeds config true, bitNeeds config false, timeoutNeeds config .clk .low, second, read true,
      read false], answersAt (handle config fresh []).drive ns (ns.map answer) = true ∧ ((ns.map answer).map EnvMove.dt).sum < 2 ^ 11) ∧
    (∀ ns, (handle config fresh (ns ++ [])).Ready (ns.map answer) []) ∧
    config.waitPolicy = .bounded ∧ (∀ ns : List Need, config.noWrap (ns.map answer)) ∧
    narrow.waitPolicy = .bounded ∧ narrow.noWrap ((read true).map answer) :=
  ⟨by decide, fun _ => handle_ready _ _ _ _ (by decide), rfl, fun _ => noWrap_config _, rfl, noWrap_narrow (by decide)⟩

/-- WriteByte, Loopback's first hypothesis. -/
theorem witness_WriteByte :
    (handle config fresh (writeNeeds config ++ [])).Ready ((writeNeeds config).map answer) [] ∧
    answers (writeNeeds config) ((writeNeeds config).map answer) = true :=
  ⟨handle_ready _ _ _ _ (by decide), by decide +kernel⟩

/-- WriteByteTimesOut: step 5; both waits of the first data slot, of the last, of the parity and of the stop slot; step 9. -/
theorem witness_WriteByteTimesOut :
    let ready (k : Nat) := startNeeds ++ waitNeeds narrow .clk .low ++ (List.replicate k (pulseNeeds narrow)).flatten
    (∀ ns ∈ [startNeeds ++ timeoutNeeds narrow .clk .low, ready 10 ++ timeoutNeeds narrow .dat .low]
        ++ ([0, 7, 8, 9].map fun k => [ready k ++ timeoutNeeds narrow .clk .low,
          ready k ++ waitNeeds narrow .clk .low ++ timeoutNeeds narrow .clk .high]).flatten,
      answers ns (ns.map answer) = true ∧ ((ns.map answer).map EnvMove.dt).sum < 2 ^ 11) ∧
    (∀ ns, (handle narrow fresh (ns ++ [])).Ready (ns.map answer) []) ∧ narrow.waitPolicy = .bounded ∧
    ∀ ns : List Need, ((ns.map answer).map EnvMove.dt).sum < 2 ^ 11 → narrow.noWrap (ns.map answer) :=
  ⟨by decide +kernel, fun _ => handle_ready _ _ _ _ (by decide), rfl, fun _ => noWrap_narrow⟩

/-- WriteByteLineEvents, ErrorsLeaveWritesUnmade: a write that ends in an error. -/
theorem witness_WriteByte_run :
    (handle config fresh (startNeeds ++ timeoutNeeds config .clk .low)).Inv ∧
    (handle config fresh (startNeeds ++ timeoutNeeds config .clk .low)).pos = .idle ∧
    ∃ t, exec (.writeByte 0xFF) (handle config fresh (startNeeds ++ timeoutNeeds config .clk .low)) = .next t ∧
      t.responses = [] ++ [⟨.busTimeout, .none⟩] ∧ ResponseCode.busTimeout ≠ .ok :=
  ⟨handle_inv _ _ _ (by decide), rfl, runs (by decide +kernel)⟩

/-- ReadByte for a frame with both check bits wrong. -/
theorem witness_ReadByte :
    (handle strict fresh (readNeeds strict ⟨0xFA, false, false⟩ ++ [])).Ready
      ((readNeeds strict ⟨0xFA, false, false⟩).map answer) [] ∧
    answers (readNeeds strict ⟨0xFA, false, false⟩) ((readNeeds strict ⟨0xFA, false, false⟩).map answer) = true :=
  ⟨handle_ready _ _ _ _ (by decide), by decide +kernel⟩

/-- ReadByteTimesOut: both waits of the start bit; both waits of the first data bit, of the parity and of the stop bit. -/
theorem witness_ReadByteTimesOut :
    let before (bits : List Bool) := [Need.any] ++ pulseNeeds narrow ++ [.any] ++ (bits.map (bitNeeds narrow)).flatten
    (∀ ns ∈ [[Need.any] ++ timeoutNeeds narrow .clk .low,
          [Need.any] ++ waitNeeds narrow .clk .low ++ timeoutNeeds narrow .clk .high]
        ++ ([0, 8, 9].map fun k => [before (List.replicate k true) ++ timeoutNeeds narrow .clk .low,
          before (List.replicate k false) ++ waitNeeds narrow .clk .low ++ [.reads .dat .low]
            ++ timeoutNeeds narrow .clk .high]).flatten,
      answers ns (ns.map answer) = true ∧ ((ns.map answer).map EnvMove.dt).sum < 2 ^ 11) ∧
    (∀ ns, (handle narrow fresh (ns ++ [])).Ready (ns.map answer) []) ∧ narrow.waitPolicy = .bounded ∧
    (∀ ns : List Need, ((ns.map answer).map EnvMove.dt).sum < 2 ^ 11 → narrow.noWrap (ns.map answer)) ∧
    (List.replicate 9 true).length < 10 :=
  ⟨by decide +kernel, fun _ => handle_ready _ _ _ _ (by decide), rfl, fun _ => noWrap_narrow, by decide⟩

/-- ReadByteSamples: a read that responds with a byte, in strict mode. -/
theorem witness_ReadByteSamples :
    ∃ t, exec .readByte (handle strict fresh (readNeeds strict (.good 0xFF))) = .next t ∧
      t.responses = [] ++ [⟨.ok, .byte 0xFF⟩] :=
  runs (by decide +kernel)

/-- Loopback: the reply to the latched slots of a written byte. -/
theorem witness_Loopback :
    (handle strict fresh (writeNeeds strict ++ readNeeds strict (.good 0xE8))).Ready ((writeNeeds strict).map answer)
      ((readNeeds strict (.good 0xE8)).map answer ++ []) ∧
    answers (writeNeeds strict) ((writeNeeds strict).map answer) = true ∧
    answers (readNeeds strict (.good 0xE8)) ((readNeeds strict (.good 0xE8)).map answer) = true :=
  ⟨by rw [List.append_nil]; exact handle_ready _ _ _ _ (by decide), by decide +kernel, by decide +kernel⟩

/-- Initialize, in Polled and repeated in Continuous, in strict mode. -/
theorem witness_Initialize :
    (handle strict fresh (initializeNeeds strict fresh ack [ack] ++ [])).Ready
      ((initializeNeeds strict fresh ack [ack]).map answer) [] ∧
    [ack].length = (initializePlan strict fresh).1.length ∧
    answers (initializeNeeds strict fresh ack [ack]) ((initializeNeeds strict fresh ack [ack]).map answer) = true ∧
    ([] : List RxFrame).length = (initializePlan strict streaming).1.length ∧
    answers (initializeNeeds strict streaming ack []) ((initializeNeeds strict streaming ack []).map answer) = true ∧
    replyAccepted strict ack = true ∧ (∀ x ∈ [ack], replyAccepted strict x = true) :=
  ⟨handle_ready _ _ _ _ (by decide), by decide, by decide +kernel, by decide, by decide +kernel, by decide, by decide⟩

/-- SelectMode, SetModes: from Continuous to both modes, already initialized. -/
theorem witness_SelectMode :
    (handle strict streaming ((exchangeNeeds strict [ack, ack] ++ settleNeeds streaming) ++ [])).Ready
      ((exchangeNeeds strict [ack, ack] ++ settleNeeds streaming).map answer) [] ∧
    [ack, ack].length = (selectPlan strict 0xF0 .polled streaming).1.length ∧
    [ack, ack, ack].length = (selectPlan strict 0xEA .continuous streaming).1.length ∧
    answers (exchangeNeeds strict [ack, ack] ++ settleNeeds streaming)
      ((exchangeNeeds strict [ack, ack] ++ settleNeeds streaming).map answer) = true ∧
    (∀ x ∈ [ack, ack], replyAccepted strict x = true) :=
  ⟨handle_ready _ _ _ _ (by decide), by decide, by decide, by decide +kernel, by decide⟩

/-- EnableAndDisable, EnableTwiceSendsOnce: both clauses of each flag. -/
theorem witness_EnableAndDisable :
    (handle strict fresh (exchangeNeeds strict [ack] ++ [])).Ready ((exchangeNeeds strict [ack]).map answer) [] ∧
    answers (exchangeNeeds strict [ack]) ((exchangeNeeds strict [ack]).map answer) = true ∧ replyAccepted strict ack = true ∧
    (handle strict fresh []).reportingEnabled = false ∧ (handle strict fresh []).reportingDisabled = false ∧
    (handle strict ⟨.polled, true, true, false⟩ []).reportingEnabled = true ∧
    (handle strict ⟨.polled, true, false, true⟩ []).reportingDisabled = true :=
  ⟨handle_ready _ _ _ _ (by decide), by decide +kernel, by decide, rfl, rfl, rfl, rfl⟩

/-- ConfigurationCommands in Continuous. -/
theorem witness_ConfigurationCommands :
    (handle config streaming (exchangeNeeds config [ack, ack, ack, ack] ++ [])).Ready
      ((exchangeNeeds config [ack, ack, ack, ack]).map answer) [] ∧
    [ack, ack, ack, ack].length = (configPlan config [0xE8, 3] streaming).1.length ∧
    [ack, ack, ack].length = (configPlan config [config.cmdScaling1to1] streaming).1.length ∧
    answers (exchangeNeeds config [ack, ack, ack, ack]) ((exchangeNeeds config [ack, ack, ack, ack]).map answer) = true ∧
    (∀ r ∈ [ack, ack, ack, ack], replyAccepted config r = true) :=
  ⟨handle_ready _ _ _ _ (by decide), by decide, by decide, by decide +kernel, by decide⟩

theorem witness_PollReport :
    let ns := exchangeNeeds strict [ack] ++ readNeeds strict (.good 0x18) ++ readNeeds strict (.good 0xFF)
      ++ readNeeds strict (.good 0x02)
    (handle strict polledReady (ns ++ [])).Ready (ns.map answer) [] ∧ answers ns (ns.map answer) = true ∧
    replyAccepted strict ack = true ∧
    (∀ f ∈ [RxFrame.good 0x18, .good 0xFF, .good 0x02], strict.strict = .strict → f.parity = oddParity f.data ∧ f.stop = true) :=
  ⟨handle_ready _ _ _ _ (by decide), by decide +kernel, by decide, by decide⟩

/-- PollReport, its second clause: a wrong parity bit, a wrong stop bit and both in the status, the X and the Y frame. -/
theorem witness_PollReport_badFrame :
    (∀ k < 3, ∀ bad ∈ [RxFrame.mk 0x05 false true, ⟨0x05, true, false⟩, ⟨0x05, false, false⟩],
      let good := List.replicate k (RxFrame.good 0x05)
      let ns := exchangeNeeds strict [ack] ++ (good.map (readNeeds strict)).flatten ++ readNeeds strict bad
      good.length < 3 ∧ answers ns (ns.map answer) = true ∧ (∀ f ∈ good, f.parity = oddParity f.data ∧ f.stop = true) ∧
      ¬(bad.parity = oddParity bad.data ∧ bad.stop = true)) ∧
    (∀ ns, (handle strict polledReady (ns ++ [])).Ready (ns.map answer) []) ∧ strict.strict = .strict ∧
    replyAccepted strict ack = true :=
  ⟨by decide +kernel, fun _ => handle_ready _ _ _ _ (by decide), rfl, by decide⟩

/-- The requests with a row in R107's table. -/
def tableRequests : List Instr :=
  [.initializeDevice, .setPolledMode, .setContinuousMode, .enableReporting, .disableReporting, .setSampleRate 100,
    .setResolution 3, .setScaling2to1, .setScaling1to1, .pollReport, .getPins]

/-- Session fields of every row of R107's table: no flag, one or the other set, in either mode. -/
def sessions : List SessionState :=
  ([.polled, .continuous] : List Mode).flatMap fun m =>
    ([(false, false), (true, false), (false, true)] : List (Bool × Bool)).map fun e => ⟨m, true, e.1, e.2⟩

/-- R107: the bytes of the table's rows with the mode and the flags, one column a session of `sessions`; `none` where it has no row. -/
theorem test_trafficRow :
    (tableRequests.map fun i => sessions.map fun p => (trafficRow config p i).map (·.1)) =
    [[some [0xFF, 0xF0], some [0xFF, 0xF0], some [0xFF, 0xF0], some [0xFF, 0xF4], some [0xFF], some [0xFF, 0xF4]],
      [some [0xF0], some [0xF0], some [0xF0], some [0xF5, 0xF0], some [0xF5, 0xF0], none],
      [some [0xEA, 0xF4], none, some [0xEA, 0xF4], none, some [0xF5, 0xEA, 0xF4], none],
      [some [0xF4], some [], some [0xF4], some [0xF4], some [], some [0xF4]],
      [some [0xF5], some [0xF5], some [], some [0xF5], some [0xF5], some []],
      [some [0xF3, 0x64], some [0xF3, 0x64], some [0xF3, 0x64], none, some [0xF5, 0xF3, 0x64, 0xF4], none],
      [some [0xE8, 0x03], some [0xE8, 0x03], some [0xE8, 0x03], none, some [0xF5, 0xE8, 0x03, 0xF4], none],
      [some [0xE7], some [0xE7], some [0xE7], none, some [0xF5, 0xE7, 0xF4], none],
      [some [0xE6], some [0xE6], some [0xE6], none, some [0xF5, 0xE6, 0xF4], none],
      [some [0xEB], some [0xEB], some [0xEB], some [0xEB], some [0xEB], some [0xEB]],
      [some [], some [], some [], some [], some [], some []]] := by decide +kernel

/-- SessionTraffic: every request of R107's table, in every session, wherever the table has a row. -/
theorem witness_SessionTraffic :
    (∀ i ∈ tableRequests, ∀ p ∈ sessions, ∀ row ∈ trafficRow config p i,
      let ns := trafficNeeds config p i (row.1.map fun _ => ack) [ack, ack, ack]
      answers ns (ns.map answer) = true) ∧
    (∀ p ∈ sessions, ∀ ns, (handle config p (ns ++ [])).Ready (ns.map answer) [] ∧ (handle config p (ns ++ [])).session = p) ∧
    config.strict = .lenient ∧ config.flagPolicy = .exclusive ∧ config.reenableGuard = .target ∧
    (∀ i ∈ tableRequests, ∃ p ∈ sessions, (trafficRow config p i).isSome = true) :=
  ⟨by decide +kernel, fun p hp _ => ⟨handle_ready _ _ _ _ (by revert p; decide), rfl⟩, rfl, rfl, rfl, by decide +kernel⟩

theorem witness_ModeRoundTrip :
    let ns := exchangeNeeds strict [ack, ack] ++ settleNeeds polledReady
    (handle strict polledReady (ns ++ ns)).Ready (ns.map answer) (ns.map answer ++ []) ∧
    answers ns (ns.map answer) = true ∧ strict.flagPolicy = .exclusive ∧ strict.reenableGuard = .target ∧
    (handle strict polledReady []).mode = .polled ∧ (handle strict polledReady []).reportingEnabled = false ∧
    (handle strict polledReady []).reportingDisabled = false ∧ (∀ x ∈ [ack, ack, ack, ack], replyAccepted strict x = true) :=
  ⟨by rw [List.append_nil]; exact handle_ready _ _ _ _ (by decide), by decide +kernel, rfl, rfl, rfl, rfl, rfl, by decide⟩

/-- The requests with a command exchange. -/
def commandRequests : List Instr :=
  [.initializeDevice, .pollReport, .setPolledMode, .setContinuousMode, .setSampleRate 100, .setResolution 3, .setScaling2to1,
    .setScaling1to1, .enableReporting, .disableReporting, .selectMode 0xEA .continuous]

/-- RefusedAcknowledgment: every exchange of every request in every session of `sessions`, refused by a wrong byte and by a wrong
stop bit; each request has an exchange in some session. -/
theorem witness_RefusedAcknowledgment :
    (∀ i ∈ commandRequests, i.commands = true ∧ (∃ p ∈ sessions, 0 < (exchangePlan strict p i).length) ∧
      ∀ p ∈ sessions, ∀ k < (exchangePlan strict p i).length, ∀ bad ∈ [RxFrame.good 0xFE, ⟨0xFA, true, false⟩],
        let ns := requestNeeds strict i (List.replicate k ack ++ [bad])
        answers ns (ns.map answer) = true) ∧
    (∀ p ∈ sessions, ∀ ns, (handle strict p (ns ++ [])).Ready (ns.map answer) []) ∧
    strict.strict = .strict ∧ replyAccepted strict ack = true ∧
    (∀ bad ∈ [RxFrame.good 0xFE, ⟨0xFA, false, true⟩, ⟨0xFA, true, false⟩], replyAccepted strict bad = false) :=
  ⟨by decide +kernel, fun p hp _ => handle_ready _ _ _ _ (by revert p; decide), rfl, by decide, by decide⟩

/-- V-E2 in a configuration command: the acknowledgment of its parameter byte is refused; the completed disable stands. -/
theorem test_setResolution_refused :
    summary (exec (.setResolution 3) (handle strict streaming (exchangeNeeds strict [ack, ack, .good 0xFC]))) =
    some ([.wrote 0xF5, .read 0xFA, .wrote 0xE8, .read 0xFA, .wrote 0x03, .read 0xFC], [⟨.unexpectedAcknowledgment, .none⟩],
      ⟨.continuous, true, false, true⟩, .drivenLow, .released) := by decide +kernel

theorem witness_SilentDeviceTimesOut :
    let ns := [Need.any] ++ startNeeds ++ timeoutNeeds config .clk .low
    (handle config fresh (ns ++ [])).Ready (ns.map answer) [] ∧ config.waitPolicy = .bounded ∧ config.noWrap (ns.map answer) ∧
    narrow.noWrap (([Need.any] ++ startNeeds ++ timeoutNeeds narrow .clk .low).map answer) ∧
    Instr.commands .initializeDevice = true ∧ Instr.commands .enableReporting = true ∧
    (handle config fresh []).reportingEnabled = false ∧ answers ns (ns.map answer) = true :=
  ⟨handle_ready _ _ _ _ (by decide), rfl, noWrap_config _, noWrap_narrow (by decide), rfl, rfl, rfl, by decide⟩

theorem witness_CompletedDisableStands :
    let ns := exchangeNeeds config [ack] ++ startNeeds ++ timeoutNeeds config .clk .low
    (handle config streaming (ns ++ [])).Ready (ns.map answer) [] ∧ config.waitPolicy = .bounded ∧ config.noWrap (ns.map answer) ∧
    (handle config streaming []).mode = .continuous ∧ (handle config streaming []).reportingDisabled = false ∧
    answers ns (ns.map answer) = true ∧ replyAccepted config ack = true :=
  ⟨handle_ready _ _ _ _ (by decide), rfl, noWrap_config _, rfl, rfl, by decide +kernel, by decide⟩

end Sys2Proof.Tests
end

section
/-! PROOFS of the statements of spec/00_scope.md: where one step of the machine ends is no part of it (R7, R26, log 3), and reset is
the default construction (R8, R28, R123). -/

namespace Sys2Proof.Machine

/-- The pseudocode of a request does not depend on the environment moves placed. -/
theorem requestBody_moreEnv (i : Instr) (s : State) (b : List EnvMove) :
    requestBody i (s.moreEnv b) = requestBody i s := by
  cases i <;> rfl

/-- R26: a run goes on from where it stands when more moves are placed. -/
theorem State.Reaches.resume_moreEnv {s t : State} (h : s.Reaches t) (b : List EnvMove) :
    (s.moreEnv b).resume = (t.moreEnv b).resume :=
  (h.moreEnv b).resume_eq

/-- R26: a request whose placed moves lead it to `t` does with more of them what the run does from `t`. -/
theorem exec_moreEnv {i : Instr} {s t : State} (h : exec i s = .next t) (b : List EnvMove) :
    exec i (s.moreEnv b) = (t.moreEnv b).resume := by
  obtain ⟨hidle, hreach, -⟩ := exec_next h
  rw [exec_eq_request, request_idle (show (s.moreEnv b).pos = .idle from hidle), requestBody_moreEnv]
  exact hreach.resume_moreEnv b

/-- R27: where a move is placed, no free one is supplied. -/
theorem State.supplyMove_of_env {s : State} (henv : s.env ≠ []) : s.supplyMove = s := by
  unfold State.supplyMove
  split
  · contradiction
  · rfl

/-- R26: a step of a busy engine with a move placed goes on with its request, and takes no free move. -/
theorem step_of_busy {s : State} (hbusy : s.pos ≠ .idle) (henv : s.env ≠ []) : step s = s.resume := by
  rcases step_cases s with ⟨hp, -⟩ | ⟨_, _, _, hp, -⟩ | ⟨_, _, _, hp, -⟩ | ⟨_, _, -, hstep⟩
  · exact absurd hp hbusy
  · exact absurd hp hbusy
  · exact absurd hp hbusy
  · rw [hstep, State.supplyMove_of_env henv]

/-- A request that is still busy has used up the moves placed. -/
theorem env_nil_of_exec_busy {i : Instr} {s t : State} (h : exec i s = .next t) (hbusy : t.pos ≠ .idle) : t.env = [] := by
  obtain ⟨-, -, hhalted⟩ := exec_next h
  exact hhalted.idle_or_env.resolve_left hbusy

/-- Settles O9: the run with all moves placed passes through the state in which the first moves are used up, and what is left of
it there is the run of the step that goes on with the rest. -/
theorem environmentMayAnswerInParts : Obligations.EnvironmentMayAnswerInParts := by
  unfold Obligations.EnvironmentMayAnswerInParts
  intro i s t a b _ hb hexec hbusy
  have hrest : t.moreEnv b = { t with env := b } := by
    simp [State.moreEnv, env_nil_of_exec_busy hexec hbusy]
  calc exec i { s with env := a ++ b }
    _ = (t.moreEnv b).resume := exec_moreEnv hexec b
    _ = State.resume { t with env := b } := by rw [hrest]
    _ = step { t with env := b } := (step_of_busy (s := { t with env := b }) hbusy hb).symm

/-- Settles O15: the two pins of reset differ, so the construction is not refused (R125), and its fields are those of reset. -/
theorem resetIsDefaultConstruction : Obligations.ResetIsDefaultConstruction := by
  have hpins : PinId.first ≠ PinId.second := by decide
  exact if_neg hpins

end Sys2Proof.Machine
end

section
/-! PROOFS of the statements of spec/10_state.md: what a step does at `Idle` and while busy (R26, R27), the invariant and that every
step answers (R20, R23, R25, R125), construction (R28, R123 to R125), and which fields of the handle a step can write (R16 to R21,
R24). -/

namespace Sys2Proof.Machine

variable {s t u : State}

/-! ### A step at `Idle` and a step of a busy engine -/

/-- R122: at `Idle` with no word a step changes nothing. -/
theorem step_of_no_request (hidle : s.pos = .idle) (hreq : s.requests = []) : step s = .next s := by
  simp only [step, hidle, fetchAndRun, hreq]

/-- R26, R54: at `Idle` a step takes the caller's next word and runs the request it decodes to. -/
theorem step_of_request {w : Request} {rest : List Request} {i : Instr} (hidle : s.pos = .idle) (hreq : s.requests = w :: rest)
    (hdecode : decode w = .ok i) : step s = exec i { s with requests := rest } := by
  simp only [step, hidle, fetchAndRun, hreq, hdecode]

/-- Settles O7, one clause for the empty list of words and one for its head. -/
theorem stepRunsDecodedRequest : Obligations.StepRunsDecodedRequest := by
  unfold Obligations.StepRunsDecodedRequest
  intro s hidle
  exact ⟨step_of_no_request hidle, fun _ _ _ hreq hdecode => step_of_request hidle hreq hdecode⟩

/-- R27, D43: where no move is placed, the next free one is. -/
theorem State.supplyMove_of_nil (henv : s.env = []) :
    s.supplyMove = { s with env := [Config.freeMove s.freeMoves], freeMoves := s.freeMoves + 1 } := by
  simp only [State.supplyMove, henv]

/-- Settles O8: with no move placed, the step first supplies the free move, and then it is the step of the state in which that move
stands. -/
theorem stepResumesBusyRequest : Obligations.StepResumesBusyRequest := by
  unfold Obligations.StepResumesBusyRequest
  intro s req todo hpos
  have hbusy : s.pos ≠ .idle := by rw [hpos]; nofun
  refine ⟨step_of_busy hbusy, fun henv => ?_⟩
  calc step s
    _ = s.supplyMove.resume := by simp only [step, hpos]
    _ = State.resume { s with env := [Config.freeMove s.freeMoves], freeMoves := s.freeMoves + 1 } := by
      rw [State.supplyMove_of_nil henv]
    _ = _ := (step_of_busy
      (s := { s with env := [Config.freeMove s.freeMoves], freeMoves := s.freeMoves + 1 }) hbusy (List.cons_ne_nil _ _)).symm

/-! ### Refusals -/

/-- R26: a busy engine starts no request. -/
theorem exec_of_busy (hbusy : s.pos ≠ .idle) (i : Instr) : exec i s = .refused .requestWhileBusy := by
  rw [exec_eq_request]
  cases hpos : s.pos with
  | idle => exact absurd hpos hbusy
  | busy req todo => exact request_busy hpos _ _

theorem State.resume_ne_refused (s : State) (r : Refusal) : s.resume ≠ .refused r := by
  rcases State.resume_cases s with ⟨_, h, -⟩ | ⟨_, _, h, -⟩ <;> rw [h] <;> nofun

/-- R26: the caller issues a request only at `Idle`, where it is not refused. -/
theorem step_ne_refused (s : State) (r : Refusal) : step s ≠ .refused r := by
  rcases step_cases s with ⟨-, -, h⟩ | ⟨_, _, _, -, -, -, h⟩ | ⟨_, rest, i, hidle, -, -, h⟩ | ⟨_, _, -, h⟩
  · rw [h]; nofun
  · rw [h]; nofun
  · rw [h, exec_eq_request, request_idle (s := { s with requests := rest }) hidle]
    exact State.resume_ne_refused _ r
  · rw [h]; exact State.resume_ne_refused _ r

/-- Settles O23. -/
theorem oneRequestAtATime : Obligations.OneRequestAtATime :=
  ⟨fun i _ hbusy => exec_of_busy hbusy i, step_ne_refused⟩

/-! ### The invariant -/

/-- R26: the caller's requests and responses are nothing the invariant speaks of. -/
theorem State.Inv.with_requests_responses (h : s.Inv) (rest : List Request) (rs : List Response) :
    State.Inv { s with requests := rest, responses := rs } :=
  ⟨h.pins, h.idle, h.busy, h.fits, h.flags⟩

/-- Settles O10: every atomic step keeps the invariant, and so do taking a request, answering an illegal word and supplying a free
move. -/
theorem stepKeepsInvariant : Obligations.StepKeepsInvariant := by
  unfold Obligations.StepKeepsInvariant
  intro s t hs h
  exact step_keeps (P := State.Inv) (fun _ _ => State.tick_inv) (fun _ _ _ _ ha hidle _ _ => start_inv ha hidle)
    (fun _ _ rest ha _ _ => ha.with_requests_responses rest _) (fun _ => supply_inv) hs h

/-- R23, R25: the run of a state with the invariant meets no fault. -/
theorem State.Inv.resume_next (h : s.Inv) : ∃ t, s.resume = .next t ∧ s.Reaches t ∧ t.Halted ∧ t.Inv := by
  have hinv : ∀ t, s.Reaches t → t.Inv := fun t hreach => hreach.keeps (fun _ _ => State.tick_inv) h
  rcases State.resume_cases s with ⟨t, hresume, hreach, hhalted⟩ | ⟨t, f, -, hreach, hfault⟩
  · exact ⟨t, hresume, hreach, hhalted, hinv t hreach⟩
  · exact absurd hfault (State.tick_noFault (hinv t hreach) f)

/-- From `Idle` and the invariant, exec answers where the run of the request's pseudocode halts. -/
theorem State.Inv.exec_next (h : s.Inv) (hidle : s.pos = .idle) (i : Instr) :
    ∃ t, exec i s = .next t ∧ State.Reaches { s with pos := .busy i (requestBody i s) } t ∧ t.Halted ∧ t.Inv := by
  rw [exec_eq_request, request_idle hidle]
  exact (start_inv (rest := s.requests) h hidle).resume_next

/-- Settles O12, one case for each thing a step can do. -/
theorem stepAlwaysAnswers : Obligations.StepAlwaysAnswers := by
  unfold Obligations.StepAlwaysAnswers
  intro s hs
  rcases step_cases s with ⟨-, -, h⟩ | ⟨_, _, _, -, -, -, h⟩ | ⟨_, rest, i, hidle, -, -, h⟩ | ⟨_, _, -, h⟩
  · exact ⟨s, h⟩
  · exact ⟨_, h⟩
  · obtain ⟨t, hexec, -⟩ := (hs.with_requests_responses rest s.responses).exec_next hidle i
    exact ⟨t, h.trans hexec⟩
  · obtain ⟨t, hresume, -⟩ := (supply_inv hs).resume_next
    exact ⟨t, h.trans hresume⟩

/-- R26, R57: the request `i` goes on from `s` to `t` with no response, or has ended in `t` with its one response. -/
def Progress (i : Instr) (s t : State) : Prop :=
  (t.pos = .idle ∧ ∃ r, t.responses = s.responses ++ [r]) ∨ (t.responses = s.responses ∧ ∃ todo, t.pos = .busy i todo)

/-- R57: a run of a busy engine answers once, when it ends. -/
theorem State.Reaches.progress {i : Instr} {todo : List Micro} (h : s.Reaches t) (hpos : s.pos = .busy i todo) :
    Progress i s t := by
  refine h.keeps (P := Progress i s) (fun a b ha hab => ?_) (.inr ⟨rfl, todo, hpos⟩)
  rcases ha with ⟨hidle, -⟩ | ⟨hresp, todo', hbusy⟩
  · rw [State.tick_idle hidle] at hab; cases hab
  · rcases (State.tick_facts hab).answered with ⟨hb, hgoes⟩ | ⟨r, hb, -, hidle, -⟩
    · exact .inr ⟨hb.trans hresp, hgoes _ _ hbusy⟩
    · exact .inl ⟨hidle, r, hresp ▸ hb⟩

theorem State.Reaches.requests_eq (h : s.Reaches t) : t.requests = s.requests :=
  h.keeps (P := fun u => u.requests = s.requests) (fun _ _ ha hab => (State.tick_facts hab).requests.trans ha) rfl

/-- Settles O13: the run meets no fault, answers once if it ends, and where it does not end no placed move is left. -/
theorem everyRequestAnswers : Obligations.EveryRequestAnswers := by
  unfold Obligations.EveryRequestAnswers
  intro i s hs hidle
  obtain ⟨t, hexec, hreach, hhalted, hinv⟩ := hs.exec_next hidle i
  refine ⟨t, hexec, hinv, hreach.requests_eq, ?_⟩
  rcases hreach.progress rfl with hended | ⟨hresp, todo, hbusy⟩
  · exact .inl hended
  · have henv : t.env = [] := env_nil_of_exec_busy hexec (by rw [hbusy]; nofun)
    exact .inr ⟨henv, hresp, todo, hbusy⟩

/-! ### Construction -/

/-- R125, D28: equal pins are refused. -/
theorem construct_refused (cfg : Config) (pin : PinId) (m : Mode) (dc dd : Drive) :
    State.construct cfg pin pin m dc dd = .refused .equalPins := if_pos rfl

/-- Settles O14. -/
theorem constructionLeaves : Obligations.ConstructionLeaves := by
  unfold Obligations.ConstructionLeaves
  intro cfg clk dat m dc dd
  constructor
  · rintro rfl
    exact construct_refused cfg clk m dc dd
  · intro hne
    exact ⟨_, if_neg hne, rfl, rfl, rfl, rfl, rfl, rfl, rfl, rfl, rfl, rfl, rfl, rfl, rfl⟩

/-- R20, R23, R25, R125: a constructed handle is idle, with distinct pins and neither flag. -/
theorem construct_inv {cfg : Config} {clk dat : PinId} {m : Mode} {dc dd : Drive}
    (h : State.construct cfg clk dat m dc dd = .next s) : s.Inv := by
  unfold State.construct at h
  split at h
  · cases h
  · next hne =>
    cases h
    exact ⟨hne, fun _ => ⟨rfl, rfl⟩, nofun, nofun, fun _ => nofun⟩

/-- Settles O11: reset is a construction (O15). -/
theorem invariantHoldsInitially : Obligations.InvariantHoldsInitially :=
  ⟨construct_inv resetIsDefaultConstruction, fun _ _ _ _ _ _ _ => construct_inv⟩

/-! ### The fields only a pseudocode step can write -/

/-- R15: the part of the handle that only pseudocode steps can write: not the caller, and not the environment. -/
structure Settings where
  clockPin : PinId
  dataPin  : PinId
  cfg      : Config
  session  : SessionState

def State.settings (s : State) : Settings := ⟨s.clockPin, s.dataPin, s.cfg, s.session⟩

@[simp] theorem State.supplyMove_settings (s : State) : s.supplyMove.settings = s.settings := by
  unfold State.supplyMove
  split <;> rfl

/-- A property of the settings that every atomic step keeps is kept by every step. -/
theorem step_keeps_settings {Q : Settings → Prop} (htick : ∀ a b : State, Q a.settings → a.tick = .moved b → Q b.settings)
    (hs : Q s.settings) (h : step s = .next t) : Q t.settings :=
  step_keeps (P := fun u => Q u.settings) htick (fun _ _ _ _ ha _ _ _ => ha) (fun _ _ _ ha _ _ => ha)
    (fun a ha => a.supplyMove_settings.symm ▸ ha) hs h

/-- Settles O16: no atomic step writes them. -/
theorem pinsAndConfigurationFixed : Obligations.PinsAndConfigurationFixed := by
  unfold Obligations.PinsAndConfigurationFixed
  intro s t h
  refine step_keeps_settings (Q := fun x => x.clockPin = s.clockPin ∧ x.dataPin = s.dataPin ∧ x.cfg = s.cfg)
    (fun a b ⟨hclk, hdat, hcfg⟩ hab => ?_) ⟨rfl, rfl, rfl⟩ h
  have facts := State.tick_facts hab
  exact ⟨facts.clockPin.trans hclk, facts.dataPin.trans hdat, facts.cfg.trans hcfg⟩

/-! ### The pairs of reporting flags -/

/-- R20: how the flag policy lets the reporting flags go from those of `p` to those of `q`. -/
structure FlagsFollow (policy : FlagPolicy) (p q : SessionState) : Prop where
  setOnly : policy = .setOnly → (p.enabled = true → q.enabled = true) ∧ (p.disabled = true → q.disabled = true)
  exclusive : policy = .exclusive → ¬(p.enabled = true ∧ p.disabled = true) → ¬(q.enabled = true ∧ q.disabled = true)
  once : (p.enabled = true ∨ p.disabled = true) → (q.enabled = true ∨ q.disabled = true)

/-- The flags are as they were. -/
theorem FlagsFollow.of_eq {policy : FlagPolicy} {p q : SessionState} (henabled : q.enabled = p.enabled)
    (hdisabled : q.disabled = p.disabled) : FlagsFollow policy p q := by
  constructor <;> rw [henabled, hdisabled]
  · exact fun _ => ⟨id, id⟩
  · exact fun _ => id
  · exact id

theorem FlagsFollow.trans {policy : FlagPolicy} {p q r : SessionState} (h : FlagsFollow policy p q)
    (g : FlagsFollow policy q r) : FlagsFollow policy p r :=
  ⟨fun hp => ⟨(g.setOnly hp).1 ∘ (h.setOnly hp).1, (g.setOnly hp).2 ∘ (h.setOnly hp).2⟩,
    fun hp => g.exclusive hp ∘ h.exclusive hp, g.once ∘ h.once⟩

/-- R95, R96: only the two steps that set a flag write them, and each treats the other flag by the policy. -/
theorem FlagsFollow.tick (h : s.tick = .moved t) : FlagsFollow s.cfg.flagPolicy s.session t.session := by
  refine session_tick h (fun t => FlagsFollow s.cfg.flagPolicy s.session t.session) ?_ ?_ ?_ ?_ ?_
  · intro hsame; rw [hsame]; exact .of_eq rfl rfl
  · intro _ _ _ henabled; rw [henabled]
    exact ⟨fun hp => ⟨fun _ => rfl, by simp [otherFlag, hp, State.session]⟩, fun hp _ => by simp [otherFlag, hp],
      fun _ => .inl rfl⟩
  · intro _ _ _ hdisabled; rw [hdisabled]
    exact ⟨fun hp => ⟨by simp [otherFlag, hp, State.session], fun _ => rfl⟩, fun hp _ => by simp [otherFlag, hp],
      fun _ => .inr rfl⟩
  · intro _ _ _ _ hmode; rw [hmode]; exact .of_eq rfl rfl
  · intro _ _ _ hinitialized; rw [hinitialized]; exact .of_eq rfl rfl

/-- Settles O19: the flag policy is fixed, and every atomic step follows it. -/
theorem flagPairs : Obligations.FlagPairs := by
  unfold Obligations.FlagPairs
  intro s t h
  have hfollow : t.settings.cfg = s.cfg ∧ FlagsFollow s.cfg.flagPolicy s.session t.settings.session := by
    refine step_keeps_settings (Q := fun x => x.cfg = s.cfg ∧ FlagsFollow s.cfg.flagPolicy s.session x.session)
      (fun a b ⟨hcfg, ha⟩ hab => ?_) ⟨rfl, .of_eq rfl rfl⟩ h
    have hstep : FlagsFollow a.cfg.flagPolicy a.session b.session := .tick hab
    rw [show a.cfg = s.cfg from hcfg] at hstep
    exact ⟨(State.tick_facts hab).cfg.trans hcfg, ha.trans hstep⟩
  obtain ⟨-, hsetOnly, hexclusive, honce⟩ := hfollow
  exact ⟨hsetOnly, hexclusive, honce⟩

/-! ### The session fields and the requests that write them -/

/-- R17 to R19: how the request `i` may take the session fields from those of `p` to those of `q`. -/
structure SessionWrites (i : Instr) (p q : SessionState) : Prop where
  mode : q.mode ≠ p.mode → (i = .setPolledMode ∧ q.mode = .polled) ∨ (i = .setContinuousMode ∧ q.mode = .continuous)
  initialized : q.initialized ≠ p.initialized → i = .initializeDevice ∧ q.initialized = true
  flags : q.enabled ≠ p.enabled ∨ q.disabled ≠ p.disabled → i.writesFlags = true

theorem SessionWrites.refl (i : Instr) (p : SessionState) : SessionWrites i p p :=
  ⟨fun h => absurd rfl h, fun h => absurd rfl h, fun h => h.elim (absurd rfl) (absurd rfl)⟩

/-- The last write that changes a field is of the later part or, where that leaves the field alone, of the earlier part. -/
theorem SessionWrites.trans {i : Instr} {p q r : SessionState} (h : SessionWrites i p q) (g : SessionWrites i q r) :
    SessionWrites i p r where
  mode hne := by
    by_cases hsame : r.mode = q.mode
    · rw [hsame] at hne ⊢; exact h.mode hne
    · exact g.mode hsame
  initialized hne := by
    by_cases hsame : r.initialized = q.initialized
    · rw [hsame] at hne ⊢; exact h.initialized hne
    · exact g.initialized hsame
  flags hne := by
    by_cases hsame : r.enabled = q.enabled ∧ r.disabled = q.disabled
    · rw [hsame.1, hsame.2] at hne; exact h.flags hne
    · exact g.flags (not_and_or.mp hsame)

/-- R90, R92, R93: where the step that records the mode `m` fits a request, it is one of the two mode requests with its own mode, or
it records the mode that INITIALIZE found (D40). -/
theorem fits_recordMode {c : Config} {mode m : Mode} {i : Instr} (h : (Micro.recordMode m).fits c mode i = true) :
    m = mode ∨ (i = .setPolledMode ∧ m = .polled) ∨ (i = .setContinuousMode ∧ m = .continuous) := by
  simp only [Micro.fits, Bool.or_eq_true, Bool.and_eq_true, decide_eq_true_eq] at h
  rcases h with (⟨⟨-, hm⟩, hmode⟩ | hpolled) | hcontinuous
  · exact .inl (hm.trans hmode.symm)
  · exact .inr (.inl hpolled)
  · exact .inr (.inr hcontinuous)

/-- R17 to R19: each of the four steps that write a session field fits only the requests that may write it. -/
theorem SessionWrites.tick {i : Instr} (hs : s.Inv) (hi : Working i s) (h : s.tick = .moved t) :
    SessionWrites i s.session t.session := by
  have hfits : ∀ {req m todo}, s.pos = .busy req (m :: todo) → m.fits s.cfg s.mode i = true := by
    intro req m todo hpos
    have hreq : req = i := by
      rcases hi with hidle | ⟨_, hbusy⟩
      · rw [hidle] at hpos; cases hpos
      · rw [hbusy] at hpos; cases hpos; rfl
    exact hreq ▸ hs.fits req _ hpos m List.mem_cons_self
  refine session_tick h (fun t => SessionWrites i s.session t.session) ?_ ?_ ?_ ?_ ?_
  · intro hsame; rw [hsame]; exact .refl _ _
  · intro _ _ hpos henabled; rw [henabled]
    exact ⟨fun hne => absurd rfl hne, fun hne => absurd rfl hne, fun _ => hfits hpos⟩
  · intro _ _ hpos hdisabled; rw [hdisabled]
    exact ⟨fun hne => absurd rfl hne, fun hne => absurd rfl hne, fun _ => hfits hpos⟩
  · intro _ _ m hpos hmode; rw [hmode]
    exact ⟨fun hne => (fits_recordMode (hfits hpos)).resolve_left hne, fun hne => absurd rfl hne,
      fun hne => hne.elim (absurd rfl) (absurd rfl)⟩
  · intro _ _ hpos hinitialized; rw [hinitialized]
    exact ⟨fun hne => absurd rfl hne, fun _ => ⟨of_decide_eq_true (hfits hpos), rfl⟩,
      fun hne => hne.elim (absurd rfl) (absurd rfl)⟩

/-- R17 to R19: a run writes the session fields as its request may. -/
theorem State.Reaches.sessionWrites {i : Instr} {todo : List Micro} (h : s.Reaches t) (hs : s.Inv) (hpos : s.pos = .busy i todo) :
    SessionWrites i s.session t.session := by
  refine (h.keeps (P := fun u => u.Inv ∧ Working i u ∧ SessionWrites i s.session u.session) (fun a b ha hab => ?_)
    ⟨hs, .inr ⟨todo, hpos⟩, .refl _ _⟩).2.2
  obtain ⟨hinv, hworking, hwrites⟩ := ha
  exact ⟨State.tick_inv hinv hab, working_tick hab hworking, hwrites.trans (.tick hinv hworking hab)⟩

/-- A step leaves the session fields, or takes them where its current request may. -/
theorem step_sessionWrites (hs : s.Inv) (h : step s = .next t) :
    t.session = s.session ∨ ∃ i, s.current = some i ∧ SessionWrites i s.session t.session := by
  refine step_run hs h (fun t => t.session = s.session ∨ ∃ i, s.current = some i ∧ SessionWrites i s.session t.session)
    (.inl rfl) ?_ ?_
  · rintro _ _ _ - - - rfl
    exact .inl rfl
  · intro a i todo hcurrent ha hpos hsession _ _ _ hreach
    exact .inr ⟨i, hcurrent, hsession ▸ hreach.sessionWrites ha hpos⟩

/-- Settles O17. -/
theorem sessionWrittenOnlyByItsRequests : Obligations.SessionWrittenOnlyByItsRequests := by
  unfold Obligations.SessionWrittenOnlyByItsRequests
  intro s t hs h
  rcases step_sessionWrites hs h with hsame | ⟨i, hcurrent, hwrites⟩
  · obtain ⟨hmode, hinitialized, henabled, hdisabled⟩ := SessionState.mk.inj hsame
    exact ⟨fun hne => absurd hmode hne, fun hne => absurd hinitialized hne,
      fun hne => hne.elim (absurd henabled) (absurd hdisabled)⟩
  · rw [hcurrent]
    simp only [Option.some.injEq]
    exact ⟨hwrites.mode, hwrites.initialized, fun hne => ⟨i, rfl, hwrites.flags hne⟩⟩

/-! ### The drives and the line-control events -/

/-- R21, R62: from `s` to `t` the trace only grows, and the drives of `t` are those its new line-control events gave the lines. -/
def DrivesFollow (s t : State) : Prop :=
  ∃ es, t.trace = s.trace ++ es ∧ ∀ l, t.drive l = (lastDrive l es).getD (s.drive l)

/-- The trace and the drives are as they were. -/
theorem DrivesFollow.of_eq (htrace : t.trace = s.trace) (hdrive : ∀ l, t.drive l = s.drive l) : DrivesFollow s t :=
  ⟨[], by rw [htrace, List.append_nil], hdrive⟩

theorem DrivesFollow.trans (h : DrivesFollow s t) (g : DrivesFollow t u) : DrivesFollow s u := by
  obtain ⟨es, htrace, hdrive⟩ := h
  obtain ⟨fs, gtrace, gdrive⟩ := g
  refine ⟨es ++ fs, by rw [gtrace, htrace, List.append_assoc], fun l => ?_⟩
  rw [gdrive, hdrive, lastDrive_append, Option.getD_or]

theorem DrivesFollow.tick (h : s.tick = .moved t) : DrivesFollow s t := by
  obtain ⟨es, htrace, hdrive, -⟩ := (State.tick_facts h).trace
  exact ⟨es, htrace, hdrive⟩

theorem DrivesFollow.supplyMove (s : State) : DrivesFollow s s.supplyMove := by
  unfold State.supplyMove
  split <;> exact .of_eq rfl fun _ => rfl

/-- Settles O20: each atomic step adds at most its own event, and nothing else a step does touches the trace or a drive. -/
theorem drivesFollowLineEvents : Obligations.DrivesFollowLineEvents := by
  unfold Obligations.DrivesFollowLineEvents
  intro s t h
  exact step_keeps (P := DrivesFollow s) (fun _ _ ha hab => ha.trans (.tick hab))
    (fun _ _ _ _ ha _ _ _ => ha.trans (.of_eq rfl fun _ => rfl)) (fun _ _ _ ha _ _ => ha.trans (.of_eq rfl fun _ => rfl))
    (fun a ha => ha.trans (.supplyMove a)) (.of_eq rfl fun _ => rfl) h

/-! ### ENABLE_REPORTING and DISABLE_REPORTING -/

/-- At `Idle` with no frame and no report, ending the request only adds its response. -/
theorem finish_of_idle {req : Instr} (hidle : s.pos = .idle) (hframe : s.frame = none) (hreport : s.report = none)
    (code : ResponseCode) (p : Payload) :
    (s.stepped req []).finish code p = { s with responses := s.responses ++ [⟨code, p⟩] } := by
  cases s
  cases hidle; cases hframe; cases hreport
  rfl

/-- R57, R95, R96: a request whose one step does nothing answers OK, with no event and no other change. -/
theorem exec_of_noop {i : Instr} {m : Micro} (hs : s.Inv) (hidle : s.pos = .idle) (hbody : requestBody i s = [m])
    (hm : m.tick (s.stepped i []) = .moved (s.stepped i [])) :
    exec i s = .next { s with responses := s.responses ++ [⟨.ok, .none⟩] } := by
  obtain ⟨hframe, hreport⟩ := hs.idle hidle
  have hstep : State.tick { s with pos := .busy i (requestBody i s) } = .moved (s.stepped i []) := by rw [hbody]; exact hm
  have hend : (s.stepped i []).tick = .moved ((s.stepped i []).finish .ok .none) := State.tick_done rfl
  rw [exec_of_reaches hidle ((State.Moves.reaches hstep).trans (State.Moves.reaches hend)) rfl,
    finish_of_idle hidle hframe hreport]

/-- R89, R95, R96: a request whose pseudocode is one command exchange with an accepted reply. -/
theorem exec_of_one_command {i : Instr} {w rest : List EnvMove} {b : Byte} {reply : RxFrame} {σ : SessionState}
    (h : s.Ready w rest)
    (hplan : At s.cfg i { s with pos := .busy i (requestBody i s) }
        ⟨requestBody i s, w ++ rest, s.driveClk, s.driveDat, none, none, s.session⟩ →
      LeadsPlan s.cfg i { s with pos := .busy i (requestBody i s) } ([b], σ) [reply] [] rest s.driveClk s.driveDat none) :
    ∃ t, exec i s = .next t ∧ Ended s t rest ⟨.ok, .none⟩ (writeEvents s.cfg b ++ readEvents s.cfg reply) ∧
      t.driveClk = .drivenLow ∧ t.driveDat = .released ∧ t.session = σ := by
  have hbus : exchangeEvents s.cfg ([b].zip [reply]) = writeEvents s.cfg b ++ readEvents s.cfg reply := by
    simp [exchangeEvents]
  rw [← hbus]
  exact exec_leads h hplan fun _ ht => end_ok ht rfl

/-- R95: ENABLE_REPORTING where the flag is not set. -/
theorem exec_enableReporting {w rest : List EnvMove} {reply : RxFrame} (h : s.Ready w rest)
    (hw : answers (exchangeNeeds s.cfg [reply]) w = true) (hreply : replyAccepted s.cfg reply = true)
    (hflag : s.reportingEnabled = false) :
    ∃ t, exec .enableReporting s = .next t ∧
      Ended s t rest ⟨.ok, .none⟩ (writeEvents s.cfg s.cfg.cmdEnable ++ readEvents s.cfg reply) ∧
      t.driveClk = .drivenLow ∧ t.driveDat = .released ∧ t.session = (enablePlan s.cfg s.session).2 := by
  have hbytes : enablePlan s.cfg s.session = ([s.cfg.cmdEnable], (enablePlan s.cfg s.session).2) := by
    simp [enablePlan, State.session, hflag]
  refine exec_of_one_command h fun hat => ?_
  rw [← hbytes]
  exact leads_enable (by rw [hbytes]; rfl) hw (by simpa using hreply) hat

/-- R96: DISABLE_REPORTING where the flag is not set. -/
theorem exec_disableReporting {w rest : List EnvMove} {reply : RxFrame} (h : s.Ready w rest)
    (hw : answers (exchangeNeeds s.cfg [reply]) w = true) (hreply : replyAccepted s.cfg reply = true)
    (hflag : s.reportingDisabled = false) :
    ∃ t, exec .disableReporting s = .next t ∧
      Ended s t rest ⟨.ok, .none⟩ (writeEvents s.cfg s.cfg.cmdDisable ++ readEvents s.cfg reply) ∧
      t.driveClk = .drivenLow ∧ t.driveDat = .released ∧ t.session = (disablePlan s.cfg s.session).2 := by
  have hbytes : disablePlan s.cfg s.session = ([s.cfg.cmdDisable], (disablePlan s.cfg s.session).2) := by
    simp [disablePlan, State.session, hflag]
  refine exec_of_one_command h fun hat => ?_
  rw [← hbytes]
  exact leads_disable (by rw [hbytes]; rfl) hw (by simpa using hreply) hat

/-- Settles O47: the no-op of each request, then its one exchange and the session its plan leaves. -/
theorem enableAndDisable : Obligations.EnableAndDisable := by
  unfold Obligations.EnableAndDisable
  intro s reply w rest hs hidle
  refine ⟨fun hflag => ?_, fun hflag => ?_, fun henv hw hreply => ⟨fun hflag => ?_, fun hflag => ?_⟩⟩
  · exact exec_of_noop hs hidle rfl (if_pos hflag)
  · exact exec_of_noop hs hidle rfl (if_pos hflag)
  · obtain ⟨t, hexec, hended, hclk, hdat, hsession⟩ := exec_enableReporting ⟨hs, hidle, henv⟩ hw hreply hflag
    simp only [enablePlan, State.session, hflag, Bool.false_eq_true, if_false, SessionState.mk.injEq] at hsession
    obtain ⟨hmode, hinitialized, henabled, hdisabled⟩ := hsession
    exact ⟨t, hexec, hended, hclk, hdat, hmode, hinitialized, henabled, hdisabled⟩
  · obtain ⟨t, hexec, hended, hclk, hdat, hsession⟩ := exec_disableReporting ⟨hs, hidle, henv⟩ hw hreply hflag
    simp only [disablePlan, State.session, hflag, Bool.false_eq_true, if_false, SessionState.mk.injEq] at hsession
    obtain ⟨hmode, hinitialized, henabled, hdisabled⟩ := hsession
    exact ⟨t, hexec, hended, hclk, hdat, hmode, hinitialized, hdisabled, henabled⟩

end Sys2Proof.Machine
end

section
/-! PROOFS of the statements of spec/20_memory.md: every wait of a byte may hang (R73, R81, R83, R128), and what a byte that is read
was received as, in every environment (R79, R83, R84). -/

namespace Sys2Proof.Machine

variable {c : Config} {req : Instr} {s t : State} {todo : List Micro} {env w never : List EnvMove} {dc dd : Drive}
  {f : Option Frame} {rep : Option Report} {σ : SessionState} {bus es : List Event} {l : Line} {v : Level}

/-! ### The waits a byte stands at -/

/-- The peripheral's drive of a released line that keeps it from reading `v` (R63). -/
def silentDrive : Level → DevDrive
  | .low => .released
  | .high => .low

theorem resolveLevel_silentDrive (v draw : Level) : resolveLevel .released (silentDrive v) draw = otherLevel v := by
  cases v <;> rfl

/-- From `s` the engine leads to a wait for the level `v` of the line `l`, both the clock and that line released. -/
def LeadsToWait (c : Config) (req : Instr) (s : State) (bus : List Event) (l : Line) (v : Level) (env : List EnvMove)
    (σ : SessionState) : Prop :=
  ∃ todo dd f rep, lineDrive .released dd l = .released ∧
    Leads c req s bus ⟨.wait l v :: todo, env, .released, dd, f, rep, σ⟩

/-- R73, R128: a request that leads to a wait whose level no placed move brings hangs there. -/
theorem exec_hangs_of_leadsToWait {i : Instr} (h : s.Ready w never) (hu : s.cfg.waitPolicy = .unbounded)
    (hnever : ∀ m ∈ never, devDrive m l = silentDrive v)
    (hl : At s.cfg i { s with pos := .busy i (requestBody i s) }
        ⟨requestBody i s, w ++ never, s.driveClk, s.driveDat, none, none, s.session⟩ →
      LeadsToWait s.cfg i { s with pos := .busy i (requestBody i s) } bus l v never s.session) :
    ∃ t, exec i s = .next t ∧ Hung i s t (bus ++ never.map fun _ => .smp l (otherLevel v)) ∧ t.driveClk = .released := by
  obtain ⟨hframe, hreport⟩ := h.inv.idle h.idle
  obtain ⟨todo, dd, f, rep, hdrive, hleads⟩ := hl (at_start hframe hreport h.env)
  have hlevel : ∀ m ∈ never, resolveLevel (lineDrive .released dd l) (devDrive m l) m.draw = otherLevel v := fun m hm => by
    rw [hdrive, hnever m hm, resolveLevel_silentDrive]
  obtain ⟨t, hexec, hhung, hclk, -⟩ := exec_hangs h fun _ => hleads.hangs fun _ ht => wait_hangs hu hlevel ht
  exact ⟨t, hexec, hhung, hclk⟩

/-- What a write awaits before slot `k` (R81). -/
def writeNeedsBefore (c : Config) (k : Nat) : List Need :=
  startNeeds ++ waitNeeds c .clk .low ++ (List.replicate k (pulseNeeds c)).flatten

/-- The events of a write before slot `k` (R81). -/
def writeEventsBefore (c : Config) (b : Byte) (k : Nat) : List Event :=
  writeStartEvents c ++ [.smp .clk .low] ++ slotsBefore c b k

/-- The events of a read before its start bit (R83 step 1). -/
def readReleaseEvents (c : Config) : List Event := [.rel .dat, .rel .clk, .dly c.tRdRelease]

/-- What a read awaits before the bit after the bits `bits` (R83). -/
def readNeedsBefore (c : Config) (bits : List Bool) : List Need :=
  [.any] ++ pulseNeeds c ++ [.any] ++ (bits.map (bitNeeds c)).flatten

/-- The events of a read before the bit after the bits `bits` (R83). -/
def readEventsBefore (c : Config) (bits : List Bool) : List Event :=
  readReleaseEvents c ++ [.smp .clk .low, .smp .clk .high, .dly c.tRdStart] ++ (bits.map recvBitEvents).flatten

/-- R81 step 5: the wait for the peripheral's first clock low. -/
theorem writeByte_leadsToWait_start {b : Byte} (hw : answers startNeeds w = true)
    (h : At c req s ⟨.writeByte b :: todo, w ++ env, dc, dd, f, rep, σ⟩) :
    LeadsToWait c req s (writeStartEvents c) .clk .low env σ :=
  ⟨_, _, _, _, rfl, leads_writeStart hw h⟩

/-- R81 steps 6 to 8: a write up to the clock pulse of slot `k`. -/
theorem leads_writeSlotPulse {b : Byte} {k : Nat} (hk : k < 10) (hw : answers (writeNeedsBefore c k) w = true)
    (h : At c req s ⟨.writeByte b :: todo, w ++ env, dc, dd, f, rep, σ⟩) :
    ∃ last dd' f', Leads c req s (writeEventsBefore c b k ++ [slotEvent c b k])
      ⟨.wait .clk .low :: .wait .clk .high :: last, env, .released, dd', f', rep, σ⟩ := by
  obtain ⟨_, _, hframe, -, t, hreach, hcarried, ht⟩ := leads_writeSlots hk.le hw h
  obtain ⟨dd', f', last, -, ⟨u, hreach', hcarried', hu⟩, -⟩ := leads_slotOpen hk hframe ht
  exact ⟨last, dd', f', u, hreach.trans hreach', hcarried.trans hcarried', hu⟩

/-- R81 steps 6 to 8: the first wait of slot `k` of a write. -/
theorem writeByte_leadsToWait_slotLow {b : Byte} {k : Nat} (hk : k < 10) (hw : answers (writeNeedsBefore c k) w = true)
    (h : At c req s ⟨.writeByte b :: todo, w ++ env, dc, dd, f, rep, σ⟩) :
    LeadsToWait c req s (writeEventsBefore c b k ++ [slotEvent c b k]) .clk .low env σ := by
  obtain ⟨last, dd', f', hpulse⟩ := leads_writeSlotPulse hk hw h
  exact ⟨_, dd', f', rep, rfl, hpulse⟩

/-- R81 steps 6 to 8: the second wait of slot `k` of a write. -/
theorem writeByte_leadsToWait_slotHigh {b : Byte} {k : Nat} (hk : k < 10)
    (hw : answers (writeNeedsBefore c k ++ waitNeeds c .clk .low) w = true)
    (h : At c req s ⟨.writeByte b :: todo, w ++ env, dc, dd, f, rep, σ⟩) :
    LeadsToWait c req s (writeEventsBefore c b k ++ [slotEvent c b k, .smp .clk .low]) .clk .high env σ := by
  obtain ⟨w₁, w₂, rfl, hslots, hlow⟩ := answers_append hw
  rw [List.append_assoc] at h
  obtain ⟨last, dd', f', hpulse⟩ := leads_writeSlotPulse hk hslots h
  have hhigh := hpulse.bind fun u hu => leads_wait hlow hu rfl
  rw [List.append_assoc] at hhigh
  exact ⟨_, dd', f', rep, rfl, hhigh⟩

/-- R81 step 9: the wait for the acknowledgment of a write, with the data line released since the stop slot. -/
theorem writeByte_leadsToWait_ack {b : Byte} (hw : answers (writeNeedsBefore c 10) w = true)
    (h : At c req s ⟨.writeByte b :: todo, w ++ env, dc, dd, f, rep, σ⟩) :
    LeadsToWait c req s (writeEventsBefore c b 10) .dat .low env σ := by
  obtain ⟨dd', f', -, hdrive, hslots⟩ := leads_writeSlots le_rfl hw h
  have hreleased : dd' = .released := Option.some.inj (hdrive 9 rfl)
  exact ⟨_, dd', f', rep, hreleased, hslots⟩

/-- R83 step 1: a read up to the first wait of its start bit. -/
theorem leads_readRelease {dst : ByteDst} (hw : answers [.any] w = true)
    (h : At c req s ⟨.readByte dst :: todo, w ++ env, dc, dd, f, rep, σ⟩) :
    ∃ last, Leads c req s (readReleaseEvents c)
      ⟨.wait .clk .low :: .wait .clk .high :: last, env, .released, .released, f, rep, σ⟩ := by
  obtain ⟨m, rfl⟩ := answers_any hw
  obtain ⟨last, hbody⟩ : ∃ last, readByteBody dst =
    .rel .dat :: .rel .clk :: .delay .rdRelease :: .wait .clk .low :: .wait .clk .high :: last := ⟨_, rfl⟩
  refine ⟨last ++ todo, (leads_push h (Micro.tick_readByte _ dst)).silentBind fun t ht => ?_⟩
  rw [hbody] at ht
  exact (leads_rel_dat ht).bind (a := [_]) fun _ h₁ => (leads_rel_clk h₁).bind (a := [_]) fun _ h₂ => leads_delay h₂

/-- R83 step 2: the first wait of a read's start bit. -/
theorem readByte_leadsToWait_startLow {dst : ByteDst} (hw : answers [.any] w = true)
    (h : At c req s ⟨.readByte dst :: todo, w ++ env, dc, dd, f, rep, σ⟩) :
    LeadsToWait c req s (readReleaseEvents c) .clk .low env σ := by
  obtain ⟨last, hrelease⟩ := leads_readRelease hw h
  exact ⟨_, _, _, _, rfl, hrelease⟩

/-- R83 step 2: the second wait of a read's start bit. -/
theorem readByte_leadsToWait_startHigh {dst : ByteDst} (hw : answers ([.any] ++ waitNeeds c .clk .low) w = true)
    (h : At c req s ⟨.readByte dst :: todo, w ++ env, dc, dd, f, rep, σ⟩) :
    LeadsToWait c req s (readReleaseEvents c ++ [.smp .clk .low]) .clk .high env σ := by
  obtain ⟨w₁, w₂, rfl, hany, hlow⟩ := answers_append hw
  rw [List.append_assoc] at h
  obtain ⟨last, hrelease⟩ := leads_readRelease hany h
  exact ⟨_, _, _, _, rfl, hrelease.bind fun u hu => leads_wait hlow hu rfl⟩

/-- R83 steps 3 and 4: a read up to the bit after the bits `bits`. -/
theorem leads_readNextBit {dst : ByteDst} {bits : List Bool} (hn : bits.length < 10)
    (hw : answers (readNeedsBefore c bits) w = true)
    (h : At c req s ⟨.readByte dst :: todo, w ++ env, dc, dd, f, rep, σ⟩) :
    ∃ d last g, Leads c req s (readEventsBefore c bits)
      ⟨.recvBit d :: last, env, .released, .released, g, rep, σ⟩ := by
  obtain ⟨g, hbits⟩ := leads_readBits hn.le hw h
  have hlt : bits.length < readDsts.length := hn
  rw [List.drop_eq_getElem_cons hlt, ← List.append_assoc] at hbits
  exact ⟨_, _, _, hbits⟩

/-- R79, R83: the first wait of any bit of a read. -/
theorem readByte_leadsToWait_bitLow {dst : ByteDst} {bits : List Bool} (hn : bits.length < 10)
    (hw : answers (readNeedsBefore c bits) w = true)
    (h : At c req s ⟨.readByte dst :: todo, w ++ env, dc, dd, f, rep, σ⟩) :
    LeadsToWait c req s (readEventsBefore c bits) .clk .low env σ := by
  obtain ⟨d, last, g, hbits⟩ := leads_readNextBit hn hw h
  exact ⟨_, _, _, _, rfl, hbits.bindSilent fun u hu => leads_push hu (Micro.tick_recvBit _ d)⟩

/-- R79, R83: the second wait of any bit of a read. -/
theorem readByte_leadsToWait_bitHigh {dst : ByteDst} {bits : List Bool} {b : Bool} (hn : bits.length < 10)
    (hw : answers (readNeedsBefore c bits ++ waitNeeds c .clk .low ++ [.reads .dat (Level.ofBit b)]) w = true)
    (h : At c req s ⟨.readByte dst :: todo, w ++ env, dc, dd, f, rep, σ⟩) :
    LeadsToWait c req s (readEventsBefore c bits ++ [.smp .clk .low, .smp .dat (Level.ofBit b)]) .clk .high env σ := by
  rw [List.append_assoc _ (waitNeeds c .clk .low)] at hw
  obtain ⟨w₁, w₂, rfl, hbefore, hsampled⟩ := answers_append hw
  rw [List.append_assoc] at h
  obtain ⟨d, last, g, hbits⟩ := leads_readNextBit hn hbefore h
  exact ⟨_, _, _, _, rfl, hbits.bind fun u hu => leads_sampledBit hsampled hu fun l => by cases l <;> rfl⟩

/-- Settles O59: the run leads to each of the waits, whose line is released there, and the wait uses up the placed moves. -/
theorem framingWaitsHang : Obligations.FramingWaitsHang := by
  unfold Obligations.FramingWaitsHang
  intro s w never hs hu
  refine ⟨fun v => ⟨fun hw hn => ?_, fun k hk => ⟨fun hw hn => ?_, fun hw hn => ?_⟩, fun hw hn => ?_⟩, fun hw hn => ?_,
    fun hw hn => ?_, fun bits hbits => ⟨fun hw hn => ?_, fun b hw hn => ?_⟩⟩
  · exact exec_hangs_of_leadsToWait hs hu hn (writeByte_leadsToWait_start hw)
  · exact exec_hangs_of_leadsToWait hs hu hn (writeByte_leadsToWait_slotLow hk hw)
  · exact exec_hangs_of_leadsToWait hs hu hn (writeByte_leadsToWait_slotHigh hk hw)
  · exact exec_hangs_of_leadsToWait hs hu hn (writeByte_leadsToWait_ack hw)
  · exact exec_hangs_of_leadsToWait hs hu hn (readByte_leadsToWait_startLow hw)
  · exact exec_hangs_of_leadsToWait hs hu hn (readByte_leadsToWait_startHigh hw)
  · exact exec_hangs_of_leadsToWait hs hu hn (readByte_leadsToWait_bitLow hbits hw)
  · exact exec_hangs_of_leadsToWait hs hu hn (readByte_leadsToWait_bitHigh hbits hw)

/-! ### Runs that answer OK, whatever the environment -/

theorem State.push_nil (s : State) : s.push [] = s := by
  cases hpos : s.pos <;> simp only [State.push, Pos.push, hpos, List.nil_append] <;> rw [← hpos]

/-- R26: an idle engine goes nowhere. -/
theorem State.Reaches.eq_of_idle (h : s.Reaches t) (hidle : s.pos = .idle) : t = s := by
  rcases Relation.ReflTransGen.cases_head h with heq | ⟨u, hmove, -⟩
  · exact heq.symm
  · rw [State.Moves, State.tick_idle hidle] at hmove; cases hmove

/-- R62: a run only adds events. -/
theorem State.Reaches.trace_append (h : s.Reaches t) : ∃ es, t.trace = s.trace ++ es := by
  obtain ⟨es, htrace, -⟩ := h.keeps (P := DrivesFollow s) (fun _ _ ha hab => ha.trans (.tick hab)) (.of_eq rfl fun _ => rfl)
  exact ⟨es, htrace⟩

/-- From `s`, with the steps `todo` still to do and the frame `f`, the run of the request ends in `t` with OK and the payload `p`,
adding the events `es`. -/
structure Answering (c : Config) (req : Instr) (todo : List Micro) (f : Option Frame) (p : Payload) (es : List Event)
    (s t : State) : Prop where
  cfg : s.cfg = c
  pos : s.pos = .busy req todo
  frame : s.frame = f
  reaches : s.Reaches t
  idle : t.pos = .idle
  responses : t.responses = s.responses ++ [⟨.ok, p⟩]
  trace : t.trace = s.trace ++ es

/-- The steps `todo`, from the frame `f`, can end their request with OK and the payload `p`, adding the events `es`. -/
def CanAnswer (c : Config) (req : Instr) (todo : List Micro) (f : Option Frame) (p : Payload) (es : List Event) : Prop :=
  ∃ s t, Answering c req todo f p es s t

variable {m : Micro} {body : List Micro} {p q : Payload} {code : ResponseCode} {u : State} {e : Event} {d : List Event}

/-- The first step of a run that answers. -/
theorem CanAnswer.tick (h : CanAnswer c req (m :: todo) f p es) :
    ∃ s t u, Answering c req (m :: todo) f p es s t ∧ m.tick (s.stepped req todo) = .moved u ∧ u.Reaches t := by
  obtain ⟨s, t, h⟩ := h
  rcases Relation.ReflTransGen.cases_head h.reaches with rfl | ⟨u, hmove, hreach⟩
  · have hidle := h.idle
    rw [h.pos] at hidle; cases hidle
  · exact ⟨s, t, u, h, (State.tick_busy h.pos).symm.trans hmove, hreach⟩

/-- What is left of a run after a first step that adds the events `d` and does not end the request. -/
theorem Answering.next {todo' : List Micro} {f' : Option Frame} (h : Answering c req todo f p es s t) (hreach : u.Reaches t)
    (hcfg : u.cfg = s.cfg) (hpos : u.pos = .busy req todo') (hframe : u.frame = f') (hresponses : u.responses = s.responses)
    (htrace : u.trace = s.trace ++ d) : ∃ es', es = d ++ es' ∧ CanAnswer c req todo' f' p es' := by
  obtain ⟨es', hes⟩ := hreach.trace_append
  refine ⟨es', ?_, u, t, hcfg.trans h.cfg, hpos, hframe, hreach, h.idle, hresponses ▸ h.responses, hes⟩
  rw [htrace, h.trace, List.append_assoc] at hes
  exact List.append_cancel_left hes

/-- A first step that ends the request gives its response. -/
theorem Answering.finished (h : Answering c req todo f p es s t) (hreach : (u.finish code q).Reaches t)
    (hresponses : u.responses = s.responses) (htrace : u.trace = s.trace ++ d) : code = .ok ∧ q = p ∧ es = d := by
  obtain rfl := hreach.eq_of_idle rfl
  have hr := h.responses
  have ht := h.trace
  rw [State.finish_responses, hresponses] at hr
  rw [State.finish_trace, htrace] at ht
  obtain ⟨hcode, hq⟩ := Response.mk.inj (List.singleton_inj.mp (List.append_cancel_left hr))
  exact ⟨hcode, hq, (List.append_cancel_left ht).symm⟩

/-- A step that only puts steps in front. -/
theorem CanAnswer.push (h : CanAnswer c req (m :: todo) f p es) (hm : ∀ s : State, s.cfg = c → m.tick s = .moved (s.push body)) :
    CanAnswer c req (body ++ todo) f p es := by
  obtain ⟨s, t, u, h, hu, hreach⟩ := h.tick
  rw [hm (s.stepped req todo) h.cfg] at hu; cases hu
  obtain ⟨es', rfl, h'⟩ := h.next (d := []) hreach rfl rfl h.frame rfl (List.append_nil _).symm
  exact h'

/-- A step that only writes the frame. -/
theorem CanAnswer.setFrame {f' : Option Frame} (h : CanAnswer c req (m :: todo) f p es)
    (hm : ∀ s : State, s.frame = f → m.tick s = .moved { s with frame := f' }) : CanAnswer c req todo f' p es := by
  obtain ⟨s, t, u, h, hu, hreach⟩ := h.tick
  rw [hm (s.stepped req todo) h.frame] at hu; cases hu
  obtain ⟨es', rfl, h'⟩ := h.next (d := []) hreach rfl rfl rfl rfl (List.append_nil _).symm
  exact h'

/-- R64, R65, R66: a line-control step. -/
theorem CanAnswer.onLine {x : Drive} (h : CanAnswer c req (m :: todo) f p es)
    (hm : ∀ s : State, m.tick s = .moved (s.onLine l x e)) : ∃ es', es = e :: es' ∧ CanAnswer c req todo f p es' := by
  obtain ⟨s, t, u, h, hu, hreach⟩ := h.tick
  rw [hm] at hu; cases hu
  exact h.next (d := [e]) hreach rfl rfl h.frame rfl rfl

/-- R71: a delay. -/
theorem CanAnswer.delay {x : Delay} (h : CanAnswer c req (.delay x :: todo) f p es) :
    ∃ es', es = .dly (c.delayOf x) :: es' ∧ CanAnswer c req todo f p es' := by
  obtain ⟨s, t, u, h, hu, hreach⟩ := h.tick
  obtain ⟨_, _, -, rfl⟩ := State.onDelay_cases hu
  obtain rfl := h.cfg
  exact h.next (d := [_]) hreach rfl rfl h.frame rfl rfl

/-- R67: a step that samples a line and goes on by the level sampled. -/
theorem CanAnswer.sampled {k : Level → State → State} {body : Level → List Micro} (h : CanAnswer c req (m :: todo) f p es)
    (hm : ∀ s : State, m.tick s = s.onSample l k) (hk : ∀ x (s : State), k x s = s.push (body x)) :
    ∃ x es', es = .smp l x :: es' ∧ CanAnswer c req (body x ++ todo) f p es' := by
  obtain ⟨s, t, u, h, hu, hreach⟩ := h.tick
  rw [hm] at hu
  obtain ⟨_, _, -, rfl⟩ := State.onSample_cases hu
  rw [hk] at hreach
  exact ⟨_, h.next (d := [_]) hreach rfl rfl h.frame rfl rfl⟩

/-- R57: the response. -/
theorem CanAnswer.respond (h : CanAnswer c req (.respond q :: todo) f p es) : q = p ∧ es = [] := by
  obtain ⟨s, t, u, h, hu, hreach⟩ := h.tick
  cases hu
  exact (h.finished hreach rfl (List.append_nil _).symm).2

/-! ### Waits that are met -/

/-- R73: the unbounded wait. -/
theorem CanAnswer.poll {es : List Event} (h : CanAnswer c req (.poll l v :: todo) f p es) :
    ∃ ws es', es = ws ++ es' ∧ PollLoop l v ws ∧ CanAnswer c req todo f p es' := by
  obtain ⟨x, es', rfl, hnext⟩ := h.sampled (body := fun x => if x = v then [] else [.poll l v]) (fun s => Micro.tick_poll s l v)
    fun x s => by split <;> simp only [State.push_nil]
  by_cases hx : x = v
  · subst hx
    exact ⟨[.smp l x], es', rfl, .met, by simpa using hnext⟩
  · rw [if_neg hx] at hnext
    obtain ⟨ws, es'', rfl, hloop, hrest⟩ := hnext.poll
    exact ⟨.smp l x :: ws, es'', rfl, .again hx hloop, hrest⟩
termination_by es.length

/-- R72: the deadline check of a transfer wait that is met later. -/
theorem CanAnswer.bwaitCheck {n start : Time} (h : CanAnswer c req (.bwaitCheck l v n start .transfer :: todo) f p es) :
    ∃ x es', es = .now x :: es' ∧ elapsed c start x < n ∧
      CanAnswer c req (.bwaitSample l v n start .transfer :: todo) f p es' := by
  obtain ⟨s, t, u, h, hu, hreach⟩ := h.tick
  rw [Micro.tick_bwaitCheck] at hu
  obtain ⟨_, _, -, rfl⟩ := State.onNow_cases hu
  split at hreach
  · cases (h.finished (d := [_]) hreach rfl rfl).1
  · next hearly =>
    obtain ⟨es', hes, hnext⟩ := h.next (d := [_]) hreach rfl rfl h.frame rfl rfl
    exact ⟨_, es', hes, h.cfg ▸ not_le.mp hearly, hnext⟩

/-- R72: the loop of a transfer wait that is met. -/
theorem CanAnswer.bwaitSample {n start : Time} {es : List Event}
    (h : CanAnswer c req (.bwaitSample l v n start .transfer :: todo) f p es) :
    ∃ ws es', es = ws ++ es' ∧ BwaitLoop c l v n start true ws ∧ CanAnswer c req todo f p es' := by
  obtain ⟨x, es', rfl, hnext⟩ := h.sampled (body := fun x => if x = v then [] else [.bwaitCheck l v n start .transfer])
    (fun s => Micro.tick_bwaitSample s l v n start _) fun x s => by split <;> simp only [State.push_nil, waitDone]
  by_cases hx : x = v
  · subst hx
    exact ⟨[.smp l x], es', rfl, .met, by simpa using hnext⟩
  · rw [if_neg hx] at hnext
    obtain ⟨y, es'', rfl, hearly, hsample⟩ := hnext.bwaitCheck
    obtain ⟨ws, es₃, rfl, hloop, hrest⟩ := hsample.bwaitSample
    exact ⟨.smp l x :: .now y :: ws, es₃, rfl, .again hx hearly hloop, hrest⟩
termination_by es.length

/-- R72, R73: the events of a transfer wait that is met. -/
def WaitMet (c : Config) (l : Line) (v : Level) (ws : List Event) : Prop :=
  match c.waitPolicy with
  | .unbounded => PollLoop l v ws
  | .bounded => ∃ start ws', ws = .now start :: ws' ∧ BwaitLoop c l v c.timeoutUs start true ws'

/-- R73: a transfer wait. -/
theorem CanAnswer.wait (h : CanAnswer c req (.wait l v :: todo) f p es) :
    ∃ ws es', es = ws ++ es' ∧ WaitMet c l v ws ∧ CanAnswer c req todo f p es' := by
  have hloop := h.push (body := [waitLoop c l v]) fun s hs => hs ▸ Micro.tick_wait s l v
  unfold WaitMet
  cases hp : c.waitPolicy with
  | unbounded =>
    simp only [waitLoop, hp] at hloop
    exact hloop.poll
  | bounded =>
    simp only [waitLoop, hp] at hloop
    obtain ⟨s, t, u, hs, hu, hreach⟩ := hloop.tick
    rw [Micro.tick_bwait] at hu
    obtain ⟨_, _, -, rfl⟩ := State.onNow_cases hu
    obtain ⟨es', rfl, hsample⟩ := hs.next (d := [_]) hreach rfl rfl hs.frame rfl rfl
    obtain ⟨ws, es'', rfl, hmet, hrest⟩ := hsample.bwaitSample
    exact ⟨_, es'', rfl, ⟨_, ws, rfl, hmet⟩, hrest⟩

/-! ### What a read samples and what it does -/

/-- R62, R67: the line-control events and delays among `es` are `lines`, the data samples are `levels`. -/
structure Shows (es lines : List Event) (levels : List Level) : Prop where
  lines : lineEvents es = lines
  levels : samplesOf .dat es = levels

theorem Shows.append {es₁ es₂ lines₁ lines₂ : List Event} {levels₁ levels₂ : List Level} (h : Shows es₁ lines₁ levels₁)
    (g : Shows es₂ lines₂ levels₂) : Shows (es₁ ++ es₂) (lines₁ ++ lines₂) (levels₁ ++ levels₂) :=
  ⟨by rw [lineEvents_append, h.lines, g.lines], by rw [samplesOf_append, h.levels, g.levels]⟩

theorem Shows.of_pollLoop {ws : List Event} (h : PollLoop .clk v ws) : Shows ws [] [] := by
  induction h with
  | met => exact ⟨rfl, rfl⟩
  | again _ _ ih => exact ⟨ih.lines, ih.levels⟩

theorem Shows.of_bwaitLoop {n start : Time} {met : Bool} {ws : List Event} (h : BwaitLoop c .clk v n start met ws) :
    Shows ws [] [] := by
  induction h with
  | met => exact ⟨rfl, rfl⟩
  | expired _ _ => exact ⟨rfl, rfl⟩
  | again _ _ _ ih => exact ⟨ih.lines, ih.levels⟩

/-- R73: a wait for the clock only samples the clock and reads the time. -/
theorem WaitMet.shows {ws : List Event} (h : WaitMet c .clk v ws) : Shows ws [] [] := by
  unfold WaitMet at h
  split at h
  · exact .of_pollLoop h
  · obtain ⟨start, ws', rfl, hloop⟩ := h
    have hws := Shows.of_bwaitLoop hloop
    exact ⟨hws.lines, hws.levels⟩

/-- R83 steps 3 and 4: the frame with a received bit written into it. -/
def Frame.receive (g : Frame) (dst : BitDst) (b : Bool) : Frame :=
  match dst with
  | .data i => { g with data := setByteBit g.data i b, i := i }
  | .parity => { g with parity := some b }
  | .stop => { g with stop := some b }
  | .result => g

/-- The frame with the sampled levels written into it. -/
def Frame.receiveAll (g : Frame) : List BitDst → List Level → Frame
  | dst :: dsts, x :: xs => (g.receive dst x.bit).receiveAll dsts xs
  | _, _ => g

theorem tick_bitReturn_framed {dst : BitDst} {g : Frame} {b : Bool} (hdst : dst.framed = true) (hs : s.frame = some g) :
    (Micro.bitReturn dst b).tick s = .moved { s with frame := some (g.receive dst b) } := by
  cases dst with
  | result => cases hdst
  | data i => simp only [Micro.tick_bitReturn, stepBitReturn, hs, Frame.receive]
  | parity => simp only [Micro.tick_bitReturn, stepBitReturn, hs, Frame.receive]
  | stop => simp only [Micro.tick_bitReturn, stepBitReturn, hs, Frame.receive]

/-- R79, R83: a received bit is the level of the one data sample between its two waits. -/
theorem CanAnswer.recvBit {dst : BitDst} {g : Frame} (hdst : dst.framed = true)
    (h : CanAnswer c req (.recvBit dst :: todo) (some g) p es) :
    ∃ x d es', es = d ++ es' ∧ Shows d [] [x] ∧ CanAnswer c req todo (some (g.receive dst x.bit)) p es' := by
  obtain ⟨low, es₁, rfl, hlow, h₁⟩ := (h.push fun s _ => Micro.tick_recvBit s dst).wait
  obtain ⟨x, es₂, rfl, h₂⟩ := h₁.sampled (body := fun x => [.wait .clk .high, .bitReturn dst x.bit])
    (fun s => Micro.tick_sampleBit s dst) fun _ _ => rfl
  obtain ⟨high, es₃, rfl, hhigh, h₃⟩ := h₂.wait
  have hsample : Shows [.smp .dat x] [] [x] := ⟨rfl, rfl⟩
  refine ⟨x, low ++ ([.smp .dat x] ++ high), es₃, by simp, hlow.shows.append (hsample.append hhigh.shows), ?_⟩
  exact h₃.setFrame fun s hs => tick_bitReturn_framed hdst hs

/-- R83 steps 3 and 4: several received bits, one data sample each. -/
theorem CanAnswer.recvBits : ∀ (dsts : List BitDst) {g : Frame} {es : List Event},
    (∀ dst ∈ dsts, dst.framed = true) → CanAnswer c req (dsts.map Micro.recvBit ++ todo) (some g) p es →
    ∃ xs d es', es = d ++ es' ∧ Shows d [] xs ∧ xs.length = dsts.length ∧
      CanAnswer c req todo (some (g.receiveAll dsts xs)) p es'
  | [], g, es, _, h => ⟨[], [], es, rfl, ⟨rfl, rfl⟩, rfl, h⟩
  | dst :: dsts, g, es, hdsts, h => by
    obtain ⟨x, d, es₁, rfl, hd, h₁⟩ := h.recvBit (hdsts dst List.mem_cons_self)
    obtain ⟨xs, d', es', rfl, hd', hlength, hrest⟩ :=
      CanAnswer.recvBits dsts (fun dst hdst => hdsts dst (List.mem_cons_of_mem _ hdst)) h₁
    exact ⟨x :: xs, d ++ d', es', (List.append_assoc ..).symm, hd.append hd', by rw [List.length_cons, hlength]; rfl, hrest⟩

/-- R9, R83 step 3: bit `j` of a byte with bit `i` replaced. -/
theorem byteBit_setByteBit (v : Byte) (i j : Fin 8) (b : Bool) :
    byteBit (setByteBit v i b) j = if j = i then b else byteBit v j := by
  have hmask : (1#8 <<< i.val).getLsbD j = decide (j = i) := by revert i j; decide
  have hbit : ((if b then 1#8 else 0#8) <<< i.val).getLsbD j = (decide (j = i) && b) := by revert i j b; decide
  simp only [byteBit, setByteBit, BitVec.getLsbD_or, BitVec.getLsbD_and, BitVec.getLsbD_not, hmask, hbit, j.isLt, decide_true]
  by_cases h : j = i
  · simp [h]
  · simp [h]

/-- R32, R83: ten received levels make the frame whose byte is the first eight, least significant first, then parity and stop. -/
theorem receiveAll_readDsts {xs : List Level} (hlength : xs.length = readDsts.length) :
    ∃ data parity stop j, Frame.receiveAll ⟨0, none, none, 0⟩ readDsts xs = ⟨data, some parity, some stop, j⟩ ∧
      xs.map Level.bit = bitIndices.map (byteBit data) ++ [parity, stop] := by
  match xs, hlength with
  | [x₀, x₁, x₂, x₃, x₄, x₅, x₆, x₇, x₈, x₉], _ =>
    exact ⟨_, _, _, _, rfl, by simp [bitIndices, Frame.receive, byteBit_setByteBit]⟩

/-- R83 steps 1 and 2, and the opening of the frame. -/
theorem CanAnswer.readStart (h : CanAnswer c req (readStartSteps ++ todo) f p es) :
    ∃ d es', es = d ++ es' ∧ Shows d [.rel .dat, .rel .clk, .dly c.tRdRelease, .dly c.tRdStart] [] ∧
      CanAnswer c req todo (some ⟨0, none, none, 0⟩) p es' := by
  obtain ⟨_, rfl, h₁⟩ := h.onLine fun s => Micro.tick_rel s .dat
  obtain ⟨_, rfl, h₂⟩ := h₁.onLine fun s => Micro.tick_rel s .clk
  obtain ⟨_, rfl, h₃⟩ := h₂.delay
  obtain ⟨low, _, rfl, hlow, h₄⟩ := h₃.wait
  obtain ⟨high, _, rfl, hhigh, h₅⟩ := h₄.wait
  obtain ⟨es', rfl, h₆⟩ := h₅.delay
  have hrelease : Shows [.rel .dat, .rel .clk, .dly c.tRdRelease] [.rel .dat, .rel .clk, .dly c.tRdRelease] [] := ⟨rfl, rfl⟩
  have hstart : Shows [.dly c.tRdStart] [.dly c.tRdStart] [] := ⟨rfl, rfl⟩
  refine ⟨_, es', ?_, hrelease.append (hlow.shows.append (hhigh.shows.append hstart)), ?_⟩
  · simp [Config.delayOf]
  · exact h₆.setFrame fun s _ => Micro.tick_openRead s

/-- R84: a checked frame that goes on has no error. -/
theorem CanAnswer.checkFrame {data : Byte} {parity stop : Bool} {j : Fin 8}
    (h : CanAnswer c req (.checkFrame :: todo) (some ⟨data, some parity, some stop, j⟩) p es) :
    frameError c data parity stop = none ∧ CanAnswer c req todo (some ⟨data, some parity, some stop, j⟩) p es := by
  obtain ⟨s, t, u, hs, hu, hreach⟩ := h.tick
  have hframe : (s.stepped req todo).frame = some ⟨data, some parity, some stop, j⟩ := hs.frame
  have hcfg : (s.stepped req todo).cfg = c := hs.cfg
  simp only [Micro.tick_checkFrame, stepCheckFrame, hframe, hcfg] at hu
  split at hu
  · next hnone =>
    cases hu
    obtain ⟨es', rfl, hnext⟩ := hs.next (d := []) hreach rfl rfl hframe rfl (List.append_nil _).symm
    exact ⟨hnone, hnext⟩
  · next code hcode =>
    cases hu
    obtain ⟨rfl, -⟩ := hs.finished hreach rfl (List.append_nil _).symm
    obtain ⟨-, hbad⟩ := frameError_cases hcode
    exact absurd hbad (by decide)

/-- R83 step 7: READ_BYTE's return. -/
theorem CanAnswer.byteReturn {g : Frame} (h : CanAnswer c req (.byteReturn .result :: todo) (some g) p es) :
    .byte g.data = p ∧ es = [] := by
  obtain ⟨s, t, u, hs, hu, hreach⟩ := h.tick
  have hframe : (s.stepped req todo).frame = some g := hs.frame
  simp only [Micro.tick_byteReturn, stepByteReturn, hframe] at hu
  cases hu
  obtain ⟨es', rfl, hnext⟩ := hs.next (d := []) hreach rfl rfl rfl rfl (List.append_nil _).symm
  exact hnext.respond

/-- R79, R83, R84: what a read that answers received, checked and did. -/
theorem CanAnswer.readByte (h : CanAnswer c req [.readByte .result] f p es) :
    ∃ data parity stop levels, p = .byte data ∧ frameError c data parity stop = none ∧
      levels.map Level.bit = bitIndices.map (byteBit data) ++ [parity, stop] ∧
      Shows es [.rel .dat, .rel .clk, .dly c.tRdRelease, .dly c.tRdStart, .low .clk] levels := by
  have hbody := h.push fun s _ => Micro.tick_readByte s .result
  rw [readByteBody, List.append_assoc, List.append_assoc] at hbody
  obtain ⟨start, es₁, rfl, hstart, h₁⟩ := hbody.readStart
  obtain ⟨levels, bits, es₂, rfl, hbits, hlength, h₂⟩ :=
    CanAnswer.recvBits (todo := [.low .clk, .checkFrame, .byteReturn .result]) readDsts (by decide) h₁
  obtain ⟨data, parity, stop, j, hreceived, hlevels⟩ := receiveAll_readDsts hlength
  rw [hreceived] at h₂
  obtain ⟨es₃, rfl, h₃⟩ := h₂.onLine fun s => Micro.tick_low s .clk
  obtain ⟨hcheck, h₄⟩ := h₃.checkFrame
  obtain ⟨hbyte, rfl⟩ := h₄.byteReturn
  have hinhibit : Shows [.low .clk] [.low .clk] [] := ⟨rfl, rfl⟩
  have hshows := hstart.append (hbits.append hinhibit)
  rw [List.append_nil] at hshows
  exact ⟨data, parity, stop, levels, hbyte.symm, hcheck, hlevels, hshows⟩

/-- A request that answered OK. -/
theorem canAnswer_of_exec {i : Instr} (h : exec i s = .next t) (hr : t.responses = s.responses ++ [⟨.ok, p⟩]) :
    ∃ es, t.trace = s.trace ++ es ∧ CanAnswer s.cfg i (requestBody i s) s.frame p es := by
  obtain ⟨-, hreach, -⟩ := exec_next h
  obtain ⟨es, htrace⟩ := hreach.trace_append
  obtain ⟨rs, hresponses, hbusy, -⟩ := run_answers hreach
  have hidle : t.pos = .idle := by
    by_contra hne
    rw [hbusy hne, List.append_nil, hr] at hresponses
    exact absurd hresponses (by simp)
  exact ⟨es, htrace, { s with pos := .busy i (requestBody i s) }, t, ⟨rfl, rfl, rfl, hreach, hidle, hr, htrace⟩⟩

/-- R84: in strict mode a frame without an error has odd parity and stop 1. -/
theorem strict_of_frameError_none {data : Byte} {parity stop : Bool} (h : frameError c data parity stop = none)
    (hs : c.strict = .strict) : parity = oddParity data ∧ stop = true := by
  simp only [frameError, hs] at h
  split at h
  · cases h
  · next hparity =>
    split at h
    · cases h
    · next hstop => exact ⟨not_not.mp hparity, not_not.mp hstop⟩

/-- Settles O41: the run that answered is taken apart step by step. -/
theorem readByteSamples : Obligations.ReadByteSamples := by
  unfold Obligations.ReadByteSamples
  intro s t v _ hexec hr
  obtain ⟨es, htrace, hanswer⟩ := canAnswer_of_exec hexec hr
  obtain ⟨data, parity, stop, levels, hbyte, hcheck, hlevels, hshows⟩ := hanswer.readByte
  cases hbyte
  exact ⟨es, parity, stop, htrace, by rw [hshows.levels, hlevels], strict_of_frameError_none hcheck, hshows.lines⟩

end Sys2Proof.Machine
end

section
/-! PROOFS of the statements of spec/30_encoding.md about the request word: which words decode to a request, by its operation code and
its operands (R52 to R56), and the assembler lines (R58, R59). -/

namespace Sys2Proof

/-! ### Which words decode to a request -/

/-- R53, R56: the operand fields of the word hold the operands of the request. -/
def Instr.Operands (w : Request) : Instr → Prop
  | .initializeDevice | .pollReport | .setPolledMode | .setContinuousMode | .setScaling2to1 | .setScaling1to1
  | .enableReporting | .disableReporting | .getPins | .readByte | .recvBit => True
  | .setSampleRate v | .setResolution v | .writeByte v => w.arg = v
  | .selectMode c m => w.arg = c ∧ w.target = m
  | .waitClockBounded v t => w.level = v ∧ w.timeout = t
  | .driveLow l | .driveHigh l | .release l | .sample l => w.line = l
  | .sendBit b => w.bit = b
  | .waitLevel l v => w.line = l ∧ w.waitLevel = v

/-- R53, R54, R56: a word decodes to a request exactly when it holds its operation code and its operands. -/
theorem decode_eq_ok_iff (w : Request) (i : Instr) : decode w = .ok i ↔ w.op = i.op ∧ i.Operands w := by
  constructor
  · intro h
    unfold decode at h
    split at h <;> cases h
    all_goals simp_all [Instr.op, Instr.Operands]
  · rintro ⟨hop, hoperands⟩
    cases i <;> simp only [Instr.Operands] at hoperands <;> simp [decode, hop, Instr.op, hoperands]

/-! ### The operands of a packed word -/

/-- R56: the bit operand is bit 0 of `arg`. -/
theorem Request.bit_eq_arg (w : Request) : w.bit = w.arg.getLsbD 0 := w.getLsbD_arg (i := 0) (by decide)

theorem Request.line_eq_arg (w : Request) : w.line = if w.arg.getLsbD 0 then .dat else .clk := by
  rw [← w.bit_eq_arg]; rfl

theorem Level.ofBit_eq_ite (b : Bool) : Level.ofBit b = if b then .high else .low := by cases b <;> rfl

theorem Request.level_eq_arg (w : Request) : w.level = if w.arg.getLsbD 0 then .high else .low := by
  rw [← w.bit_eq_arg]; exact Level.ofBit_eq_ite _

/-- R56: the level operand of WAIT_LEVEL is bit 1 of `arg`. -/
theorem Request.waitLevel_eq_arg (w : Request) : w.waitLevel = if w.arg.getLsbD 1 then .high else .low := by
  rw [← w.getLsbD_arg (i := 1) (by decide)]; exact Level.ofBit_eq_ite _

/-- R56: the target mode is bit 0 of `tmo`. -/
theorem Request.target_eq_tmo (w : Request) : w.target = if w.tmo.getLsbD 0 then .continuous else .polled := by
  rw [← w.getLsbD_tmo (i := 0) (by decide)]; rfl

section Pack

variable (op arg : Byte) (tmo : BitVec 32)

@[simp] theorem Request.bit_pack : (Request.pack op arg tmo).bit = arg.getLsbD 0 := by
  rw [Request.bit_eq_arg, Request.arg_pack]

@[simp] theorem Request.line_pack : (Request.pack op arg tmo).line = if arg.getLsbD 0 then .dat else .clk := by
  rw [Request.line_eq_arg, Request.arg_pack]

@[simp] theorem Request.level_pack : (Request.pack op arg tmo).level = if arg.getLsbD 0 then .high else .low := by
  rw [Request.level_eq_arg, Request.arg_pack]

@[simp] theorem Request.waitLevel_pack :
    (Request.pack op arg tmo).waitLevel = if arg.getLsbD 1 then .high else .low := by
  rw [Request.waitLevel_eq_arg, Request.arg_pack]

@[simp] theorem Request.target_pack :
    (Request.pack op arg tmo).target = if tmo.getLsbD 0 then .continuous else .polled := by
  rw [Request.target_eq_tmo, Request.tmo_pack]

@[simp] theorem Request.timeout_pack : (Request.pack op arg tmo).timeout = tmo.toNat := by
  rw [Request.timeout, Request.tmo_pack]

end Pack

/-! ### The word of a request -/

/-- R52, R56: the operand fields of a request's word hold its operands; only a timeout can be too wide for its field. -/
theorem Instr.operands_encode {i : Instr} (h : i.wellFormed = true) : i.Operands (encode i) := by
  cases i with
  | setSampleRate | setResolution | writeByte => exact Request.arg_pack _ _ _
  | selectMode c m =>
    refine ⟨Request.arg_pack _ _ _, (Request.target_pack _ _ _).trans ?_⟩
    cases m <;> simp [Instr.tmo]
  | waitClockBounded v t =>
    refine ⟨(Request.level_pack _ _ _).trans ?_, (Request.timeout_pack _ _ _).trans ?_⟩
    · cases v <;> simp [Instr.arg, Level.code]
    · exact Nat.mod_eq_of_lt (of_decide_eq_true h)
  | driveLow l | driveHigh l | release l | sample l =>
    refine (Request.line_pack _ _ _).trans ?_
    cases l <;> rfl
  | sendBit b =>
    refine (Request.bit_pack _ _ _).trans ?_
    cases b <;> rfl
  | waitLevel l v =>
    refine ⟨(Request.line_pack _ _ _).trans ?_, (Request.waitLevel_pack _ _ _).trans ?_⟩
    · cases l <;> cases v <;> rfl
    · cases l <;> cases v <;> rfl
  | _ => trivial

/-- Settles O1: the word of a request holds its operation code and its operands. -/
theorem decodeOfEncode : Obligations.DecodeOfEncode := by
  unfold Obligations.DecodeOfEncode
  intro i h
  exact (decode_eq_ok_iff _ _).mpr ⟨Request.op_pack _ _ _, i.operands_encode h⟩

/-! ### The opcode table -/

/-- R52 to R54: a word written out field by field decodes to the request whose operation code and operands the fields hold. -/
theorem decode_fields {op arg : Byte} {tmo : BitVec 32} {i : Instr} (hop : op = i.op)
    (hoperands : i.Operands (Request.pack op arg tmo)) : decode (op ++ arg ++ tmo) = .ok i :=
  (decode_eq_ok_iff _ _).mpr ⟨(Request.op_pack op arg tmo).trans hop, hoperands⟩

/-- Settles O2: each row by its operation code and by how its operands are read from the fields. -/
theorem decodeTable : Obligations.DecodeTable := by
  unfold Obligations.DecodeTable
  intro arg tmo
  and_intros <;> refine decode_fields rfl ?_ <;> simp [Instr.Operands]

/-- Settles O5: each word is decoded. -/
theorem sampleWordsDecode : Obligations.SampleWordsDecode := by
  unfold Obligations.SampleWordsDecode
  decide

/-- Settles O6: each line is assembled. -/
theorem assemblerLines : Obligations.AssemblerLines := by
  unfold Obligations.AssemblerLines
  decide

/-! ### The bits a request is read from -/

/-- Two words agree on a mask exactly when they agree on each of its bits. -/
theorem and_eq_and_iff_getLsbD {n : Nat} (a b m : BitVec n) :
    a &&& m = b &&& m ↔ ∀ i < n, m.getLsbD i = true → a.getLsbD i = b.getLsbD i := by
  constructor
  · intro h i _ hm
    have hbit := congrArg (BitVec.getLsbD · i) h
    simpa only [BitVec.getLsbD_and, hm, Bool.and_true] using hbit
  · intro h
    refine BitVec.eq_of_getLsbD_eq fun i hi => ?_
    cases hm : m.getLsbD i with
    | false => simp only [BitVec.getLsbD_and, hm, Bool.and_false]
    | true => simp only [BitVec.getLsbD_and, h i hi hm]

theorem and_one_eq_and_one_iff {n : Nat} (hn : 0 < n) (a b : BitVec n) :
    a &&& 1#n = b &&& 1#n ↔ a.getLsbD 0 = b.getLsbD 0 := by
  rw [and_eq_and_iff_getLsbD]
  simp only [BitVec.getLsbD_one, hn, decide_true, Bool.true_and, decide_eq_true_eq]
  exact ⟨fun h => h 0 hn rfl, fun h i _ hi => hi ▸ h⟩

theorem and_three_eq_and_three_iff (a b : Byte) :
    a &&& 3#8 = b &&& 3#8 ↔ a.getLsbD 0 = b.getLsbD 0 ∧ a.getLsbD 1 = b.getLsbD 1 := by
  rw [and_eq_and_iff_getLsbD]
  constructor
  · intro h
    exact ⟨h 0 (by decide) rfl, h 1 (by decide) rfl⟩
  · rintro ⟨hzero, hone⟩ i hi hm
    have hlow : i = 0 ∨ i = 1 := (show ∀ i < 8, (3#8).getLsbD i = true → i = 0 ∨ i = 1 by decide) i hi hm
    rcases hlow with rfl | rfl
    · exact hzero
    · exact hone

/-- A field's whole mask. -/
@[simp] theorem and_full_arg (a : Byte) : a &&& 0xFF#8 = a := BitVec.and_allOnes

@[simp] theorem and_full_tmo (a : BitVec 32) : a &&& 0xFFFFFFFF#32 = a := BitVec.and_allOnes

/-- R52: a word is its three fields. -/
theorem Request.pack_fields (w : Request) : Request.pack w.op w.arg w.tmo = w := by
  apply BitVec.eq_of_toNat_eq
  have := w.isLt
  simp only [Request.pack_toNat, Request.op, Request.arg, Request.tmo, BitVec.extractLsb'_toNat, Nat.shiftRight_eq_div_pow]
  omega

theorem Request.eq_iff_fields (w w' : Request) : w' = w ↔ w'.op = w.op ∧ w'.arg = w.arg ∧ w'.tmo = w.tmo := by
  constructor
  · rintro rfl
    exact ⟨rfl, rfl, rfl⟩
  · rintro ⟨hop, harg, htmo⟩
    rw [← w'.pack_fields, hop, harg, htmo, w.pack_fields]

@[simp] theorem Request.op_and (w m : Request) : Request.op (w &&& m) = w.op &&& m.op := BitVec.extractLsb'_and
@[simp] theorem Request.arg_and (w m : Request) : Request.arg (w &&& m) = w.arg &&& m.arg := BitVec.extractLsb'_and
@[simp] theorem Request.tmo_and (w m : Request) : Request.tmo (w &&& m) = w.tmo &&& m.tmo := BitVec.extractLsb'_and

/-- R53, R56: the bits of `arg` that a request is read from. -/
def Instr.usedArg : Instr → Byte
  | .initializeDevice | .pollReport | .setPolledMode | .setContinuousMode | .setScaling2to1 | .setScaling1to1
  | .enableReporting | .disableReporting | .getPins | .readByte | .recvBit => 0#8
  | .setSampleRate _ | .setResolution _ | .writeByte _ | .selectMode _ _ => 0xFF#8
  | .waitClockBounded _ _ | .driveLow _ | .driveHigh _ | .release _ | .sample _ | .sendBit _ => 1#8
  | .waitLevel _ _ => 3#8

/-- R53, R56: the bits of `tmo` that a request is read from. -/
def Instr.usedTmo : Instr → BitVec 32
  | .initializeDevice | .pollReport | .setPolledMode | .setContinuousMode | .setSampleRate _ | .setResolution _
  | .setScaling2to1 | .setScaling1to1 | .enableReporting | .disableReporting | .getPins | .writeByte _ | .readByte
  | .driveLow _ | .driveHigh _ | .release _ | .sample _ | .sendBit _ | .recvBit | .waitLevel _ _ => 0#32
  | .selectMode _ _ => 1#32
  | .waitClockBounded _ _ => 0xFFFFFFFF#32

/-- R52: the used bits of a word are those of its fields, and the whole operation code. -/
theorem Instr.usedBits_eq_pack (i : Instr) : i.usedBits = Request.pack (0xFF#8) i.usedArg i.usedTmo := by
  apply BitVec.eq_of_toNat_eq
  cases i <;> simp [Request.pack_toNat, Instr.usedBits, Instr.usedArg, Instr.usedTmo]

/-- R52: two words agree on the used bits of a request exactly when they have one operation code and agree on its operand bits. -/
theorem and_usedBits_eq_iff (w w' : Request) (i : Instr) : w' &&& i.usedBits = w &&& i.usedBits ↔
    w'.op = w.op ∧ w'.arg &&& i.usedArg = w.arg &&& i.usedArg ∧ w'.tmo &&& i.usedTmo = w.tmo &&& i.usedTmo := by
  simp [Request.eq_iff_fields, Instr.usedBits_eq_pack]

/-- An operand that a bit selects is the same exactly when the bit is. -/
theorem ite_eq_ite_iff_eq {α : Type} {x y : α} (hne : x ≠ y) (a b : Bool) :
    ((if a then x else y) = if b then x else y) ↔ a = b := by
  cases a <;> cases b <;> simp [hne, hne.symm]

/-- R52, R53, R56: a word that agrees on a request's operand bits with a word that holds its operands holds them, and no other
does. -/
theorem Instr.operands_iff_of_operands {w : Request} {i : Instr} (h : i.Operands w) (w' : Request) : i.Operands w' ↔
    w'.arg &&& i.usedArg = w.arg &&& i.usedArg ∧ w'.tmo &&& i.usedTmo = w.tmo &&& i.usedTmo := by
  cases i with
  | setSampleRate | setResolution | writeByte =>
    cases h
    simp [Instr.Operands, Instr.usedArg, Instr.usedTmo]
  | selectMode c m =>
    obtain ⟨rfl, rfl⟩ := h
    simp [Instr.Operands, Instr.usedArg, Instr.usedTmo, Request.target_eq_tmo, ite_eq_ite_iff_eq, and_one_eq_and_one_iff]
  | waitClockBounded v t =>
    obtain ⟨rfl, rfl⟩ := h
    simp [Instr.Operands, Instr.usedArg, Instr.usedTmo, Request.level_eq_arg, Request.timeout, ite_eq_ite_iff_eq,
      and_one_eq_and_one_iff, BitVec.toNat_inj]
  | driveLow l | driveHigh l | release l | sample l =>
    cases h
    simp [Instr.Operands, Instr.usedArg, Instr.usedTmo, Request.line_eq_arg, ite_eq_ite_iff_eq, and_one_eq_and_one_iff]
  | sendBit b =>
    cases h
    simp [Instr.Operands, Instr.usedArg, Instr.usedTmo, Request.bit_eq_arg, and_one_eq_and_one_iff]
  | waitLevel l v =>
    obtain ⟨rfl, rfl⟩ := h
    simp [Instr.Operands, Instr.usedArg, Instr.usedTmo, Request.line_eq_arg, Request.waitLevel_eq_arg, ite_eq_ite_iff_eq,
      and_three_eq_and_three_iff]
  | _ => simp [Instr.Operands, Instr.usedArg, Instr.usedTmo]

/-- Settles O3: both sides say that the words have one operation code and agree on the operand bits. -/
theorem decodeReadsUsedBits : Obligations.DecodeReadsUsedBits := by
  unfold Obligations.DecodeReadsUsedBits
  intro w w' i h
  obtain ⟨hop, hoperands⟩ := (decode_eq_ok_iff w i).mp h
  rw [decode_eq_ok_iff, and_usedBits_eq_iff, Instr.operands_iff_of_operands hoperands, hop]

end Sys2Proof
end

section
/-! PROOFS of the statements of spec/30_encoding.md about frames and responses: the frame word and its parity (R46, R47), the frame
word on the wire (R47, R81), and what a request can answer (R54, R57, R109, R110, R113). -/

namespace Sys2Proof.Machine

/-! ### Parity and the frame word -/

/-- R46: an exclusive-or accumulates the parity of the number of ones. -/
theorem toNat_foldl_xor {α : Type} (p : α → Bool) (is : List α) (acc : Bool) :
    (is.foldl (fun acc i => acc ^^ p i) acc).toNat = (acc.toNat + is.countP p) % 2 := by
  induction is generalizing acc with
  | nil => cases acc <;> rfl
  | cons i is ih =>
    rw [List.foldl_cons, ih, List.countP_cons]
    cases acc <;> cases p i <;> simp <;> omega

/-- R46: the ones of a byte, counted by bit index. -/
theorem countP_getLsbD_range (v : Byte) : (List.range 8).countP (fun i => v.getLsbD i) = bitIndices.countP (byteBit v) := by
  rw [show List.range 8 = bitIndices.map Fin.val from rfl, List.countP_map]
  rfl

/-- R46: the ones of a byte and its parity bit together are odd in number. -/
theorem countP_add_oddParity (v : Byte) : (bitIndices.countP (byteBit v) + (oddParity v).toNat) % 2 = 1 := by
  rw [← foldl_parity, toNat_foldl_xor, Bool.toNat_true]
  omega

/-- R47: the bits of the frame word, part by part. -/
theorem frameWord_getLsbD (v : Byte) (i : Nat) : (frameWord v).getLsbD i =
    if i < 1 then false else if i - 1 < 8 then v.getLsbD (i - 1)
    else if i - 1 - 8 < 1 then (BitVec.ofBool (oddParity v)).getLsbD (i - 1 - 8) else (1#1).getLsbD (i - 1 - 8 - 1) := by
  change (1#1 ++ BitVec.ofBool (oddParity v) ++ v ++ 0#1 : BitVec (1 + 1 + 8 + 1)).getLsbD i = _
  simp only [BitVec.getLsbD_append, BitVec.getLsbD_zero]

theorem frameWord_start (v : Byte) : (frameWord v).getLsbD 0 = false := frameWord_getLsbD v 0

theorem frameWord_data (v : Byte) (i : Fin 8) : (frameWord v).getLsbD (i + 1) = byteBit v i := by
  simp [frameWord_getLsbD, byteBit]

theorem frameWord_parity (v : Byte) : (frameWord v).getLsbD 9 = oddParity v :=
  (frameWord_getLsbD v 9).trans (by simp)

theorem frameWord_stop (v : Byte) : (frameWord v).getLsbD 10 = true := frameWord_getLsbD v 10

/-- Settles O36. -/
theorem parityAndFrameWord : Obligations.ParityAndFrameWord := by
  unfold Obligations.ParityAndFrameWord
  intro v
  rw [countP_getLsbD_range]
  exact ⟨countP_add_oddParity v, frameWord_start v, frameWord_data v, frameWord_parity v, frameWord_stop v⟩

/-! ### The frame word on the wire -/

/-- R47: the slots of the frame word, slot 0 first. -/
theorem frameWord_slots (v : Byte) :
    (List.range 11).map (fun i => (frameWord v).getLsbD i) = false :: (bitIndices.map (byteBit v) ++ [oddParity v, true]) := by
  have hrange : List.range 11 = 0 :: (bitIndices.map (fun i => i.val + 1) ++ [9, 10]) := rfl
  rw [hrange, List.map_cons, List.map_append, List.map_map, frameWord_start]
  congr 2
  · exact List.map_congr_left fun i _ => frameWord_data v i
  · rw [List.map_cons, List.map_singleton, frameWord_parity, frameWord_stop]

/-- R47: an analyser, after some events. -/
def Analyser.after (a : Analyser) (es : List Event) : Analyser := es.foldl Analyser.see a

theorem Analyser.after_append (a : Analyser) (es fs : List Event) : a.after (es ++ fs) = (a.after es).after fs :=
  List.foldl_append ..

variable {c : Config}

/-- An analyser in a write with the clock not driven low, after the slots `slots`. -/
def Analyser.inWrite (a : Analyser) (datLow : Bool) (lastClk : Level) (slots : List Bool) : Analyser :=
  { a with clkLow := false, datLow := datLow, lastClk := lastClk, writing := some slots }

section Analyser

variable (a : Analyser) (low : Bool) (last : Level) (slots : List Bool)

/-- R66, R81 steps 1 to 4: the request-to-send opens a write. -/
theorem Analyser.after_writeStart : a.after (writeStartEvents c) = a.inWrite true .high [] := by
  simp [Analyser.after, writeStartEvents, Analyser.see, Analyser.inWrite]

/-- R81 step 5: the peripheral's first clock low is no slot. -/
theorem Analyser.after_firstLow : (a.inWrite low last slots).after [.smp .clk .low] = a.inWrite low .low slots := by
  simp [Analyser.after, Analyser.see, Analyser.inWrite]

/-- R47, R81 steps 6 to 8: a slot latches the bit that its first event puts on the data line. -/
theorem Analyser.after_slot {e : Event} {b : Bool}
    (he : (a.inWrite low last slots).see e = a.inWrite (!b) last slots) :
    (a.inWrite low last slots).after [e, .smp .clk .low, .smp .clk .high] = a.inWrite (!b) .high (slots ++ [b]) := by
  rw [Analyser.after, List.foldl_cons, he]
  simp [Analyser.see, Analyser.inWrite]

/-- R78: a sent bit. -/
theorem Analyser.after_sendBit (b : Bool) :
    (a.inWrite low last slots).after (sendBitEvents c b) = a.inWrite (!b) .high (slots ++ [b]) := by
  refine a.after_slot low last slots ?_
  cases b with
  | false => rfl
  | true => cases hone : c.dataOne <;> simp [presentEvent, hone, Analyser.see, Analyser.inWrite]

/-- R78: several sent bits. -/
theorem Analyser.after_sendBits (bits : List Bool) :
    ∃ low' last', (a.inWrite low last slots).after (bits.map (sendBitEvents c)).flatten =
      a.inWrite low' last' (slots ++ bits) := by
  induction bits generalizing low last slots with
  | nil => exact ⟨low, last, by rw [List.append_nil]; rfl⟩
  | cons b bits ih =>
    obtain ⟨low', last', hrest⟩ := ih (!b) .high (slots ++ [b])
    refine ⟨low', last', ?_⟩
    rw [List.map_cons, List.flatten_cons, Analyser.after_append, Analyser.after_sendBit, hrest, List.append_assoc,
      List.singleton_append]

/-- R81 step 9: the acknowledgment ends the write, and its slots are a byte and a frame. -/
theorem Analyser.after_acknowledgment : (a.inWrite low last slots).after [.smp .dat .low, .low .clk] =
    { a with
      clkLow := true
      datLow := low
      lastClk := last
      writing := none
      bytes := a.bytes ++ [.wrote (byteOfBits (slots.take 8))]
      frames := a.frames ++ [false :: slots] } := rfl

/-- R32: the data slots of a byte give the byte back. -/
theorem byteOfBits_byteBit (v : Byte) : byteOfBits (bitIndices.map (byteBit v)) = v := by
  revert v; decide +kernel

/-- R81 steps 6 to 8: the slots of a write are the sent bits, then the stop slot. -/
theorem writeSlotEvents_eq (v : Byte) : writeSlotEvents c v =
    ((bitIndices.map (byteBit v) ++ [oddParity v]).map (sendBitEvents c)).flatten
      ++ [.rel .dat, .smp .clk .low, .smp .clk .high] := by
  simp [writeSlotEvents, List.map_map, Function.comp_def]

/-- R47, R81: a whole write, as an analyser sees it: one byte, one frame. -/
theorem Analyser.after_writeEvents (v : Byte) : a.after (writeEvents c v) =
    { a with
      clkLow := true
      datLow := false
      lastClk := .high
      writing := none
      bytes := a.bytes ++ [.wrote v]
      frames := a.frames ++ [false :: (bitIndices.map (byteBit v) ++ [oddParity v, true])] } := by
  obtain ⟨low, last, hbits⟩ :=
    a.after_sendBits (c := c) true .low [] (bitIndices.map (byteBit v) ++ [oddParity v])
  have hstop := a.after_slot low last (bitIndices.map (byteBit v) ++ [oddParity v]) (e := .rel .dat) (b := true) rfl
  have hdata : (bitIndices.map (byteBit v) ++ [oddParity v] ++ [true]).take 8 = bitIndices.map (byteBit v) := rfl
  rw [List.nil_append] at hbits
  simp only [writeEvents, writeSlotEvents_eq, Analyser.after_append, Analyser.after_writeStart, Analyser.after_firstLow,
    hbits, hstop, Analyser.after_acknowledgment, hdata, byteOfBits_byteBit]
  rfl

end Analyser

/-- R47: the one frame an analyser reads off a write is the frame word. -/
theorem framesOnBus_writeEvents (v : Byte) :
    framesOnBus (writeEvents c v) = [(List.range 11).map fun i => (frameWord v).getLsbD i] := by
  rw [frameWord_slots]
  exact congrArg Analyser.frames (Analyser.after_writeEvents _ v)

/-- Settles O37: the write leads to its end, and an analyser reads the frame word off its events. -/
theorem writeByte : Obligations.WriteByte := by
  unfold Obligations.WriteByte
  intro s v w rest hready hw
  obtain ⟨t, hexec, hended, hclk, hdat, hsession⟩ := exec_leads (i := .writeByte v) (r := ⟨.ok, .none⟩) hready
    (leads_writeByte (todo := []) hw) fun _ ht => end_ok ht rfl
  exact ⟨t, hexec, hended, hclk, hdat, hsession, framesOnBus_writeEvents v⟩

/-! ### One response per request -/

variable {s t : State}

/-- R27: a free move is no request and no response. -/
theorem State.supplyMove_accounted (s : State) : s.supplyMove.accounted = s.accounted := by
  unfold State.supplyMove
  split <;> rfl

theorem State.supplyMove_responses (s : State) : s.supplyMove.responses = s.responses := by
  unfold State.supplyMove
  split <;> rfl

/-- R57: a step leaves no request unaccounted for: one taken is in progress or answered, and one in progress stays so until its
response. -/
theorem step_accounted (h : step s = .next t) : t.accounted = s.accounted := by
  refine step_keeps (P := fun u => u.accounted = s.accounted) (fun _ _ ha hab => (accounted_tick hab).trans ha) ?_ ?_
    (fun a ha => a.supplyMove_accounted.trans ha) rfl h
  · rintro a w rest i ha hidle hrequests -
    rw [← ha]
    simp [State.accounted, hidle, hrequests]
  · rintro a w rest ha hidle hrequests
    rw [← ha]
    simp only [State.accounted, hidle, hrequests, List.length_cons, List.length_append, List.length_nil]
    omega

/-- R57, R111: what a step may add to the responses: one at most, and no payload beside an error code. -/
structure Answered (s t : State) (rs : List Response) : Prop where
  responses : t.responses = s.responses ++ rs
  once : rs.length ≤ 1
  payload : ∀ r ∈ rs, r.code ≠ .ok → r.payload = .none

theorem Answered.of_reaches (h : s.Reaches t) : ∃ rs, Answered s t rs := by
  obtain ⟨rs, hresponses, -, honce, hpayload⟩ := run_answers h
  exact ⟨rs, hresponses, honce, hpayload⟩

theorem step_answered (h : step s = .next t) : ∃ rs, Answered s t rs := by
  rcases step_cases s with ⟨-, -, hstep⟩ | ⟨w, rest, e, -, -, -, hstep⟩ | ⟨w, rest, i, -, -, -, hstep⟩ | ⟨req, todo, -, hstep⟩
  · rw [hstep] at h; cases h
    exact ⟨[], (List.append_nil _).symm, Nat.zero_le _, nofun⟩
  · rw [hstep] at h; cases h
    exact ⟨[⟨.illegalRequest, .none⟩], rfl, le_rfl, by simp⟩
  · rw [hstep] at h
    obtain ⟨-, hreach, -⟩ := exec_next h
    obtain ⟨rs, hanswered⟩ := Answered.of_reaches hreach
    exact ⟨rs, hanswered.responses, hanswered.once, hanswered.payload⟩
  · rw [hstep] at h
    obtain ⟨rs, hanswered⟩ := Answered.of_reaches (State.resume_next h).1
    exact ⟨rs, s.supplyMove_responses ▸ hanswered.responses, hanswered.once, hanswered.payload⟩

/-- Settles O22. -/
theorem oneResponsePerRequest : Obligations.OneResponsePerRequest := by
  unfold Obligations.OneResponsePerRequest
  intro s t h
  obtain ⟨rs, hresponses, honce, hpayload⟩ := step_answered h
  exact ⟨step_accounted h, rs, hresponses, honce, hpayload⟩

/-! ### Each error code and its cause -/

/-- R109, R110: what a handle configured as `c` may answer to the request `i`. -/
def MayAnswer (c : Config) (i : Instr) : ResponseCode → Prop
  | .ok => True
  | .busTimeout => c.waitPolicy = .bounded ∧ i.transfers = true
  | .unexpectedAcknowledgment => c.strict = .strict ∧ i.commands = true
  | .parityError | .framingError => c.strict = .strict ∧ i.reads = true
  | .illegalRequest => False

/-- R84, R89, R110: the pseudocode steps that raise an error fit only the requests that may answer it. -/
theorem Answer.mayAnswer {m : Micro} {c : Config} {mode : Mode} {i : Instr} {r : Response} (h : Answer m c r)
    (hfits : m.fits c mode i = true) : MayAnswer c i r.code := by
  obtain ⟨code, payload⟩ := r
  cases code with
  | ok => trivial
  | busTimeout =>
    obtain ⟨l, v, n, start, rfl⟩ := h
    obtain ⟨htransfers, hbounded⟩ := Bool.and_eq_true_iff.mp hfits
    exact ⟨of_decide_eq_true hbounded, htransfers⟩
  | unexpectedAcknowledgment =>
    obtain ⟨⟨a, rfl⟩, hstrict⟩ := h
    exact ⟨hstrict, hfits⟩
  | parityError | framingError =>
    obtain ⟨rfl, hstrict⟩ := h
    exact ⟨hstrict, hfits⟩
  | illegalRequest => exact h.elim

/-- R109: an atomic step of the request `i` answers nothing, or what the request may be answered. -/
theorem tick_mayAnswer {i : Instr} {todo : List Micro} (hs : s.Inv) (hpos : s.pos = .busy i todo) (h : s.tick = .moved t) :
    t.responses = s.responses ∨ ∃ r, t.responses = s.responses ++ [r] ∧ MayAnswer s.cfg i r.code := by
  cases todo with
  | nil =>
    rw [State.tick_done hpos] at h; cases h
    exact .inr ⟨⟨.ok, .none⟩, rfl, trivial⟩
  | cons m todo =>
    have hfits := hs.fits i _ hpos m List.mem_cons_self
    rw [State.tick_busy hpos] at h
    exact (Micro.tick_answer h).imp_right fun ⟨r, hr, hanswer⟩ => ⟨r, hr, hanswer.mayAnswer hfits⟩

/-- R57, R109: the request `i` goes on from `s` to `t` with no response, or has ended in `t` with one that it may be answered. -/
def MayProgress (c : Config) (i : Instr) (s t : State) : Prop :=
  (t.pos = .idle ∧ ∃ r, t.responses = s.responses ++ [r] ∧ MayAnswer c i r.code) ∨
  (t.responses = s.responses ∧ ∃ todo, t.pos = .busy i todo)

/-- R57: an atomic step that answers ends its request. -/
theorem MayProgress.tick {i : Instr} {todo : List Micro} (hs : s.Inv) (hpos : s.pos = .busy i todo)
    (h : s.tick = .moved t) : MayProgress s.cfg i s t := by
  rcases (State.tick_facts h).answered with ⟨hsame, hgoes⟩ | ⟨r, hr, -, hidle, -⟩
  · exact .inr ⟨hsame, hgoes i todo hpos⟩
  · refine .inl ⟨hidle, (tick_mayAnswer hs hpos h).resolve_left fun hsame => ?_⟩
    rw [hsame] at hr
    exact absurd hr (by simp)

/-- R57, R109: a run of the request `i` answers nothing, or once and what the request may be answered. -/
theorem State.Reaches.mayProgress {i : Instr} {todo : List Micro} (h : s.Reaches t) (hs : s.Inv)
    (hpos : s.pos = .busy i todo) : MayProgress s.cfg i s t := by
  refine (h.keeps (P := fun u => u.Inv ∧ u.cfg = s.cfg ∧ MayProgress s.cfg i s u) (fun a b ha hab => ?_)
    ⟨hs, rfl, .inr ⟨rfl, todo, hpos⟩⟩).2.2
  obtain ⟨hinv, hcfg, ⟨hidle, -⟩ | ⟨hsame, todo', hbusy⟩⟩ := ha
  · rw [State.tick_idle hidle] at hab; cases hab
  · have htick : MayProgress a.cfg i a b := .tick hinv hbusy hab
    refine ⟨State.tick_inv hinv hab, (State.tick_facts hab).cfg.trans hcfg, ?_⟩
    unfold MayProgress at htick ⊢
    rwa [hcfg, hsame] at htick

/-- R54, R109, R113: what a step from `s` may answer: what its current request may be answered, or IllegalRequest to a word that is
no request. -/
def MayStepAnswer (s : State) (code : ResponseCode) : Prop :=
  (∃ i, s.current = some i ∧ MayAnswer s.cfg i code) ∨
  (code = .illegalRequest ∧ s.pos = .idle ∧ ∃ w rest e, s.requests = w :: rest ∧ decode w = .error e)

theorem step_mayAnswer (hs : s.Inv) (h : step s = .next t) :
    t.responses = s.responses ∨ ∃ r, t.responses = s.responses ++ [r] ∧ MayStepAnswer s r.code := by
  refine step_run hs h
    (fun t => t.responses = s.responses ∨ ∃ r, t.responses = s.responses ++ [r] ∧ MayStepAnswer s r.code) (.inl rfl) ?_ ?_
  · rintro w rest e hidle hrequests hdecode rfl
    exact .inr ⟨⟨.illegalRequest, .none⟩, rfl, .inr ⟨rfl, hidle, w, rest, e, hrequests, hdecode⟩⟩
  · intro a i todo hcurrent ha hpos _ hcfg hresponses _ hreach
    have hprogress := hreach.mayProgress ha hpos
    rw [MayProgress, hcfg, hresponses] at hprogress
    rcases hprogress with ⟨-, r, hr, hmay⟩ | ⟨hsame, -⟩
    · exact .inr ⟨r, hr, .inl ⟨i, hcurrent, hmay⟩⟩
    · exact .inl hsame

/-- Settles O24, code by code. -/
theorem errorsOnlyFromTheirCause : Obligations.ErrorsOnlyFromTheirCause := by
  unfold Obligations.ErrorsOnlyFromTheirCause
  intro s t hs h
  refine (step_mayAnswer hs h).imp_right fun ⟨⟨code, payload⟩, hr, hmay⟩ => ⟨⟨code, payload⟩, hr, ?_⟩
  rcases hmay with ⟨i, hcurrent, hmay⟩ | ⟨rfl, hillegal⟩
  · cases code with
    | ok => exact ⟨i, hcurrent⟩
    | illegalRequest => exact hmay.elim
    | busTimeout | unexpectedAcknowledgment | parityError | framingError => exact ⟨hmay.1, i, hcurrent, hmay.2⟩
  · exact hillegal

end Sys2Proof.Machine
end

section
/-! PROOFS of the statements of spec/40_line_control.md: where a line may be driven high (R65, R68, R129), the line operations and
SAMPLE (R61 to R67), a sent bit (R68, R78), and the expiry of every wait of a write (R73, R81, R111). -/

namespace Sys2Proof.Machine

variable {c : Config} {req i : Instr} {s t u : State} {todo : List Micro} {env w rest : List EnvMove} {dc dd d : Drive}
  {f : Option Frame} {rep : Option Report} {σ : SessionState} {bus : List Event} {l : Line} {v : Level} {m : EnvMove}

/-! ### Where a line may be driven high -/

/-- R68, R78, R81: the requests that present bits are SEND_BIT, WRITE_BYTE and those with a command exchange. -/
theorem Instr.sends_iff : i.sends = true ↔ i.commands = true ∨ (∃ b, i = .writeByte b) ∨ ∃ b, i = .sendBit b := by
  cases i <;> simp [Instr.sends, Instr.commands]

/-- R65, R68, R129: the request `i` may drive the line high, in a handle configured as `c`. -/
def MayDriveHigh (c : Config) (i : Instr) (l : Line) : Prop :=
  i = .driveHigh l ∨ (l = .dat ∧ c.dataOne = .driveHigh ∧ i.sends = true)

theorem mayDriveHigh_of_fits {mode : Mode} (h : (Micro.high l).fits c mode i = true) : MayDriveHigh c i l := by
  simpa [Micro.fits, MayDriveHigh, and_assoc] using h

/-- R62: from `s` to `t` the trace only grows, and its new HIGH events are on lines that the request `i` may drive high. -/
def HighsAllowed (c : Config) (i : Instr) (s t : State) : Prop :=
  ∃ es, t.trace = s.trace ++ es ∧ ∀ l, Event.high l ∈ es → MayDriveHigh c i l

/-- No event is added. -/
theorem HighsAllowed.of_eq (h : t.trace = s.trace) : HighsAllowed c i s t := ⟨[], by rw [h, List.append_nil], nofun⟩

theorem HighsAllowed.trans (h : HighsAllowed c i s t) (g : HighsAllowed c i t u) : HighsAllowed c i s u := by
  obtain ⟨es, htrace, hes⟩ := h
  obtain ⟨fs, gtrace, hfs⟩ := g
  exact ⟨es ++ fs, by rw [gtrace, htrace, List.append_assoc], fun l hl => (List.mem_append.mp hl).elim (hes l) (hfs l)⟩

/-- R65: a HIGH event is of the step that drives the line high, which fits only the requests that may. -/
theorem HighsAllowed.tick (hs : s.Inv) (hpos : s.pos = .busy i todo) (h : s.tick = .moved t) : HighsAllowed s.cfg i s t := by
  cases todo with
  | nil => rw [State.tick_done hpos] at h; cases h; exact .of_eq rfl
  | cons x todo =>
    rw [State.tick_busy hpos] at h
    obtain ⟨es, htrace, hhigh⟩ := Micro.tick_high_events h
    refine ⟨es, htrace, fun l hl => ?_⟩
    obtain rfl := hhigh l hl
    exact mayDriveHigh_of_fits (hs.fits i _ hpos _ List.mem_cons_self)

/-- R65, R68: a run of the request `i` drives high only lines that it may. -/
theorem State.Reaches.highsAllowed (h : s.Reaches t) (hs : s.Inv) (hpos : s.pos = .busy i todo) :
    HighsAllowed s.cfg i s t := by
  refine (h.keeps (P := fun a => a.Inv ∧ a.cfg = s.cfg ∧ Working i a ∧ HighsAllowed s.cfg i s a) (fun a b ha hab => ?_)
    ⟨hs, rfl, .inr ⟨todo, hpos⟩, .of_eq rfl⟩).2.2.2
  obtain ⟨hinv, hcfg, hworking, hhighs⟩ := ha
  refine ⟨State.tick_inv hinv hab, (State.tick_facts hab).cfg.trans hcfg, working_tick hab hworking, ?_⟩
  rcases hworking with hidle | ⟨todo', hbusy⟩
  · rw [State.tick_idle hidle] at hab; cases hab
  · exact hhighs.trans (hcfg ▸ .tick hinv hbusy hab)

/-- R65, R68, R129: a step drives a line high only as its current request may. -/
theorem step_highsAllowed (hs : s.Inv) (h : step s = .next t) :
    t.trace = s.trace ∨ ∃ i, s.current = some i ∧ HighsAllowed s.cfg i s t := by
  refine step_run hs h (fun t => t.trace = s.trace ∨ ∃ i, s.current = some i ∧ HighsAllowed s.cfg i s t) (.inl rfl) ?_ ?_
  · rintro _ _ _ - - - rfl
    exact .inl rfl
  · intro a i todo hcurrent ha hpos _ hcfg _ htrace hreach
    obtain ⟨es, hes, hhigh⟩ := hreach.highsAllowed ha hpos
    exact .inr ⟨i, hcurrent, es, htrace ▸ hes, hcfg ▸ hhigh⟩

/-- Settles O25. -/
theorem highOnlyWhereAllowed : Obligations.HighOnlyWhereAllowed := by
  unfold Obligations.HighOnlyWhereAllowed
  intro s t hs h
  rcases step_highsAllowed hs h with hsame | ⟨i, hcurrent, es, htrace, hhigh⟩
  · exact ⟨[], by rw [hsame, List.append_nil], nofun⟩
  · refine ⟨es, htrace, fun l hl => ?_⟩
    rcases hhigh l hl with rfl | ⟨hdat, hone, hsends⟩
    · exact .inl hcurrent
    · exact .inr ⟨hdat, hone, i, hcurrent, Instr.sends_iff.mp hsends⟩

/-! ### The line operations -/

/-- R63: a line the host drives high reads high, but for contention, where it reads the draw. -/
@[simp] theorem resolveLevel_drivenHigh (dev : DevDrive) (draw : Level) :
    resolveLevel .drivenHigh dev draw = if dev = .low then draw else .high := by
  cases dev <;> rfl

/-- R57, R64 to R66: the state in which a line operation has responded. -/
def State.lineDone (s : State) (l : Line) (d : Drive) (e : Event) : State :=
  { s.onLine l d e with responses := s.responses ++ [⟨.ok, .none⟩] }

/-- R21, R63: what a sample of the line reads after a line operation. -/
theorem State.lineDone_levelAt (s : State) (l : Line) (d : Drive) (e : Event) (m : EnvMove) :
    (s.lineDone l d e).levelAt l m = resolveLevel d (devDrive m l) m.draw := by
  cases l <;> rfl

/-- R64 to R66: a request whose pseudocode is one line-control step. -/
theorem exec_of_lineStep {x : Micro} {e : Event} (hs : s.Inv) (hidle : s.pos = .idle) (hbody : requestBody i s = [x])
    (hx : ∀ a : State, x.tick a = .moved (a.onLine l d e)) : exec i s = .next (s.lineDone l d e) := by
  obtain ⟨hframe, hreport⟩ := hs.idle hidle
  have hstep : State.tick { s with pos := .busy i (requestBody i s) } = .moved ((s.onLine l d e).stepped i []) := by
    rw [hbody]; exact hx _
  have hend : ((s.onLine l d e).stepped i []).tick = .moved (((s.onLine l d e).stepped i []).finish .ok .none) :=
    State.tick_done rfl
  rw [exec_of_reaches hidle ((State.Moves.reaches hstep).trans (State.Moves.reaches hend)) rfl,
    finish_of_idle (s := s.onLine l d e) hidle hframe hreport]
  rfl

/-- Settles O28: each operation is its one line-control step and the response. -/
theorem lineOperations : Obligations.LineOperations := by
  unfold Obligations.LineOperations
  intro s l hs hidle driven
  have hdriven : ∀ d e, driven d e = s.lineDone l d e := fun d e => by
    cases l <;> cases hlags : s.lags <;>
      simp [driven, State.lineDone, State.onLine, State.letPass, State.lag, State.setDrive, State.emit, hlags]
  simp only [hdriven, State.lineDone_levelAt, resolveLevel_drivenLow, resolveLevel_drivenHigh, resolveLevel_released,
    implies_true, and_true]
  exact ⟨exec_of_lineStep hs hidle rfl fun a => Micro.tick_low a l, exec_of_lineStep hs hidle rfl fun a => Micro.tick_high a l,
    exec_of_lineStep hs hidle rfl fun a => Micro.tick_rel a l⟩

/-! ### SAMPLE -/

/-- R67: SAMPLE's one sample, whose level is the response. -/
theorem leads_samp (h : At c req s ⟨.samp l :: todo, m :: env, dc, dd, f, rep, σ⟩) :
    Leads c req s [.smp l (s.levelAt l m)] ⟨.respond (.level (s.levelAt l m)) :: todo, env, dc, dd, f, rep, σ⟩ :=
  .tick (tick_onSample h rfl rfl (Micro.tick_samp _ l))
    ⟨rfl, rfl, rfl, rfl, rfl, rfl, ⟨[.smp l (s.levelAt l m)], rfl, rfl⟩, by simp [State.stepped]⟩
    ⟨h.cfg, rfl, rfl, h.clk, h.dat, h.frame, h.report, h.session⟩

/-- R67: SAMPLE answers with the level the line has at the next move. -/
theorem exec_sample (h : s.Ready [m] rest) :
    ∃ t, exec (.sample l) s = .next t ∧ Ended s t rest ⟨.ok, .level (s.levelAt l m)⟩ [.smp l (s.levelAt l m)] ∧
      t.driveClk = s.driveClk ∧ t.driveDat = s.driveDat ∧ t.session = s.session :=
  exec_leads (i := .sample l) (r := ⟨.ok, .level (s.levelAt l m)⟩) h (leads_samp (todo := []))
    fun _ ht => end_respond ht rfl

/-- Settles O29: the level is that of R63, row by row of its table. -/
theorem sampleReturnsLevel : Obligations.SampleReturnsLevel := by
  unfold Obligations.SampleReturnsLevel
  intro s l m rest hready
  obtain ⟨t, hexec, hended, hclk, hdat, hsession⟩ := exec_sample (l := l) hready
  refine ⟨t, s.levelAt l m, hexec, hended, hclk, hdat, hsession, ?_, ?_, ?_, ?_, ?_⟩ <;> unfold State.levelAt
  · intro hhost; rw [hhost]; rfl
  · intro hhost hdev; rw [hhost, hdev]; rfl
  · intro hhost hdev; rw [hhost, hdev]; rfl
  · intro hhost hdev; rw [hhost, hdev]; rfl
  · intro hhost hdev; rw [hhost, hdev]; rfl

/-! ### The pin calls -/

/-- Settles O31: `State.pinCalls` is the table of R61, read at either line. -/
theorem pinCallsOfEvents : Obligations.PinCallsOfEvents :=
  fun _ _ => ⟨rfl, rfl, rfl, rfl, rfl, rfl, rfl, rfl⟩

/-! ### SEND_BIT -/

/-- R68, R78: a sent bit up to its clock pulse. -/
theorem leads_sendBitPresented {b : Bool} (h : At c req s ⟨.sendBit b :: todo, env, dc, dd, f, rep, σ⟩) :
    Leads c req s [presentEvent c b]
      ⟨.wait .clk .low :: .wait .clk .high :: todo, env, dc, presentDrive c b, f, rep, σ⟩ :=
  (leads_push h (Micro.tick_sendBit _ b)).silentBind fun _ ht => leads_present ht

/-- Settles O34: the bit is presented, and then the pulse is met, or either of its waits ends the request. -/
theorem sendBit : Obligations.SendBit := by
  unfold Obligations.SendBit
  intro s b w rest hready presented
  have hpresented : presented = presentDrive s.cfg b := by
    cases b <;> cases hone : s.cfg.dataOne <;> simp [presented, presentDrive, hone]
  rw [hpresented]
  refine ⟨fun hw => ?_, fun hb htw => ⟨fun hw => ?_, fun hw => ?_⟩⟩
  · exact exec_leads (i := .sendBit b) (r := ⟨.ok, .none⟩) hready (fun h => leads_sendBit (todo := []) hw h rfl)
      fun _ ht => end_ok ht rfl
  · exact exec_finishes (i := .sendBit b) hready fun h =>
      (leads_sendBitPresented (todo := []) h).ends fun _ ht => wait_expires hb htw hw ht rfl
  · exact exec_finishes (i := .sendBit b) hready fun h =>
      (leads_sendBitPresented (todo := []) h).ends fun _ ht => pulse_expires hb htw hw ht rfl

/-! ### Waits that expire on released lines -/

/-- R71: a clock read drives no line. -/
theorem lastDrive_busEvents (l : Line) (es : List Event) : lastDrive l (busEvents es) = lastDrive l es := by
  induction es with
  | nil => rfl
  | cons e es ih =>
    cases e with
    | now n =>
      calc lastDrive l (busEvents (.now n :: es))
        _ = lastDrive l es := ih
        _ = lastDrive l ([.now n] ++ es) := by rw [lastDrive_append]; exact (Option.or_none).symm
    | low k | high k | rel k | smp k x | dly n =>
      change lastDrive l (_ :: busEvents es) = _
      simp only [lastDrive, ih]

/-- R21, R62: a request that ended left each line driven as the last of its events on that line says. -/
theorem Ended.drive {r : Response} (h : Ended s t rest r bus) (hexec : exec i s = .next t) (l : Line) :
    t.drive l = (lastDrive l bus).getD (s.drive l) := by
  obtain ⟨es, htrace, rfl⟩ := h.bus
  obtain ⟨-, hreach, -⟩ := exec_next hexec
  obtain ⟨es', htrace', hdrive⟩ : DrivesFollow s t :=
    hreach.keeps (P := DrivesFollow s) (fun _ _ ha hab => ha.trans (.tick hab)) (.of_eq rfl fun _ => rfl)
  rw [htrace] at htrace'
  rw [hdrive, lastDrive_busEvents, List.append_cancel_left htrace']

/-- R73, R110, R111: a request that leads to a wait, its line and the clock released, which expires at its first deadline check:
BusTimeout, with the data line driven as the last event before the wait left it. -/
theorem exec_expires_of_leadsToWait {before : List Need} {bus' : List Event} (h : s.Ready w rest)
    (hb : s.cfg.waitPolicy = .bounded) (htw : s.cfg.noWrap w)
    (hw : answers (before ++ timeoutNeeds s.cfg l v) w = true)
    (hl : ∀ {w₁ env}, answers before w₁ = true →
      At s.cfg i { s with pos := .busy i (requestBody i s) }
        ⟨requestBody i s, w₁ ++ env, s.driveClk, s.driveDat, none, none, s.session⟩ →
      LeadsToWait s.cfg i { s with pos := .busy i (requestBody i s) } bus l v env s.session)
    (hbus : bus ++ [.smp l (otherLevel v)] = bus') (hdrive : lastDrive .dat bus = some d) :
    ∃ t, exec i s = .next t ∧ Ended s t rest ⟨.busTimeout, .none⟩ bus' ∧ t.driveClk = .released ∧ t.driveDat = d ∧
      t.session = s.session := by
  obtain ⟨w₁, w₂, rfl, hbefore, hexpires⟩ := answers_append hw
  obtain ⟨hframe, hreport⟩ := h.inv.idle h.idle
  obtain ⟨todo, dd, f, rep, hreleased, hleads⟩ :=
    hl hbefore (at_start hframe hreport (h.env.trans (List.append_assoc w₁ w₂ rest)))
  obtain ⟨t, hexec, hended, hclk, -, hsession⟩ := exec_finishes h fun _ =>
    hleads.ends fun _ ht => wait_expires hb (Config.noWrap_append htw).2 hexpires ht hreleased
  refine ⟨t, hexec, hbus ▸ hended, hclk, ?_, hsession⟩
  calc t.driveDat
    _ = (lastDrive .dat (bus ++ [Event.smp l (otherLevel v)])).getD s.driveDat := hended.drive hexec .dat
    _ = d := by rw [lastDrive_append, hdrive]; rfl

/-! ### WRITE_BYTE -/

/-- R68: the event that presents a bit drives the data line. -/
theorem lastDrive_presentEvent (c : Config) (b : Bool) : lastDrive .dat [presentEvent c b] = some (presentDrive c b) := by
  cases b <;> cases hone : c.dataOne <;> simp [presentEvent, presentDrive, hone, lastDrive]

/-- R68, R81: the event of every slot drives the data line. -/
theorem lastDrive_slotEvent (c : Config) (b : Byte) (k : Nat) : ∃ d, lastDrive .dat [slotEvent c b k] = some d := by
  unfold slotEvent
  split
  · exact ⟨_, lastDrive_presentEvent c _⟩
  · split
    · exact ⟨_, lastDrive_presentEvent c _⟩
    · exact ⟨_, rfl⟩

/-- R21: with no later line-control event on the line, it is driven as the event `e` left it. -/
theorem lastDrive_of_event {e : Event} (before : List Event) {after : List Event} (he : lastDrive l [e] = some d)
    (hafter : lastDrive l after = none) : lastDrive l (before ++ ([e] ++ after)) = some d := by
  rw [lastDrive_append, lastDrive_append, hafter, he]
  rfl

/-- R47, R81 steps 6 to 8: the ten slots of a write. -/
theorem slotsBefore_ten (c : Config) (b : Byte) : slotsBefore c b 10 = writeSlotEvents c b := by
  simp [slotsBefore, List.range_succ, slotEvent, writeSlotEvents, sendBitEvents, bitIndices, byteBit]

/-- Settles O39: the run leads to each of the waits, and the request ends where it expires. -/
theorem writeByteTimesOut : Obligations.WriteByteTimesOut := by
  unfold Obligations.WriteByteTimesOut
  intro s b w rest hready hb htw
  have expires {before bus bus' l v d} := exec_expires_of_leadsToWait (i := .writeByte b) (before := before) (bus := bus)
    (bus' := bus') (l := l) (v := v) (d := d) hready hb htw
  refine ⟨fun hw => expires hw writeByte_leadsToWait_start rfl rfl, fun k hk => ?_, fun hw => ?_⟩
  · obtain ⟨d, hd⟩ := lastDrive_slotEvent s.cfg b k
    simp only [hd, Option.some.injEq]
    exact ⟨fun hw => expires hw (writeByte_leadsToWait_slotLow hk) (List.append_assoc ..) (lastDrive_of_event _ hd rfl),
      fun hw => expires hw (writeByte_leadsToWait_slotHigh hk) (List.append_assoc ..) (lastDrive_of_event _ hd rfl)⟩
  · have hslots : writeEventsBefore s.cfg b 10 = writeStartEvents s.cfg ++ [.smp .clk .low] ++ writeSlotEvents s.cfg b := by
      rw [writeEventsBefore, slotsBefore_ten]
    refine expires hw writeByte_leadsToWait_ack (congrArg (· ++ [.smp .dat .high]) hslots) ?_
    rw [hslots, writeSlotEvents, ← List.append_assoc]
    exact lastDrive_of_event (after := [.smp .clk .low, .smp .clk .high]) _ rfl rfl

end Sys2Proof.Machine
end

section
/-! PROOFS of the statements of spec/41_bit_transfer.md about time: the clock and its readings (R71, D7), and how long a request may
take (R72, R128). -/

namespace Sys2Proof.Machine

variable {s t u : State}

/-! ### The elapsed time -/

/-- The difference of two residues is the residue of the difference, whether or not the residue has wrapped in between. -/
theorem add_sub_mod_mod_eq_sub_mod {a b m : Nat} (h : a ≤ b) (hm : 0 < m) : (b % m + (m - a % m % m)) % m = (b - a) % m := by
  have hlt : a % m < m := Nat.mod_lt a hm
  have hdiv : a % m + m * (a / m) = a := Nat.mod_add_div a m
  have hshift : b + (m - a % m) = b - a + m * (a / m + 1) := by
    rw [Nat.mul_add, Nat.mul_one]; omega
  rw [Nat.mod_mod, Nat.mod_add_mod, hshift, Nat.add_mul_mod_self_left]

/-- Settles O58, one clause for each kind of clock. -/
theorem elapsedTime : Obligations.ElapsedTime := by
  unfold Obligations.ElapsedTime
  intro c t₀ t₁ h
  refine ⟨fun hwidth => ?_, fun w hwidth => ?_⟩ <;> simp only [clockReading, elapsed, hwidth, true_and]
  exact add_sub_mod_mod_eq_sub_mod h (Nat.two_pow_pos w)

/-! ### The clock and its readings -/

/-- R71: from `s` to `t` the trace grows by `es`, time passes by at least the delays of `es`, and the clock readings of `es` are
those of the successive times `times`. -/
structure TimePasses (s t : State) (es : List Event) (times : List Time) : Prop where
  cfg : t.cfg = s.cfg
  trace : t.trace = s.trace ++ es
  delays : s.now + delayed es ≤ t.now
  sorted : times.Pairwise (· ≤ ·)
  between : ∀ n ∈ times, s.now ≤ n ∧ n ≤ t.now
  readings : readings es = times.map (clockReading s.cfg)

/-- No time passes and no event is added. -/
theorem TimePasses.of_eq (hcfg : t.cfg = s.cfg) (htrace : t.trace = s.trace) (hnow : t.now = s.now) : TimePasses s t [] [] :=
  ⟨hcfg, by rw [htrace, List.append_nil], hnow.ge, .nil, nofun, rfl⟩

theorem TimePasses.now_le {es : List Event} {times : List Time} (h : TimePasses s t es times) : s.now ≤ t.now :=
  (Nat.le_add_right _ _).trans h.delays

theorem TimePasses.trans {es es' : List Event} {times times' : List Time} (h : TimePasses s t es times)
    (g : TimePasses t u es' times') : TimePasses s u (es ++ es') (times ++ times') where
  cfg := g.cfg.trans h.cfg
  trace := by rw [g.trace, h.trace, List.append_assoc]
  delays := calc s.now + delayed (es ++ es')
    _ = s.now + delayed es + delayed es' := by rw [delayed_append, Nat.add_assoc]
    _ ≤ t.now + delayed es' := Nat.add_le_add_right h.delays _
    _ ≤ u.now := g.delays
  sorted := List.pairwise_append.mpr ⟨h.sorted, g.sorted, fun a ha b hb => (h.between a ha).2.trans (g.between b hb).1⟩
  between n hn := by
    rcases List.mem_append.mp hn with hn | hn
    · exact ⟨(h.between n hn).1, (h.between n hn).2.trans g.now_le⟩
    · exact ⟨h.now_le.trans (g.between n hn).1, (g.between n hn).2⟩
  readings := by rw [readings_append, h.readings, g.readings, h.cfg, List.map_append]

/-- R71: an atomic step reads the clock at most once, at the time after it. -/
theorem TimePasses.tick (h : s.tick = .moved t) : ∃ es times, TimePasses s t es times := by
  have facts := State.tick_facts h
  obtain ⟨es, htrace, -, hdelays, hnone | hone⟩ := facts.trace
  · exact ⟨es, [], facts.cfg, htrace, hdelays, .nil, nofun, hnone⟩
  · have hle : s.now ≤ t.now := (Nat.le_add_right _ _).trans hdelays
    exact ⟨es, [t.now], facts.cfg, htrace, hdelays, List.pairwise_singleton _ _,
      fun n hn => by rw [List.mem_singleton.mp hn]; exact ⟨hle, le_rfl⟩, hone⟩

theorem TimePasses.supplyMove (s : State) : TimePasses s s.supplyMove [] [] := by
  unfold State.supplyMove
  split <;> exact .of_eq rfl rfl rfl

/-- R71: a step lets time pass. -/
theorem step_timePasses (h : step s = .next t) : ∃ es times, TimePasses s t es times := by
  refine step_keeps (P := fun a => ∃ es times, TimePasses s a es times) ?_ ?_ ?_ ?_ ⟨[], [], .of_eq rfl rfl rfl⟩ h
  · rintro a b ⟨es, times, ha⟩ hab
    obtain ⟨es', times', hb⟩ := TimePasses.tick hab
    exact ⟨_, _, ha.trans hb⟩
  · rintro a _ rest i ⟨es, times, ha⟩ - - -
    exact ⟨_, _, ha.trans (.of_eq rfl rfl rfl)⟩
  · rintro a _ rest ⟨es, times, ha⟩ - -
    exact ⟨_, _, ha.trans (.of_eq rfl rfl rfl)⟩
  · rintro a ⟨es, times, ha⟩
    exact ⟨_, _, ha.trans (.supplyMove a)⟩

/-- Settles O21: each atomic step lets time pass, and nothing else a step does touches the time or the trace. -/
theorem timeIsMonotonic : Obligations.TimeIsMonotonic := by
  unfold Obligations.TimeIsMonotonic
  intro s t h
  obtain ⟨es, times, hpasses⟩ := step_timePasses h
  refine ⟨es, times, hpasses.trace, hpasses.delays, hpasses.sorted, hpasses.between, hpasses.readings.trans ?_⟩
  unfold clockReading
  cases s.cfg.timeWidth with
  | none => exact List.map_id _
  | some w => rfl

/-! ### How many moves a request may use -/

theorem waitMoves_mono {m n : Nat} (h : m ≤ n) : waitMoves m ≤ waitMoves n :=
  Nat.add_le_add_right (Nat.mul_le_mul_left 2 h) 3

/-- R72, R73: a request under Bounded may use a bounded number of moves, where its own timeout is no longer than `n`. -/
theorem requestBody_moves (i : Instr) (s : State) (n now : Nat) (hi : ∀ v t, i = .waitClockBounded v t → t ≤ n) :
    todoMoves n now (requestBody i s) ≤ 200 * waitMoves n := by
  have hwait : 3 ≤ waitMoves n := Nat.le_add_left 3 (2 * n)
  cases i with
  | waitClockBounded v t =>
    have hown := waitMoves_mono (hi v t rfl)
    simp only [requestBody, todoMoves_cons, todoMoves_nil, Micro.moves]; omega
  | _ =>
    simp only [requestBody, initializeBody, pollReportBody, setPolledModeBody, setContinuousModeBody, configBody, List.map_cons,
      List.map_nil, List.cons_append, List.nil_append, todoMoves_cons, todoMoves_nil, Micro.moves]
    omega

/-- Settles O26: a run that has not responded has used up its moves, and it uses no more than its request may. -/
theorem boundedRequestsEnd : Obligations.BoundedRequestsEnd := by
  unfold Obligations.BoundedRequestsEnd
  intro timeout
  refine ⟨200 * waitMoves timeout + 1, fun i s hs hidle hbounded htimeout hwidth hi hmoves henough => ?_⟩
  obtain ⟨t, hexec, hreach, hhalted, -⟩ := hs.exec_next hidle i
  refine ⟨t, hexec, hhalted.idle_or_env.resolve_right fun henv => ?_⟩
  have hstart : State.Inv { s with pos := .busy i (requestBody i s) } := start_inv (rest := s.requests) hs hidle
  have hused : t.movesLeft timeout + s.env.length ≤ todoMoves timeout s.now (requestBody i s) + t.env.length :=
    hreach.moves hstart hbounded htimeout hwidth hmoves
  have hmay := requestBody_moves i s timeout s.now hi
  rw [henv, List.length_nil] at hused
  omega

end Sys2Proof.Machine
end

section
/-! PROOFS of the statements of spec/41_bit_transfer.md about waits that end: the two wait requests (R72 to R75), RECV_BIT (R79), and
the expiry of every wait of a read (R73, R83, R111). -/

namespace Sys2Proof.Machine

variable {c : Config} {req i : Instr} {s t u : State} {todo : List Micro} {env w rest : List EnvMove} {dc dd : Drive}
  {f : Option Frame} {rep : Option Report} {σ : SessionState} {bus es es' : List Event} {l : Line} {v : Level} {m : Micro}
  {n start : Time} {use : WaitUse} {r : Bool}

/-! ### Runs that end -/

/-- A run that ends goes on from a busy engine with its next atomic step. -/
theorem State.Reaches.tick_of_busy (h : s.Reaches t) (hidle : t.pos = .idle) (hbusy : s.pos ≠ .idle) :
    ∃ u, s.tick = .moved u ∧ u.Reaches t := by
  rcases Relation.ReflTransGen.cases_head h with rfl | ⟨u, hmove, hreach⟩
  · exact absurd hidle hbusy
  · exact ⟨u, hmove, hreach⟩

/-- A run that ends goes on with its next pseudocode step. -/
theorem State.Reaches.tick_of_micro (h : s.Reaches t) (hidle : t.pos = .idle) (hpos : s.pos = .busy req (m :: todo)) :
    ∃ u, m.tick (s.stepped req todo) = .moved u ∧ u.Reaches t := by
  obtain ⟨u, hu, hreach⟩ := h.tick_of_busy hidle (by rw [hpos]; nofun)
  exact ⟨u, (State.tick_busy hpos).symm.trans hu, hreach⟩

/-- From `s` to `t` the engine only observes: it adds the events `es` and writes no drive, no session field and no response. -/
structure Observes (s t : State) (es : List Event) : Prop where
  cfg : t.cfg = s.cfg
  trace : t.trace = s.trace ++ es
  responses : t.responses = s.responses
  clk : t.driveClk = s.driveClk
  dat : t.driveDat = s.driveDat
  session : t.session = s.session

theorem Observes.refl (s : State) : Observes s s [] := ⟨rfl, (List.append_nil _).symm, rfl, rfl, rfl, rfl⟩

/-- Only the position changes. -/
theorem Observes.stepped (s : State) (req : Instr) (todo : List Micro) : Observes s (s.stepped req todo) [] :=
  ⟨rfl, (List.append_nil _).symm, rfl, rfl, rfl, rfl⟩

theorem Observes.trans (h : Observes s t es) (g : Observes t u es') : Observes s u (es ++ es') :=
  ⟨g.cfg.trans h.cfg, by rw [g.trace, h.trace, List.append_assoc], g.responses.trans h.responses, g.clk.trans h.clk,
    g.dat.trans h.dat, g.session.trans h.session⟩

theorem Observes.push (h : Observes s u es) (body : List Micro) : Observes s (u.push body) es :=
  ⟨h.cfg, h.trace, h.responses, h.clk, h.dat, h.session⟩

/-- From `s` the engine only observes, adding the events `es`, and responds in `t` with `q`. -/
def Responds (s t : State) (es : List Event) (q : Response) : Prop :=
  ∃ u, Observes s u es ∧ t = u.finish q.code q.payload

theorem Observes.responds {q : Response} (h : Observes s u es) (g : Responds u t es' q) : Responds s t (es ++ es') q := by
  obtain ⟨x, hx, rfl⟩ := g
  exact ⟨x, h.trans hx, rfl⟩

/-- With no step left the run ends with OK. -/
theorem responds_ok (hpos : s.pos = .busy req []) (hreach : s.Reaches t) (hidle : t.pos = .idle) :
    Responds s t [] ⟨.ok, .none⟩ := by
  obtain ⟨u, hu, hend⟩ := hreach.tick_of_busy hidle (by rw [hpos]; nofun)
  rw [State.tick_done hpos] at hu; cases hu
  exact ⟨s, .refl s, hend.eq_of_idle rfl⟩

/-- A run that ends and whose next step only puts steps in front. -/
theorem State.Reaches.pushed {body : List Micro} (h : s.Reaches t) (hidle : t.pos = .idle)
    (hpos : s.pos = .busy req (m :: todo)) (hm : ∀ a : State, a.cfg = s.cfg → m.tick a = .moved (a.push body)) :
    ∃ u, Observes s u [] ∧ u.pos = .busy req (body ++ todo) ∧ u.Reaches t := by
  obtain ⟨u, hu, hrest⟩ := h.tick_of_micro hidle hpos
  rw [hm (s.stepped req todo) rfl] at hu; cases hu
  exact ⟨(s.stepped req todo).push body, (Observes.stepped s req todo).push body, rfl, hrest⟩

/-- R67: a run that ends and whose next step samples a line. -/
theorem State.Reaches.sampled {k : Level → State → State} (h : s.Reaches t) (hidle : t.pos = .idle)
    (hpos : s.pos = .busy req (m :: todo)) (hm : ∀ a : State, m.tick a = a.onSample l k) :
    ∃ x u, Observes s u [.smp l x] ∧ u.pos = .busy req todo ∧ u.env.length < s.env.length ∧ (k x u).Reaches t := by
  obtain ⟨u, hu, hrest⟩ := h.tick_of_micro hidle hpos
  rw [hm] at hu
  obtain ⟨move, moves, henv, rfl⟩ := State.onSample_cases hu
  have hfewer : moves.length < s.env.length := by
    rw [show s.env = move :: moves from henv]; exact Nat.lt_succ_self _
  refine ⟨_, _, ?_, ?_, ?_, hrest⟩
  · exact ⟨rfl, rfl, rfl, rfl, rfl, rfl⟩
  · rfl
  · exact hfewer

/-- R71: a run that ends and whose next step reads the clock. -/
theorem State.Reaches.clocked {k : Time → State → State} (h : s.Reaches t) (hidle : t.pos = .idle)
    (hpos : s.pos = .busy req (m :: todo)) (hm : ∀ a : State, m.tick a = a.onNow k) :
    ∃ x u, Observes s u [.now x] ∧ u.pos = .busy req todo ∧ u.env.length < s.env.length ∧ (k x u).Reaches t := by
  obtain ⟨u, hu, hrest⟩ := h.tick_of_micro hidle hpos
  rw [hm] at hu
  obtain ⟨move, moves, henv, rfl⟩ := State.onNow_cases hu
  have hfewer : moves.length < s.env.length := by
    rw [show s.env = move :: moves from henv]; exact Nat.lt_succ_self _
  refine ⟨_, _, ?_, ?_, ?_, hrest⟩
  · exact ⟨rfl, rfl, rfl, rfl, rfl, rfl⟩
  · rfl
  · exact hfewer

/-- The position after steps are put in front. -/
theorem State.push_pos_of_busy (hpos : s.pos = .busy req todo) (body : List Micro) :
    (s.push body).pos = .busy req (body ++ todo) := by
  rw [State.push_pos, hpos, Pos.push_busy]

/-- R73: the unbounded loop of a run that ends. -/
theorem pollLoop_of_ends {s : State} (hpos : s.pos = .busy req [.poll l v]) (hreach : s.Reaches t) (hidle : t.pos = .idle) :
    ∃ es, PollLoop l v es ∧ Responds s t es ⟨.ok, .none⟩ := by
  obtain ⟨x, u, hsample, hu, hfewer, hrest⟩ := hreach.sampled hidle hpos fun a => Micro.tick_poll a l v
  by_cases hmet : x = v
  · rw [if_pos hmet] at hrest
    subst hmet
    exact ⟨_, .met, hsample.responds (responds_ok hu hrest hidle)⟩
  · rw [if_neg hmet] at hrest
    obtain ⟨es, hloop, hresponds⟩ := pollLoop_of_ends (State.push_pos_of_busy hu _) hrest hidle
    exact ⟨_, .again hmet hloop, (hsample.push _).responds hresponds⟩
termination_by s.env.length

/-- R72, R110: what a bounded wait that was its request's last step has it respond. -/
def waitResponse : WaitUse → Bool → Response
  | .transfer, r => ⟨if r then .ok else .busTimeout, .none⟩
  | .diagnostic, r => ⟨.ok, .reached r⟩

/-- R72, R110: the verdict of a bounded wait, its request's last step. -/
theorem responds_verdict (hpos : s.pos = .busy req []) (hreach : (waitDone use r s).Reaches t) (hidle : t.pos = .idle) :
    Responds s t [] (waitResponse use r) := by
  cases use with
  | transfer =>
    cases r with
    | true => exact responds_ok hpos hreach hidle
    | false => exact ⟨s, .refl s, hreach.eq_of_idle rfl⟩
  | diagnostic =>
    have hrespond : (waitDone .diagnostic r s).pos = .busy req [.respond (.reached r)] := by simp [waitDone, hpos]
    obtain ⟨u, hu, hend⟩ := hreach.tick_of_micro hidle hrespond
    cases hu
    exact ⟨s, .refl s, hend.eq_of_idle rfl⟩

/-- R72: the bounded loop of a run that ends. -/
theorem bwaitLoop_of_ends {s : State} (hpos : s.pos = .busy req [.bwaitSample l v n start use]) (hreach : s.Reaches t)
    (hidle : t.pos = .idle) :
    ∃ r es, BwaitLoop s.cfg l v n start r es ∧ Responds s t es (waitResponse use r) := by
  obtain ⟨x, u, hsample, hu, hfewer, hrest⟩ := hreach.sampled hidle hpos fun a => Micro.tick_bwaitSample a l v n start use
  by_cases hmet : x = v
  · rw [if_pos hmet] at hrest
    subst hmet
    exact ⟨true, _, .met, hsample.responds (responds_verdict hu hrest hidle)⟩
  · rw [if_neg hmet] at hrest
    obtain ⟨y, u', hcheck, hu', hfewer', hrest'⟩ :=
      hrest.clocked hidle (State.push_pos_of_busy hu _) fun a => Micro.tick_bwaitCheck a l v n start use
    have hturn : Observes s u' [.smp l x, .now y] := (hsample.push _).trans hcheck
    rw [hturn.cfg] at hrest'
    split at hrest'
    · next hlate => exact ⟨false, _, .expired hmet hlate, hturn.responds (responds_verdict hu' hrest' hidle)⟩
    · next hearly =>
      obtain ⟨r, es, hloop, hresponds⟩ := bwaitLoop_of_ends (State.push_pos_of_busy hu' _) hrest' hidle
      rw [State.push_cfg, hturn.cfg] at hloop
      exact ⟨r, _, .again hmet (not_le.mp hearly) hloop, (hturn.push _).responds hresponds⟩
termination_by s.env.length
decreasing_by exact hfewer'.trans hfewer

/-- R72: a bounded wait that is its request's whole pseudocode, in a run that ends. -/
theorem bwait_of_ends (hpos : s.pos = .busy req [.bwait l v n use]) (hreach : s.Reaches t) (hidle : t.pos = .idle) :
    ∃ start r es, BwaitLoop s.cfg l v n start r es ∧ Responds s t (.now start :: es) (waitResponse use r) := by
  obtain ⟨start, u, hstart, hu, -, hrest⟩ := hreach.clocked hidle hpos fun a => Micro.tick_bwait a l v n use
  obtain ⟨r, es, hloop, hresponds⟩ := bwaitLoop_of_ends (State.push_pos_of_busy hu _) hrest hidle
  rw [State.push_cfg, hstart.cfg] at hloop
  exact ⟨start, r, es, hloop, (hstart.push _).responds hresponds⟩

/-- R73: the events of a transfer wait and its verdict: the loop of the wait policy. -/
def WaitRun (c : Config) (l : Line) (v : Level) (r : Bool) (es : List Event) : Prop :=
  match c.waitPolicy with
  | .unbounded => r = true ∧ PollLoop l v es
  | .bounded => ∃ start es', es = .now start :: es' ∧ BwaitLoop c l v c.timeoutUs start r es'

/-- R73: a transfer wait that is its request's whole pseudocode, in a run that ends. -/
theorem wait_of_ends (hpos : s.pos = .busy req [.wait l v]) (hreach : s.Reaches t) (hidle : t.pos = .idle) :
    ∃ r es, WaitRun s.cfg l v r es ∧ Responds s t es (waitResponse .transfer r) := by
  obtain ⟨u, hcall, hu, hrest⟩ := hreach.pushed (body := [waitLoop s.cfg l v]) hidle hpos
    fun a ha => ha ▸ Micro.tick_wait a l v
  unfold WaitRun
  cases hpolicy : s.cfg.waitPolicy with
  | unbounded =>
    simp only [waitLoop, hpolicy] at hu
    obtain ⟨es, hloop, hresponds⟩ := pollLoop_of_ends hu hrest hidle
    exact ⟨true, es, ⟨rfl, hloop⟩, hcall.responds hresponds⟩
  | bounded =>
    simp only [waitLoop, hpolicy] at hu
    obtain ⟨start, r, es, hloop, hresponds⟩ := bwait_of_ends hu hrest hidle
    rw [hcall.cfg] at hloop
    exact ⟨r, _, ⟨start, es, rfl, hloop⟩, hcall.responds hresponds⟩

/-! ### WAIT_LEVEL -/

/-- The drives of a state, as a spot has them. -/
theorem lineDrive_drives (s : State) (l : Line) : lineDrive s.driveClk s.driveDat l = s.drive l := by
  cases l <;> rfl

/-- R21, R57: what a run that only observed and responded leaves. -/
theorem Responds.leaves {q : Response} (h : Responds s t es q) : t.driveClk = s.driveClk ∧ t.driveDat = s.driveDat ∧
    t.session = s.session ∧ t.trace = s.trace ++ es ∧ t.responses = s.responses ++ [q] := by
  obtain ⟨u, hu, rfl⟩ := h
  exact ⟨hu.clk, hu.dat, hu.session, hu.trace, by rw [State.finish_responses, hu.responses]⟩

/-- Settles O32: the wait that is met, the wait that expires, and the run taken apart. -/
theorem waitLevel : Obligations.WaitLevel := by
  unfold Obligations.WaitLevel
  intro s l v
  refine ⟨fun w rest hready hw => ?_, fun w rest hready hb htw hw => ?_, fun t hexec hidle => ?_⟩
  · exact exec_leads (i := .waitLevel l v) (r := ⟨.ok, .none⟩) hready
      (fun h => leads_wait (todo := []) hw h (lineDrive_drives s l)) fun _ ht => end_ok ht rfl
  · exact exec_finishes (i := .waitLevel l v) hready fun h =>
      wait_expires (todo := []) hb htw hw h (lineDrive_drives s l)
  · obtain ⟨-, hreach, -⟩ := exec_next hexec
    obtain ⟨r, es, hrun, hresponds⟩ := wait_of_ends rfl hreach hidle
    obtain ⟨hclk, hdat, hsession, htrace, hresponses⟩ := hresponds.leaves
    exact ⟨hclk, hdat, hsession, es, r, htrace, hresponses, hrun⟩

/-! ### WAIT_CLOCK_BOUNDED -/

/-- R72: the bounded wait that its first sample meets, up to its verdict. -/
theorem leads_met {drv : Line → Drive} (hw : answersAt drv [.any, .reads l v] w = true)
    (h : At c req s ⟨.bwait l v n use :: todo, w ++ env, dc, dd, f, rep, σ⟩) (hl : lineDrive dc dd l = drv l) :
    ∃ u, s.Reaches (waitDone use true u) ∧ Carried s u [.smp l v] ∧ At c req u ⟨todo, env, dc, dd, f, rep, σ⟩ := by
  obtain ⟨m₁, w', rfl, -, hw⟩ := answers_cons hw
  obtain ⟨m₂, w', rfl, hlevel, hw⟩ := answers_cons hw
  cases answers_nil hw
  have hstart : Leads c req s [] ⟨.bwaitSample l v n (clockReading s.cfg (s.now + m₁.dt)) use :: todo, m₂ :: env, dc, dd, f,
      rep, σ⟩ :=
    .tick (tick_onNow h rfl rfl (Micro.tick_bwait _ l v n use))
      ⟨rfl, rfl, rfl, rfl, rfl, rfl, ⟨[.now (clockReading s.cfg (s.now + m₁.dt))], rfl, rfl⟩, by simp [State.stepped]⟩
      ⟨h.cfg, rfl, rfl, h.clk, h.dat, h.frame, h.report, h.session⟩
  obtain ⟨u, hreach, hcarried, hu⟩ := hstart
  have htick := tick_onSample hu rfl rfl (Micro.tick_bwaitSample _ l v n _ use)
  rw [level_of_met ((hu.drive l).trans hl) hlevel, if_pos rfl] at htick
  refine ⟨_, hreach.trans (State.Moves.reaches htick), hcarried.trans ?_, ?_⟩
  · exact ⟨rfl, rfl, rfl, rfl, rfl, rfl, ⟨[.smp l v], rfl, rfl⟩, by simp [State.stepped]⟩
  · exact ⟨hu.cfg, rfl, rfl, hu.clk, hu.dat, hu.frame, hu.report, hu.session⟩

/-- R75, R110: the verdict of the diagnostic wait, its request's last step, is the response. -/
theorem finishes_of_diagnostic (hreach : s.Reaches (waitDone .diagnostic r u)) (hcarried : Carried s u bus)
    (hu : At c req u ⟨[], env, dc, dd, f, rep, σ⟩) : Finishes c s bus ⟨.ok, .reached r⟩ env dc dd σ := by
  have hpos : (waitDone .diagnostic r u).pos = .busy req [.respond (.reached r)] := State.push_pos_of_busy hu.pos _
  have hend : (waitDone .diagnostic r u).tick = .moved (u.finish .ok (.reached r)) := State.tick_busy hpos
  exact ⟨u, hreach.trans (State.Moves.reaches hend), hcarried, hu.cfg, hu.env, hu.clk, hu.dat, hu.session⟩

/-- Settles O33: the wait that is met, the wait that expires, and the run taken apart. -/
theorem waitClockBounded : Obligations.WaitClockBounded := by
  unfold Obligations.WaitClockBounded
  intro s v n
  refine ⟨fun w rest hready hw => ?_, fun w rest hready htw hw => ?_, fun t hexec hidle => ?_⟩
  · refine exec_finishes (i := .waitClockBounded v n) hready fun h => ?_
    obtain ⟨u, hreach, hcarried, hu⟩ := leads_met (todo := []) hw h (lineDrive_drives s .clk)
    exact finishes_of_diagnostic hreach hcarried hu
  · refine exec_finishes (i := .waitClockBounded v n) hready fun h => ?_
    obtain ⟨u, hreach, hcarried, hu⟩ := leads_expire (todo := []) htw hw h (lineDrive_drives s .clk)
    exact finishes_of_diagnostic hreach hcarried hu
  · obtain ⟨-, hreach, -⟩ := exec_next hexec
    obtain ⟨start, r, es, hloop, hresponds⟩ := bwait_of_ends rfl hreach hidle
    obtain ⟨hclk, hdat, hsession, htrace, hresponses⟩ := hresponds.leaves
    exact ⟨hclk, hdat, hsession, start, es, r, htrace, hloop, hresponses⟩

/-! ### RECV_BIT -/

/-- Settles O35: the bit is received and returned, or either wait ends the request. -/
theorem receiveBit : Obligations.ReceiveBit := by
  unfold Obligations.ReceiveBit
  intro s b w rest hready
  refine ⟨fun hw => ?_, fun hb htw => ⟨fun hw => ?_, fun hw => ?_⟩⟩
  · exact exec_leads (i := .recvBit) (r := ⟨.ok, .bit b⟩) hready
      (fun h => (leads_recvBit (todo := []) hw h (lineDrive_drives s)).bindSilent fun _ ht =>
        leads_push ht (Micro.tick_bitReturn_result _ b))
      fun _ ht => end_respond ht rfl
  · exact exec_finishes (i := .recvBit) hready fun h =>
      (leads_push (todo := []) h (Micro.tick_recvBit _ .result)).ends (a := []) fun _ ht =>
        wait_expires hb htw hw ht (lineDrive_drives s .clk)
  · exact exec_finishes (i := .recvBit) hready fun h => recvBit_expires (todo := []) hb htw hw h (lineDrive_drives s)

/-! ### READ_BYTE -/

/-- R79: received bits drive no line. -/
theorem lastDrive_recvBits (l : Line) (bits : List Bool) : lastDrive l (bits.map recvBitEvents).flatten = none := by
  induction bits with
  | nil => rfl
  | cons b bits ih =>
    rw [List.map_cons, List.flatten_cons, lastDrive_append, ih]
    rfl

/-- R83 step 1: a read keeps the data line released up to its last bit. -/
theorem lastDrive_readEventsBefore (c : Config) (bits : List Bool) {after : List Event} (h : lastDrive .dat after = none) :
    lastDrive .dat (readEventsBefore c bits ++ after) = some .released := by
  rw [readEventsBefore, lastDrive_append, h, lastDrive_append, lastDrive_recvBits]
  rfl

/-- Settles O42: the run leads to each of the waits, and the request ends where it expires. -/
theorem readByteTimesOut : Obligations.ReadByteTimesOut := by
  unfold Obligations.ReadByteTimesOut
  intro s w rest hready hb htw
  have expires {before bus bus' v} := exec_expires_of_leadsToWait (i := .readByte) (before := before) (bus := bus)
    (bus' := bus') (l := .clk) (v := v) (d := .released) hready hb htw
  refine ⟨fun hw => ?_, fun hw => ?_, fun bits hbits => ⟨fun hw => ?_, fun b hw => ?_⟩⟩
  · exact expires hw readByte_leadsToWait_startLow rfl rfl
  · exact expires hw readByte_leadsToWait_startHigh rfl rfl
  · refine expires hw (readByte_leadsToWait_bitLow hbits) ?_ ?_
    · simp [readEventsBefore, readReleaseEvents, otherLevel]
    · simpa using lastDrive_readEventsBefore s.cfg bits (after := []) rfl
  · refine expires hw (readByte_leadsToWait_bitHigh hbits) ?_ (lastDrive_readEventsBefore s.cfg bits rfl)
    simp [readEventsBefore, readReleaseEvents, otherLevel]

end Sys2Proof.Machine
end

section
/-! PROOFS of the statements of spec/41_bit_transfer.md about waits that never end (R73, R81, R128). -/

namespace Sys2Proof.Machine

variable {req i : Instr} {s t u : State} {todo : List Micro} {l : Line} {v : Level} {m : Micro} {body : List Micro}

/-! ### The unbounded loop -/

/-- R63: what only observes changes no level. -/
theorem Observes.levelAt {es : List Event} (h : Observes s t es) (l : Line) (m : EnvMove) : t.levelAt l m = s.levelAt l m := by
  have hdrive : t.drive l = s.drive l := by
    cases l
    · exact h.clk
    · exact h.dat
  rw [State.levelAt, hdrive, ← State.levelAt]

/-- R73: a turn of the unbounded loop whose sample does not read the level. -/
theorem pollLoop_turn {m : EnvMove} {moves : List EnvMove} (hpos : s.pos = .busy req (.poll l v :: todo))
    (henv : s.env = m :: moves) (hlevel : s.levelAt l m ≠ v) :
    ∃ t, s.tick = .moved t ∧ Observes s t [.smp l (s.levelAt l m)] ∧ t.pos = .busy req (.poll l v :: todo) ∧
      t.env = moves := by
  have htick := (State.tick_busy hpos).trans (Micro.tick_poll (s.stepped req todo) l v)
  rw [State.onSample_cons (s := s.stepped req todo) henv, if_neg (show (s.stepped req todo).levelAt l m ≠ v from hlevel)] at htick
  exact ⟨_, htick, ⟨rfl, rfl, rfl, rfl, rfl, rfl⟩, rfl, rfl⟩

/-- R73, R128: the unbounded loop, where no placed move brings its level, samples once for every move and stands at the loop
again. -/
theorem pollLoop_hangs {s : State} (hpos : s.pos = .busy req (.poll l v :: todo)) (hnever : ∀ m ∈ s.env, s.levelAt l m ≠ v) :
    ∃ t, s.Reaches t ∧ t.Halted ∧ Observes s t (s.env.map fun m => .smp l (s.levelAt l m)) ∧
      t.pos = .busy req (.poll l v :: todo) ∧ t.env = [] := by
  cases henv : s.env with
  | nil =>
    have hawaits := (State.tick_busy hpos).trans (Micro.tick_poll (s.stepped req todo) l v)
    rw [State.onSample_nil (s := s.stepped req todo) henv] at hawaits
    exact ⟨s, .refl s, .inr hawaits, .refl s, hpos, henv⟩
  | cons m moves =>
    rw [henv] at hnever
    obtain ⟨u, hturn, hobserves, hupos, huenv⟩ := pollLoop_turn hpos henv (hnever m List.mem_cons_self)
    obtain ⟨t, hreach, hhalted, hrest, htpos, htenv⟩ := pollLoop_hangs (s := u) hupos fun x hx => by
      rw [hobserves.levelAt]
      exact hnever x (List.mem_cons_of_mem m (huenv ▸ hx))
    simp only [hobserves.levelAt, huenv] at hrest
    exact ⟨t, (State.Moves.reaches hturn).trans hreach, hhalted, hobserves.trans hrest, htpos, htenv⟩
termination_by s.env.length
decreasing_by rw [henv, huenv]; exact Nat.lt_succ_self _

/-- R73, R128: WAIT_LEVEL under Unbounded, where no placed move brings its level. -/
theorem exec_waitLevel_hangs (hidle : s.pos = .idle) (hu : s.cfg.waitPolicy = .unbounded)
    (hnever : ∀ m ∈ s.env, s.levelAt l m ≠ v) :
    ∃ t, exec (.waitLevel l v) s = .next t ∧ Observes s t (s.env.map fun m => .smp l (s.levelAt l m)) ∧
      t.pos = .busy (.waitLevel l v) [.poll l v] ∧ t.env = [] := by
  have hcall : State.tick { s with pos := .busy (.waitLevel l v) (requestBody (.waitLevel l v) s) } =
      .moved (s.stepped (.waitLevel l v) [.poll l v]) := by
    have hloop : waitLoop s.cfg l v = .poll l v := by simp only [waitLoop, hu]
    exact (Micro.tick_wait _ l v).trans (by rw [← hloop]; rfl)
  obtain ⟨t, hreach, hhalted, hobserves, hpos, henv⟩ := pollLoop_hangs (s := s.stepped (.waitLevel l v) [.poll l v]) rfl hnever
  exact ⟨t, exec_of_halted hidle ((State.Moves.reaches hcall).trans hreach) hhalted, (Observes.stepped s _ _).trans hobserves,
    hpos, henv⟩

/-! ### Runs that do not read the clock -/

/-- R72: the steps of a bounded wait, which alone read the clock. -/
def Micro.ofBoundedWait : Micro → Bool
  | .bwait _ _ _ _ | .bwaitSample _ _ _ _ _ | .bwaitCheck _ _ _ _ _ => true
  | _ => false

/-- Steps of which none is of a bounded wait. -/
def clockFree (todo : List Micro) : Bool := todo.all fun m => !m.ofBoundedWait

theorem clockFree_cons (m : Micro) (todo : List Micro) :
    clockFree (m :: todo) = true ↔ m.ofBoundedWait = false ∧ clockFree todo = true := by
  simp [clockFree]

theorem clockFree_append (a b : List Micro) : clockFree (a ++ b) = true ↔ clockFree a = true ∧ clockFree b = true := by
  simp [clockFree]

/-- From `s` to `t` the clock is not read, and the request ends or goes on with no step of a bounded wait put in front. -/
structure Clockless (s t : State) : Prop where
  trace : ∃ es, t.trace = s.trace ++ es ∧ busEvents es = es
  pos : t.pos = .idle ∨ ∃ body, t.pos = s.pos.push body ∧ clockFree body = true

/-- Steps are put in front, and one event is added. -/
theorem Clockless.event {e : Event} (body : List Micro) (he : e.onBus = true) (htrace : t.trace = s.trace ++ [e])
    (hpos : t.pos = s.pos.push body) (hbody : clockFree body = true) : Clockless s t :=
  ⟨⟨[e], htrace, by simp [busEvents, he]⟩, .inr ⟨body, hpos, hbody⟩⟩

/-- Steps are put in front, and no event is added. -/
theorem Clockless.silent (body : List Micro) (htrace : t.trace = s.trace) (hpos : t.pos = s.pos.push body)
    (hbody : clockFree body = true) : Clockless s t :=
  ⟨⟨[], by rw [htrace, List.append_nil], rfl⟩, .inr ⟨body, hpos, hbody⟩⟩

theorem Pos.push_nil (p : Pos) : p.push [] = p := by cases p <;> rfl

/-- No step is put in front, and no event is added. -/
theorem Clockless.still (htrace : t.trace = s.trace) (hpos : t.pos = s.pos) : Clockless s t :=
  .silent [] htrace (hpos.trans (Pos.push_nil _).symm) rfl

/-- The request ends, and no event is added. -/
theorem Clockless.ended (htrace : t.trace = s.trace) (hpos : t.pos = .idle) : Clockless s t :=
  ⟨⟨[], by rw [htrace, List.append_nil], rfl⟩, .inl hpos⟩

theorem presentMicro_ofBoundedWait (c : Config) (b : Bool) : (presentMicro c b).ofBoundedWait = false := by
  cases b <;> cases hone : c.dataOne <;> simp [presentMicro, hone, Micro.ofBoundedWait]

theorem byteReturnBody_clockFree (dst : ByteDst) (v : Byte) : clockFree (byteReturnBody dst v) = true := by
  cases dst <;> rfl

/-- R67: a step that samples a line and only puts steps in front. -/
theorem Clockless.sampled {k : Level → State → State} (h : m.tick s = .moved t) (hm : m.tick s = s.onSample l k)
    (body : Level → List Micro) (hk : ∀ x (a : State), k x a = a.push (body x))
    (hbody : ∀ x, clockFree (body x) = true) : Clockless s t := by
  obtain ⟨_, _, -, rfl⟩ := State.onSample_cases (hm.symm.trans h)
  rw [hk]
  exact .event (body _) rfl rfl rfl (hbody _)

/-- R73: under Unbounded every step but those of a bounded wait leaves the clock unread. -/
theorem Micro.tick_clockless (hu : s.cfg.waitPolicy = .unbounded) (hm : m.ofBoundedWait = false) (h : m.tick s = .moved t) :
    Clockless s t := by
  cases m with
  | bwait | bwaitSample | bwaitCheck => cases hm
  | low | high | rel => cases h; exact .event [] rfl rfl (Pos.push_nil _).symm rfl
  | delay d => obtain ⟨_, _, -, rfl⟩ := State.onDelay_cases h; exact .event [] rfl rfl (Pos.push_nil _).symm rfl
  | samp l => exact .sampled h (Micro.tick_samp s l) (fun x => [.respond (.level x)]) (fun _ _ => rfl) fun _ => rfl
  | sampleBit dst =>
    exact .sampled h (Micro.tick_sampleBit s dst) (fun x => [.wait .clk .high, .bitReturn dst x.bit]) (fun _ _ => rfl)
      fun _ => rfl
  | poll l v =>
    refine .sampled h (Micro.tick_poll s l v) (fun x => if x = v then [] else [.poll l v]) (fun x a => ?_) fun x => ?_
    · split <;> simp only [State.push_nil]
    · split <;> rfl
  | wait l v => rw [Micro.tick_wait] at h; cases h; exact .silent _ rfl rfl (by simp only [waitLoop, hu]; rfl)
  | present b => cases h; exact .silent [_] rfl rfl ((clockFree_cons _ _).mpr ⟨presentMicro_ofBoundedWait _ _, rfl⟩)
  | sendBit b => cases h; exact .silent (sendBitBody b) rfl rfl rfl
  | recvBit dst => cases h; exact .silent (recvBitBody dst) rfl rfl rfl
  | writeByte v => cases h; exact .silent (writeByteBody v) rfl rfl rfl
  | readByte dst => cases h; exact .silent (readByteBody dst) rfl rfl rfl
  | sendCmd c => cases h; exact .silent (sendCmdBody c) rfl rfl rfl
  | selectMode c g => cases h; exact .silent (selectModeBody c g) rfl rfl rfl
  | setPolledMode => cases h; exact .silent (setPolledModeBody s.cfg) rfl rfl rfl
  | writeReport => cases h; exact .silent [.respondReport] rfl rfl rfl
  | openWrite | closeFrame | openRead | setEnabled | setDisabled | recordMode | markInitialized => cases h; exact .still rfl rfl
  | respond p => cases h; exact .ended rfl rfl
  | byteReturn dst =>
    simp only [Micro.tick_byteReturn, stepByteReturn] at h
    split at h <;> cases h
    exact .silent _ rfl rfl (byteReturnBody_clockFree _ _)
  | bitReturn dst =>
    cases dst with
    | result => cases h; exact .silent [_] rfl rfl rfl
    | data | parity | stop =>
      simp only [Micro.tick_bitReturn, stepBitReturn] at h
      split at h <;> cases h
      exact .still rfl rfl
  | sendData | sendParity | initMode =>
    simp only [Micro.tick, stepSendData, stepSendParity, stepInitMode] at h
    repeat' split at h
    all_goals cases h
    all_goals exact .silent _ rfl rfl rfl
  | accumulate =>
    simp only [Micro.tick_accumulate, stepAccumulate] at h
    repeat' split at h
    all_goals cases h
    exact .still rfl rfl
  | pause | resume | enableReporting | disableReporting | reenable =>
    simp only [Micro.tick, stepPause, stepResume, stepEnableReporting, stepDisableReporting, stepReenable] at h
    split at h <;> cases h
    · exact .still rfl rfl
    · exact .silent _ rfl rfl rfl
  | modeSettle =>
    simp only [Micro.tick_modeSettle, stepModeSettle] at h
    split at h <;> cases h
    · exact .silent _ rfl rfl rfl
    · exact .still rfl rfl
  | checkFrame =>
    simp only [Micro.tick_checkFrame, stepCheckFrame] at h
    repeat' split at h
    all_goals cases h
    · exact .still rfl rfl
    · exact .ended rfl rfl
  | checkAck =>
    simp only [Micro.tick_checkAck, stepCheckAck] at h
    split at h <;> cases h
    · exact .still rfl rfl
    · exact .ended rfl rfl
  | respondReport =>
    simp only [Micro.tick_respondReport, stepRespondReport] at h
    split at h <;> cases h
    exact .ended rfl rfl

/-- From `s` to `t` only bus events are added, and the steps left are of no bounded wait. -/
structure ClockUnread (s t : State) : Prop where
  trace : ∃ es, t.trace = s.trace ++ es ∧ busEvents es = es
  steps : ∀ req todo, t.pos = .busy req todo → clockFree todo = true

/-- R73: under Unbounded an atomic step that is of no bounded wait leaves the clock unread. -/
theorem ClockUnread.tick (h : ClockUnread s t) (hu : t.cfg.waitPolicy = .unbounded) (htick : t.tick = .moved u) :
    ClockUnread s u := by
  obtain ⟨es, htrace, hes⟩ := h.trace
  obtain ⟨req, todo, hbusy⟩ := busy_of_tick htick
  have hfree := h.steps req todo hbusy
  cases todo with
  | nil =>
    rw [State.tick_done hbusy] at htick; cases htick
    exact ⟨⟨es, htrace, hes⟩, nofun⟩
  | cons m todo =>
    rw [State.tick_busy hbusy] at htick
    obtain ⟨hm, htodo⟩ := (clockFree_cons m todo).mp hfree
    obtain ⟨⟨d, hd, hbus⟩, hpos⟩ := Micro.tick_clockless (s := t.stepped req todo) hu hm htick
    refine ⟨⟨es ++ d, ?_, by rw [busEvents_append, hes, hbus]⟩, fun req' todo' hb => ?_⟩
    · rw [hd, ← List.append_assoc, ← htrace]; rfl
    · rcases hpos with hidle | ⟨body, hpush, hbody⟩
      · rw [hidle] at hb; cases hb
      · rw [hpush] at hb; cases hb
        exact (clockFree_append body todo).mpr ⟨hbody, htodo⟩

/-- R73: under Unbounded a run with no step of a bounded wait left leaves the clock unread. -/
theorem State.Reaches.clockUnread (h : s.Reaches t) (hu : s.cfg.waitPolicy = .unbounded) (hpos : s.pos = .busy req todo)
    (hfree : clockFree todo = true) : ClockUnread s t := by
  have hstart : ClockUnread s s :=
    ⟨⟨[], (List.append_nil _).symm, rfl⟩, fun _ _ hp => by rw [hpos] at hp; cases hp; exact hfree⟩
  refine (h.keeps (P := fun a => a.cfg = s.cfg ∧ ClockUnread s a) (fun a b ha hab => ?_) ⟨rfl, hstart⟩).2
  obtain ⟨hcfg, hunread⟩ := ha
  exact ⟨(State.tick_facts hab).cfg.trans hcfg, hunread.tick (hcfg ▸ hu) hab⟩

/-- Settles O27: the loop of WAIT_LEVEL, and the first wait of a write (O59), whose run does not read the clock. -/
theorem unboundedWaitsHang : Obligations.UnboundedWaitsHang := by
  unfold Obligations.UnboundedWaitsHang
  refine ⟨fun s l v _ hidle hu hnever => ?_, fun s b w silent hready hu hw hsilent => ?_⟩
  · obtain ⟨t, hexec, hobserves, hpos, henv⟩ := exec_waitLevel_hangs hidle hu hnever
    exact ⟨t, hexec, hpos, henv, hobserves.responses, hobserves.trace⟩
  · obtain ⟨hwrites, -⟩ := framingWaitsHang s w silent hready hu
    obtain ⟨hstart, -⟩ := hwrites b
    obtain ⟨t, hexec, hhung, -⟩ := hstart hw hsilent
    obtain ⟨todo, hpos⟩ := hhung.pos
    obtain ⟨es, htrace, hbus⟩ := hhung.bus
    obtain ⟨-, hreach, -⟩ := exec_next hexec
    obtain ⟨es', htrace', hunread⟩ := (hreach.clockUnread hu rfl rfl).trace
    have hsame : es = es' := List.append_cancel_left (htrace.symm.trans htrace')
    rw [hsame, hunread] at hbus
    refine ⟨t, hexec, by rw [hpos]; nofun, hhung.env, hhung.responses, ?_⟩
    rw [htrace', hbus, List.append_assoc]
    rfl

end Sys2Proof.Machine
end

section
/-! PROOFS of the statements of spec/42_byte_framing.md about a byte that is read: READ_BYTE against a peripheral that sends a frame
(R83, R84, R114), and the loopback law (R86). -/

namespace Sys2Proof.Machine

variable {s t : State} {w w₁ rest : List EnvMove} {x : RxFrame} {r : Response} {bus : List Event}

/-! ### READ_BYTE -/

/-- R84, R114: the frame's error by its two bits, in both modes of checking. -/
theorem frameError_eq (c : Config) (x : RxFrame) : frameError c x.data x.parity x.stop =
    if c.strict = .strict ∧ x.parity ≠ oddParity x.data then some .parityError
    else if c.strict = .strict ∧ x.stop ≠ true then some .framingError else none := by
  cases hs : c.strict <;> simp [frameError, hs]

/-- R83: READ_BYTE of a frame that passes the checks. -/
theorem exec_readByte_accepted (h : s.Ready w rest) (hw : answers (readNeeds s.cfg x) w = true)
    (hx : frameError s.cfg x.data x.parity x.stop = none) :
    ∃ t, exec .readByte s = .next t ∧ Ended s t rest ⟨.ok, .byte x.data⟩ (readEvents s.cfg x) ∧
      t.driveClk = .drivenLow ∧ t.driveDat = .released ∧ t.session = s.session :=
  exec_leads (r := ⟨.ok, .byte x.data⟩) (p := ⟨[.respond (.byte x.data)], rest, .drivenLow, .released, none, none, s.session⟩) h
    (leads_readByte hw hx) fun _ ht => end_respond ht rfl

/-- R84, R114: READ_BYTE of a frame that fails a check. -/
theorem exec_readByte_refused {code : ResponseCode} (h : s.Ready w rest) (hw : answers (readNeeds s.cfg x) w = true)
    (hx : frameError s.cfg x.data x.parity x.stop = some code) :
    ∃ t, exec .readByte s = .next t ∧ Ended s t rest ⟨code, .none⟩ (readEvents s.cfg x) ∧
      t.driveClk = .drivenLow ∧ t.driveDat = .released ∧ t.session = s.session :=
  exec_finishes h (readByte_refused (todo := []) hw hx)

/-- Settles O40, one case for each outcome of the checks. -/
theorem readByte : Obligations.ReadByte := by
  unfold Obligations.ReadByte
  intro s x w rest hready hw
  have herror := frameError_eq s.cfg x
  split
  · next hparity => exact exec_readByte_refused hready hw (by rw [herror, if_pos hparity])
  · next hparity =>
    rw [if_neg hparity] at herror
    split
    · next hstop => exact exec_readByte_refused hready hw (by rw [herror, if_pos hstop])
    · next hstop => exact exec_readByte_accepted hready hw (by rw [herror, if_neg hstop])

/-! ### The loopback law -/

/-- R46, R84: a frame with odd parity and stop 1 passes the checks. -/
theorem frameError_good (c : Config) {x : RxFrame} (hx : c.strict = .strict → x.parity = oddParity x.data ∧ x.stop = true) :
    frameError c x.data x.parity x.stop = none := by
  rw [frameError_eq, if_neg fun h => h.2 (hx h.1).1, if_neg fun h => h.2 (hx h.1).2]

/-- R47, R71: a clock read is nothing an analyser sees. -/
theorem Analyser.after_busEvents (a : Analyser) (es : List Event) : a.after (busEvents es) = a.after es := by
  induction es generalizing a with
  | nil => rfl
  | cons e es ih =>
    cases e with
    | now n => exact ih a
    | low | high | rel | smp | dly => exact ih _

/-- R47: the slots on the wire of a trace whose bus events are those of a write. -/
theorem framesOnBus_of_busEvents {c : Config} {v : Byte} {es : List Event} (h : busEvents es = writeEvents c v) :
    framesOnBus es = [false :: (bitIndices.map (byteBit v) ++ [oddParity v, true])] := by
  calc framesOnBus es
    _ = framesOnBus (busEvents es) := congrArg Analyser.frames (Analyser.after_busEvents _ es).symm
    _ = _ := by rw [h, framesOnBus_writeEvents, frameWord_slots]

/-- R26, R115: the caller may issue its next request where one has ended. -/
theorem Ended.ready {i : Instr} (h : Ended s t (w ++ rest) r bus) (hs : s.Ready w₁ (w ++ rest)) (hexec : exec i s = .next t) :
    t.Ready w rest := by
  obtain ⟨t', hexec', -, -, hinv⟩ := hs.inv.exec_next hs.idle i
  rw [hexec] at hexec'; cases hexec'
  exact ⟨hinv, h.pos, h.env⟩

/-- Settles O43: the slots on the wire are those of the byte, and the read of the good frame of that byte responds with it. -/
theorem loopback : Obligations.Loopback := by
  unfold Obligations.Loopback
  intro s v w₁ w₂ rest hready hw
  obtain ⟨t, hexec, hended, -, -, -, -⟩ := writeByte s v w₁ (w₂ ++ rest) hready hw
  obtain ⟨es, htrace, hbus⟩ := hended.bus
  refine ⟨t, es, hexec, htrace, _, framesOnBus_of_busEvents hbus, rfl, fun hreply => ?_⟩
  have hlatched : ((false :: (bitIndices.map (byteBit v) ++ [oddParity v, true])).drop 1).take 8 = bitIndices.map (byteBit v) := rfl
  rw [hlatched, byteOfBits_byteBit, ← hended.cfg] at hreply
  obtain ⟨u, hread, hended', -, -, -⟩ :=
    exec_readByte_accepted (hended.ready hready hexec) hreply (frameError_good _ fun _ => ⟨rfl, rfl⟩)
  refine ⟨u, hread, hended'.pos, hended'.env, ?_⟩
  rw [hended'.responses, hended.responses, List.append_assoc]
  rfl

end Sys2Proof.Machine
end

section
/-! PROOFS of the statements of spec/42_byte_framing.md about a silent peripheral: every request with a command exchange makes a write
first, and its step 5 expires (R81, R109, R110, R111). -/

namespace Sys2Proof.Machine

variable {c : Config} {req : Instr} {s : State} {todo : List Micro} {env w rest : List EnvMove} {dc dd : Drive} {f : Option Frame}
  {rep : Option Report} {σ : SessionState} {bus bus' : List Event} {m : Micro} {body : List Micro} {p : Spot}

/-! ### The first write of a request -/

/-- From `s` the engine leads to the call of a write, adding the events `bus`. -/
def LeadsToWrite (c : Config) (req : Instr) (s : State) (bus : List Event) (env : List EnvMove) (σ : SessionState) : Prop :=
  ∃ b todo dc dd f rep, Leads c req s bus ⟨.writeByte b :: todo, env, dc, dd, f, rep, σ⟩

/-- Sequencing: from the spot reached, the engine leads to a write. -/
theorem Leads.toWrite (h : Leads c req s bus p) (g : ∀ t, At c req t p → LeadsToWrite c req t bus' env σ) :
    LeadsToWrite c req s (bus ++ bus') env σ := by
  obtain ⟨t, hreach, hcarried, ht⟩ := h
  obtain ⟨b, todo, dc, dd, f, rep, u, hreach', hcarried', hu⟩ := g t ht
  exact ⟨b, todo, dc, dd, f, rep, u, hreach.trans hreach', hcarried.trans hcarried', hu⟩

/-- R89: a command exchange begins with a write. -/
theorem leadsToWrite_sendCmd {b : Byte} (h : At c req s ⟨.sendCmd b :: todo, env, dc, dd, f, rep, σ⟩) :
    LeadsToWrite c req s [] env σ :=
  ⟨b, _, _, _, _, _, leads_push h (Micro.tick_sendCmd _ b)⟩

/-- A step that puts a command exchange in front. -/
theorem leadsToWrite_call {b : Byte} (h : At c req s ⟨m :: todo, env, dc, dd, f, rep, σ⟩)
    (hm : m.tick (s.stepped req todo) = .moved ((s.stepped req todo).push (.sendCmd b :: body))) :
    LeadsToWrite c req s [] env σ :=
  (leads_push h hm).toWrite fun _ ht => leadsToWrite_sendCmd ht

/-- R95: `enable_reporting()` where the flag is not set. -/
theorem leadsToWrite_enable (hflag : σ.enabled = false) (h : At c req s ⟨.enableReporting :: todo, env, dc, dd, f, rep, σ⟩) :
    LeadsToWrite c req s [] env σ := by
  refine leadsToWrite_call h (if_neg ?_)
  rw [Bool.not_eq_true]
  exact (session_enabled h).trans hflag

/-- R96: `disable_reporting()` where the flag is not set. -/
theorem leadsToWrite_disable (hflag : σ.disabled = false) (h : At c req s ⟨.disableReporting :: todo, env, dc, dd, f, rep, σ⟩) :
    LeadsToWrite c req s [] env σ := by
  refine leadsToWrite_call h (if_neg ?_)
  rw [Bool.not_eq_true]
  exact (session_disabled h).trans hflag

/-- R94: `pause()` makes an exchange itself, or the command after it does. -/
theorem leadsToWrite_pause {b : Byte} (h : At c req s ⟨.pause :: .sendCmd b :: todo, env, dc, dd, f, rep, σ⟩) :
    LeadsToWrite c req s [] env σ := by
  have hmode := session_mode h
  cases hm : σ.mode with
  | polled =>
    refine (leads_pass h ?_).toWrite fun _ ht => leadsToWrite_sendCmd ht
    simp only [Micro.tick_pause, stepPause, State.stepped, hmode, hm]
  | continuous =>
    refine (leads_push (body := [.disableReporting]) h ?_).toWrite (bus' := []) fun t ht => ?_
    · simp only [Micro.tick_pause, stepPause, State.stepped, hmode, hm]
    · cases hflag : σ.disabled with
      | false => exact leadsToWrite_disable hflag ht
      | true =>
        refine (leads_pass ht (if_pos ?_)).toWrite fun _ hu => leadsToWrite_sendCmd hu
        exact (session_disabled ht).trans hflag

/-- R91: `select_mode(b, m)`. -/
theorem leadsToWrite_select {b : Byte} {mode : Mode} (h : At c req s ⟨.selectMode b mode :: todo, env, dc, dd, f, rep, σ⟩) :
    LeadsToWrite c req s [] env σ :=
  (leads_push h (Micro.tick_selectMode _ b mode)).toWrite fun _ ht => leadsToWrite_pause ht

/-- R90: the delay and the write with which INITIALIZE begins. -/
theorem leadsToWrite_initialize (hw : answers [.any] w = true)
    (h : At c req s ⟨initializeBody c, w ++ env, dc, dd, f, rep, σ⟩) :
    LeadsToWrite c req s [.rel .dat, .rel .clk, .dly c.tInitRelease] env σ := by
  obtain ⟨m, rfl⟩ := answers_any hw
  exact ⟨_, _, _, _, _, _, (leads_rel_dat h).bind (a := [_]) fun _ h₁ => (leads_rel_clk h₁).bind (a := [_]) fun _ h₂ =>
    leads_delay h₂⟩

/-- R90: what a request awaits before its first write. -/
def needsBeforeWrite (i : Instr) : List Need := if i = .initializeDevice then [.any] else []

/-- R90: the events of a request before its first write. -/
def eventsBeforeWrite (c : Config) (i : Instr) : List Event :=
  if i = .initializeDevice then [.rel .dat, .rel .clk, .dly c.tInitRelease] else []

/-- R89 to R101: a request with a command exchange leads to a write, unless the flag it would set is set (R95, R96). -/
theorem request_leadsToWrite {i : Instr} (hi : i.commands = true) (henable : i = .enableReporting → s.reportingEnabled = false)
    (hdisable : i = .disableReporting → s.reportingDisabled = false) (hw : answers (needsBeforeWrite i) w = true)
    (h : At s.cfg i { s with pos := .busy i (requestBody i s) }
      ⟨requestBody i s, w ++ env, s.driveClk, s.driveDat, none, none, s.session⟩) :
    LeadsToWrite s.cfg i { s with pos := .busy i (requestBody i s) } (eventsBeforeWrite s.cfg i) env s.session := by
  cases i with
  | initializeDevice => exact leadsToWrite_initialize hw h
  | pollReport => cases answers_nil hw; exact leadsToWrite_sendCmd h
  | setPolledMode | setContinuousMode | selectMode => cases answers_nil hw; exact leadsToWrite_select h
  | setSampleRate | setResolution | setScaling2to1 | setScaling1to1 => cases answers_nil hw; exact leadsToWrite_pause h
  | enableReporting => cases answers_nil hw; exact leadsToWrite_enable (henable rfl) h
  | disableReporting => cases answers_nil hw; exact leadsToWrite_disable (hdisable rfl) h
  | _ => cases hi

/-- Settles O55: the run leads to the first write, whose step 5 expires. -/
theorem silentDeviceTimesOut : Obligations.SilentDeviceTimesOut := by
  unfold Obligations.SilentDeviceTimesOut
  intro i s w rest hready hb htw hi henable hdisable hw
  rw [List.append_assoc] at hw
  obtain ⟨w₁, w₂, rfl, hbefore, hsilent⟩ := answers_append hw
  refine exec_finishes hready fun hat => ?_
  rw [List.append_assoc] at hat
  obtain ⟨_, _, _, _, _, _, hleads⟩ := request_leadsToWrite hi henable hdisable hbefore hat
  rw [List.append_assoc]
  exact hleads.ends fun _ ht => writeByte_expires hb (Config.noWrap_append htw).2 hsilent ht

end Sys2Proof.Machine
end

section
/-! PROOFS of the statements of spec/42_byte_framing.md about POLL_REPORT: the report bytes it reads, their movement decoded (R101, R102,
R103), and the first bad frame among them (R84, R114). -/

namespace Sys2Proof.Machine

variable {c : Config} {req : Instr} {s : State} {todo : List Micro} {env w rest : List EnvMove} {dc dd : Drive} {f : Option Frame}
  {rep : Option Report} {σ : SessionState} {dst : ByteDst}

/-- R102: the value of a sign-extended byte as an unsigned number. -/
theorem toNat_sx16 (b : Byte) (sign : Bool) : (sx16 b sign).toNat = (if sign then 0xFF#8 else 0x00#8).toNat * 256 + b.toNat := by
  have happend (high : Byte) : (high ++ b).toNat = high.toNat * 256 + b.toNat := by
    rw [BitVec.toNat_append, ← Nat.shiftLeft_add_eq_or_of_lt b.isLt, Nat.shiftLeft_eq]
  exact happend _

/-- R102: sign extension takes 256 off a byte whose sign is set. -/
theorem toInt_sx16 (b : Byte) (sign : Bool) : (sx16 b sign).toInt = (b.toNat : Int) - if sign then 256 else 0 := by
  have hb := b.isLt
  rw [BitVec.toInt_eq_toNat_cond, toNat_sx16]
  cases sign <;> simp <;> omega

/-! ### The report frames -/

/-- R101: how many report frames are still to be read where a byte goes to `dst`. -/
def ByteDst.framesLeft : ByteDst → Nat
  | .ack | .result => 0
  | .status => 3
  | .moveX _ => 2
  | .moveY _ _ => 1

/-- R101: after a report byte that is not the last the next one is read. -/
theorem byteReturnBody_of_framesLeft {n : Nat} (h : dst.framesLeft = n + 2) (v : Byte) :
    ∃ dst', byteReturnBody dst v = [.readByte dst'] ∧ dst'.framesLeft = n + 1 := by
  cases dst with
  | ack | result | moveY => cases h
  | status => cases h; exact ⟨_, rfl, rfl⟩
  | moveX => cases h; exact ⟨_, rfl, rfl⟩

/-- R101: several report frames that pass the checks, with one more to follow. -/
theorem leads_reportFrames : ∀ {good : List RxFrame} {s : State} {w : List EnvMove} {dst : ByteDst} {dc dd : Drive} {f : Option Frame},
    good.length < dst.framesLeft → answers (good.map (readNeeds c)).flatten w = true →
    (∀ x ∈ good, frameError c x.data x.parity x.stop = none) →
    At c req s ⟨.readByte dst :: todo, w ++ env, dc, dd, f, rep, σ⟩ →
    ∃ dst' dc' dd' f', Leads c req s (good.map (readEvents c)).flatten ⟨.readByte dst' :: todo, env, dc', dd', f', rep, σ⟩
  | [], s, w, dst, dc, dd, f, _, hw, _, h => by
    cases answers_nil hw
    exact ⟨dst, dc, dd, f, .refl h⟩
  | x :: good, s, w, dst, dc, dd, f, hn, hw, hgood, h => by
    rw [List.map_cons, List.flatten_cons] at hw
    obtain ⟨w₁, w₂, rfl, hfirst, hothers⟩ := answers_append hw
    rw [List.append_assoc] at h
    obtain ⟨n, hleft⟩ : ∃ n, dst.framesLeft = n + 2 := ⟨dst.framesLeft - 2, by rw [List.length_cons] at hn; omega⟩
    obtain ⟨dst', hbody, hleft'⟩ := byteReturnBody_of_framesLeft hleft x.data
    have hread := leads_readByte hfirst (hgood x List.mem_cons_self) h
    rw [hbody] at hread
    obtain ⟨t, hreach, hcarried, ht⟩ := hread
    obtain ⟨dst'', dc', dd', f', u, hreach', hcarried', hu⟩ := leads_reportFrames (by rw [List.length_cons] at hn; omega) hothers
      (fun y hy => hgood y (List.mem_cons_of_mem _ hy)) ht
    exact ⟨dst'', dc', dd', f', u, hreach.trans hreach', hcarried.trans hcarried', hu⟩

/-- R101: the report is written. -/
theorem leads_writeReport {st x y : Byte} (h : At c req s ⟨.writeReport st x y :: todo, env, dc, dd, f, rep, σ⟩) :
    Leads c req s [] ⟨.respondReport :: todo, env, dc, dd, f, some (decodeReport st x y), σ⟩ :=
  leads_silent h (Micro.tick_writeReport _ st x y) ⟨h.cfg, rfl, h.env, h.clk, h.dat, h.frame, rfl, h.session⟩
    rfl rfl rfl rfl rfl rfl rfl

/-- R101: the three report frames, which all pass the checks. -/
theorem leads_report {st x y : RxFrame} (hw : answers (readNeeds c st ++ readNeeds c x ++ readNeeds c y) w = true)
    (hgood : ∀ z ∈ [st, x, y], frameError c z.data z.parity z.stop = none)
    (h : At c req s ⟨.readByte .status :: todo, w ++ env, dc, dd, f, rep, σ⟩) :
    Leads c req s (readEvents c st ++ readEvents c x ++ readEvents c y)
      ⟨.respondReport :: todo, env, .drivenLow, .released, none, some (decodeReport st.data x.data y.data), σ⟩ := by
  simp only [List.forall_mem_cons] at hgood
  obtain ⟨hst, hx, hy, -⟩ := hgood
  obtain ⟨w', w₃, rfl, hw, a₃⟩ := answers_append hw
  obtain ⟨w₁, w₂, rfl, a₁, a₂⟩ := answers_append hw
  simp only [List.append_assoc] at h ⊢
  exact (leads_readByte a₁ hst h).bind fun _ h₁ => (leads_readByte a₂ hx h₁).bind fun _ h₂ =>
    (leads_readByte a₃ hy h₂).bindSilent fun _ h₃ => leads_writeReport h₃

/-- R101: POLL_REPORT up to its first report frame, its command acknowledged. -/
theorem leads_pollCommand {ack : RxFrame} (hw : answers (exchangeNeeds c [ack]) w = true) (hack : replyAccepted c ack = true)
    (h : At c req s ⟨pollReportBody c, w ++ env, dc, dd, f, rep, σ⟩) :
    Leads c req s (writeEvents c c.cmdReadData ++ readEvents c ack)
      ⟨[.readByte .status], env, .drivenLow, .released, none, rep, σ⟩ := by
  rw [exchangeNeeds_cons, exchangeNeeds_nil, List.append_nil] at hw
  exact leads_sendCmd hw hack h

/-- R101: POLL_REPORT whose report frames all pass the checks. -/
theorem exec_pollReport {ack st x y : RxFrame} (h : s.Ready w rest) (hack : replyAccepted s.cfg ack = true)
    (hw : answers (exchangeNeeds s.cfg [ack] ++ (readNeeds s.cfg st ++ readNeeds s.cfg x ++ readNeeds s.cfg y)) w = true)
    (hgood : ∀ z ∈ [st, x, y], frameError s.cfg z.data z.parity z.stop = none) :
    ∃ t, exec .pollReport s = .next t ∧
      Ended s t rest ⟨.ok, .report (decodeReport st.data x.data y.data)⟩ (writeEvents s.cfg s.cfg.cmdReadData
        ++ readEvents s.cfg ack ++ (readEvents s.cfg st ++ readEvents s.cfg x ++ readEvents s.cfg y)) ∧
      t.driveClk = .drivenLow ∧ t.driveDat = .released ∧ t.session = s.session := by
  obtain ⟨w₁, w₂, rfl, hcommand, hreport⟩ := answers_append hw
  refine exec_finishes h fun hat => ?_
  rw [List.append_assoc] at hat
  have hleads := (leads_pollCommand hcommand hack hat).bind fun _ ht => leads_report hreport hgood ht
  simpa using hleads.ends fun _ ht => ht.ends (r := ⟨.ok, .report (decodeReport st.data x.data y.data)⟩) (end_report ht rfl rfl)

/-- R84, R101, R114: POLL_REPORT whose first bad report frame comes after the frames `good`. -/
theorem exec_pollReport_refused {ack bad : RxFrame} {good : List RxFrame} {code : ResponseCode} (h : s.Ready w rest)
    (hack : replyAccepted s.cfg ack = true) (hn : good.length < 3)
    (hw : answers (exchangeNeeds s.cfg [ack] ++ (good.map (readNeeds s.cfg)).flatten ++ readNeeds s.cfg bad) w = true)
    (hgood : ∀ z ∈ good, frameError s.cfg z.data z.parity z.stop = none)
    (hbad : frameError s.cfg bad.data bad.parity bad.stop = some code) :
    ∃ t, exec .pollReport s = .next t ∧
      Ended s t rest ⟨code, .none⟩ (writeEvents s.cfg s.cfg.cmdReadData ++ readEvents s.cfg ack
        ++ (good.map (readEvents s.cfg)).flatten ++ readEvents s.cfg bad) ∧
      t.driveClk = .drivenLow ∧ t.driveDat = .released ∧ t.session = s.session := by
  obtain ⟨w', w₃, rfl, hw, hlast⟩ := answers_append hw
  obtain ⟨w₁, w₂, rfl, hcommand, hframes⟩ := answers_append hw
  refine exec_finishes h fun hat => ?_
  simp only [List.append_assoc] at hat
  rw [List.append_assoc]
  refine (leads_pollCommand hcommand hack hat).ends fun t ht => ?_
  obtain ⟨_, _, _, _, hleads⟩ := leads_reportFrames hn hframes hgood ht
  exact hleads.ends fun _ hu => readByte_refused hlast hbad hu

/-- Settles O50: the frames that pass the checks are decoded, and the first that does not ends the request. -/
theorem pollReport : Obligations.PollReport := by
  unfold Obligations.PollReport
  intro s ack w rest hready hack
  refine ⟨fun st x y hw hgood => ?_, fun good bad hs hn hw hgood hbad => ?_⟩
  · obtain ⟨t, hexec, hended, hclk, hdat, hsession⟩ := exec_pollReport hready hack (by simpa only [List.append_assoc] using hw)
      fun z hz => frameError_good s.cfg (hgood z hz)
    exact ⟨t, _, hexec, by simpa only [List.append_assoc] using hended, hclk, hdat, hsession, rfl, toInt_sx16 .., toInt_sx16 ..⟩
  · have hcode : frameError s.cfg bad.data bad.parity bad.stop =
        some (if bad.parity = oddParity bad.data then .framingError else .parityError) := by
      rw [frameError_eq]
      by_cases hparity : bad.parity = oddParity bad.data
      · simp [hs, hparity, show bad.stop ≠ true from fun hstop => hbad ⟨hparity, hstop⟩]
      · simp [hs, hparity]
    exact exec_pollReport_refused hready hack hn hw (fun z hz => frameError_good s.cfg fun _ => hgood z hz) hcode

end Sys2Proof.Machine
end

section
/-! PROOFS of the statements of spec/42_byte_framing.md about a refused acknowledgment: it ends any request with a command exchange, at
that exchange (R84, R89, R111, R112). -/

namespace Sys2Proof.Machine

variable {c : Config} {req i : Instr} {s : State} {env w rest : List EnvMove} {dc dd : Drive} {rep : Option Report} {σ : SessionState}
  {accepted : List RxFrame} {refused : RxFrame}

/-! ### The requests but INITIALIZE -/

theorem requestNeeds_eq_exchangeNeeds (hi : i ≠ .initializeDevice) (replies : List RxFrame) :
    requestNeeds c i replies = exchangeNeeds c replies := by
  cases i with
  | initializeDevice => exact absurd rfl hi
  | _ => rfl

theorem requestEvents_eq_exchangeEvents (hi : i ≠ .initializeDevice) (xs : List (Byte × RxFrame)) :
    requestEvents c i xs = exchangeEvents c xs := by
  cases i with
  | initializeDevice => exact absurd rfl hi
  | _ => rfl

/-- R89 to R101: every request with a command exchange but INITIALIZE opens with its exchanges. -/
theorem refuses_request (hs : s.cfg.strict = .strict) (hi : i.commands = true) (hinit : i ≠ .initializeDevice) :
    Refuses s.cfg req (requestBody i s) σ (exchangePlan s.cfg σ i) := by
  cases i with
  | initializeDevice => exact absurd rfl hinit
  | pollReport => exact (exchanges_bytes hs [s.cfg.cmdReadData]).refused [.readByte .status]
  | setPolledMode | setContinuousMode | selectMode => exact refuses_select hs _ _ _
  | setSampleRate | setResolution | setScaling2to1 | setScaling1to1 => exact (exchanges_config hs _).refused []
  | enableReporting => exact (exchanges_enable hs).refused []
  | disableReporting => exact (exchanges_disable hs).refused []
  | _ => cases hi

/-! ### INITIALIZE -/

/-- R90: what INITIALIZE awaits before the reply to its reset byte. -/
def resetNeeds (c : Config) : List Need := [.any] ++ writeNeeds c ++ [.any]

/-- R90: the events of INITIALIZE before the reply to its reset byte. -/
def resetEvents (c : Config) : List Event :=
  [.rel .dat, .rel .clk, .dly c.tInitRelease] ++ writeEvents c c.cmdReset ++ [.dly c.tInitReset]

/-- R90: INITIALIZE up to the reply to its reset byte. -/
theorem leads_initializeReset (hw : answers (resetNeeds c) w = true)
    (h : At c req s ⟨initializeBody c, w ++ env, dc, dd, none, rep, σ⟩) :
    Leads c req s (resetEvents c) ⟨[.readByte .ack, .initMode, .delay .initFinal, .markInitialized], env, .drivenLow, .released,
      none, rep, σ⟩ := by
  obtain ⟨w', w₃, rfl, hw, hreset⟩ := answers_append hw
  obtain ⟨w₁, w₂, rfl, hrelease, hwrite⟩ := answers_append hw
  obtain ⟨m, rfl⟩ := answers_any hrelease
  obtain ⟨m', rfl⟩ := answers_any hreset
  simp only [List.append_assoc] at h
  rw [resetEvents, List.append_assoc]
  refine (leads_rel_dat h).bind (a := [_]) fun _ h₁ => (leads_rel_clk h₁).bind (a := [_]) fun _ h₂ =>
    (leads_delay h₂).bind (a := [_]) fun _ h₃ => (leads_writeByte hwrite h₃).bind fun _ h₄ => leads_delay h₄

/-- R89, R90: INITIALIZE refused at the reply to its reset byte, or at an exchange of its step 5. -/
theorem initialize_refused (hs : c.strict = .strict) (hn : accepted.length < (exchangePlan c σ .initializeDevice).length)
    (hw : answers (requestNeeds c .initializeDevice (accepted ++ [refused])) w = true)
    (haccepted : ∀ x ∈ accepted, replyAccepted c x = true) (hrefused : replyAccepted c refused = false)
    (h : At c req s ⟨initializeBody c, w ++ env, dc, dd, none, rep, σ⟩) :
    ∃ τ, (σ :: (exchangePlan c σ .initializeDevice).map Prod.snd)[accepted.length]? = some τ ∧
      Finishes c s (requestEvents c .initializeDevice
          (((exchangePlan c σ .initializeDevice).map Prod.fst).zip (accepted ++ [refused])))
        ⟨replyError refused, .none⟩ env .drivenLow .released τ := by
  have hplan : exchangePlan c σ .initializeDevice = (c.cmdReset, σ) :: (exchangePlan c σ .initializeDevice).tail := rfl
  generalize htail : (exchangePlan c σ .initializeDevice).tail = later at hplan
  rw [hplan] at hn ⊢
  cases accepted with
  | nil =>
    have hw : answers (resetNeeds c ++ readNeeds c refused ++ []) w = true := hw
    rw [List.append_nil] at hw
    obtain ⟨w₁, w₂, rfl, hreset, hreply⟩ := answers_append hw
    rw [List.append_assoc] at h
    refine ⟨σ, rfl, ?_⟩
    have hfinishes := (leads_initializeReset hreset h).ends fun _ ht => readAck_refused hs hreply hrefused ht
    simpa [requestEvents, resetEvents, exchangeEvents] using hfinishes
  | cons ack accepted =>
    have hw : answers (resetNeeds c ++ readNeeds c ack ++ exchangeNeeds c (accepted ++ [refused])) w = true := hw
    obtain ⟨w', w₃, rfl, hw, hlater⟩ := answers_append hw
    obtain ⟨w₁, w₂, rfl, hreset, hreply⟩ := answers_append hw
    simp only [List.append_assoc] at h
    obtain ⟨t, hreach, hcarried, ht⟩ := (leads_initializeReset hreset h).bind fun _ ht =>
      leads_readAck hreply (haccepted ack List.mem_cons_self) ht
    obtain ⟨τ, hτ, hfinishes⟩ := refuses_initMode hs _ accepted refused (htail ▸ Nat.lt_of_succ_lt_succ hn) hlater
      (fun x hx => haccepted x (List.mem_cons_of_mem _ hx)) hrefused ht
    rw [htail] at hτ hfinishes
    refine ⟨τ, hτ, ?_⟩
    obtain ⟨u, hreach', hcarried', hu⟩ := hfinishes
    exact ⟨u, hreach.trans hreach', hcarried.trans hcarried', hu⟩

/-! ### The refused exchange -/

/-- R89 to R101: every request with a command exchange, from its first pseudocode step. -/
theorem request_refused (hs : s.cfg.strict = .strict) (hi : i.commands = true)
    (hn : accepted.length < (exchangePlan s.cfg σ i).length)
    (hw : answers (requestNeeds s.cfg i (accepted ++ [refused])) w = true)
    (haccepted : ∀ x ∈ accepted, replyAccepted s.cfg x = true) (hrefused : replyAccepted s.cfg refused = false)
    {u : State} (h : At s.cfg req u ⟨requestBody i s, w ++ env, dc, dd, none, rep, σ⟩) :
    ∃ τ, (σ :: (exchangePlan s.cfg σ i).map Prod.snd)[accepted.length]? = some τ ∧
      Finishes s.cfg u (requestEvents s.cfg i (((exchangePlan s.cfg σ i).map Prod.fst).zip (accepted ++ [refused])))
        ⟨replyError refused, .none⟩ env .drivenLow .released τ := by
  by_cases hinit : i = .initializeDevice
  · subst hinit
    exact initialize_refused hs hn hw haccepted hrefused h
  · rw [requestNeeds_eq_exchangeNeeds hinit] at hw
    rw [requestEvents_eq_exchangeEvents hinit]
    exact refuses_request hs hi hinit accepted refused hn hw haccepted hrefused h

/-- Settles O54: the exchange that is refused ends the request there, with the session the exchanges before it left. -/
theorem refusedAcknowledgment : Obligations.RefusedAcknowledgment := by
  unfold Obligations.RefusedAcknowledgment
  intro i s accepted refused w rest hready hs hi plan hn haccepted hrefused hw
  obtain ⟨hframe, hreport⟩ := hready.inv.idle hready.idle
  obtain ⟨τ, hτ, hfinishes⟩ := request_refused hs hi hn hw haccepted hrefused (at_start hframe hreport hready.env)
  obtain ⟨t, hexec, hended, hclk, hdat, hsession⟩ := exec_finishes hready fun _ => hfinishes
  exact ⟨t, hexec, hended, hclk, hdat, hsession ▸ hτ⟩

end Sys2Proof.Machine
end

section
/-! PROOFS of the statements of spec/42_byte_framing.md about a write in every environment: its line-control events and delays (R81). -/

namespace Sys2Proof.Machine

variable {c : Config} {req : Instr} {s t u : State} {todo body : List Micro} {f f' : Option Frame} {lines d : List Event} {m : Micro}
  {l : Line} {e : Event}

/-! ### Steps that show the lines of their pseudocode, as far as they go -/

/-- R81: the line-control events and delays added from `s` to `t` are a beginning of `lines`, and all of them if the request has
responded OK with no payload. -/
def ShowsUpTo (s t : State) (lines : List Event) : Prop :=
  ∃ es, t.trace = s.trace ++ es ∧ lineEvents es <+: lines ∧
    (t.responses = s.responses ++ [⟨.ok, .none⟩] → lineEvents es = lines)

/-- Where nothing has happened yet. -/
theorem ShowsUpTo.start (htrace : t.trace = s.trace) (hresponses : t.responses = s.responses) : ShowsUpTo s t lines :=
  ⟨[], by rw [htrace, List.append_nil], List.nil_prefix, fun h => absurd (hresponses.symm.trans h) (by simp)⟩

/-- After a step that adds the events `d` and does not end the request. -/
theorem ShowsUpTo.after (h : ShowsUpTo u t lines) (htrace : u.trace = s.trace ++ d) (hresponses : u.responses = s.responses) :
    ShowsUpTo s t (lineEvents d ++ lines) := by
  obtain ⟨es, hes, hprefix, hall⟩ := h
  refine ⟨d ++ es, by rw [hes, htrace, List.append_assoc], ?_, fun hok => ?_⟩
  · rw [lineEvents_append]
    exact (List.prefix_append_right_inj _).mpr hprefix
  · rw [lineEvents_append, hall (hresponses ▸ hok)]

/-- The steps `todo`, from the frame `f` and in every environment, show a beginning of `lines`, and all of them if they end the request
with OK. -/
def Shown (c : Config) (req : Instr) (todo : List Micro) (f : Option Frame) (lines : List Event) : Prop :=
  ∀ s t : State, s.cfg = c → s.pos = .busy req todo → s.frame = f → s.Reaches t → ShowsUpTo s t lines

/-- R57: with no step left the request responds OK. -/
theorem Shown.done : Shown c req [] f [] := by
  intro s t _ hpos _ hreach
  rcases Relation.ReflTransGen.cases_head hreach with rfl | ⟨u, hmove, hreach⟩
  · exact .start rfl rfl
  · rw [State.Moves, State.tick_done hpos] at hmove; cases hmove
    obtain rfl := State.Reaches.eq_of_idle hreach rfl
    exact ⟨[], (List.append_nil _).symm, List.prefix_rfl, fun _ => rfl⟩

/-- A step that does not end the request: it adds the events `d` and puts the steps `body` in front. -/
theorem Shown.step (h : Shown c req (body ++ todo) f' lines)
    (hm : ∀ s u : State, s.cfg = c → s.frame = f → m.tick s = .moved u →
      u.cfg = s.cfg ∧ u.pos = s.pos.push body ∧ u.frame = f' ∧ u.responses = s.responses ∧ u.trace = s.trace ++ d) :
    Shown c req (m :: todo) f (lineEvents d ++ lines) := by
  intro s t hcfg hpos hframe hreach
  rcases Relation.ReflTransGen.cases_head hreach with rfl | ⟨u, hmove, hreach⟩
  · exact .start rfl rfl
  · obtain ⟨hcfg', hpos', hframe', hresponses, htrace⟩ :=
      hm (s.stepped req todo) u hcfg hframe ((State.tick_busy hpos).symm.trans hmove)
    exact (h u t (hcfg'.trans hcfg) hpos' hframe' hreach).after htrace hresponses

/-- A step that only puts steps in front. -/
theorem Shown.push (h : Shown c req (body ++ todo) f lines)
    (hm : ∀ s : State, s.cfg = c → s.frame = f → m.tick s = .moved (s.push body)) : Shown c req (m :: todo) f lines :=
  h.step (d := []) fun s u hcfg hframe hu => by
    rw [hm s hcfg hframe] at hu; cases hu
    exact ⟨rfl, rfl, hframe, rfl, (List.append_nil _).symm⟩

/-- A step that writes the frame, and puts steps in front. -/
theorem Shown.setFrame (h : Shown c req (body ++ todo) f' lines)
    (hm : ∀ s : State, s.frame = f → m.tick s = .moved ({ s with frame := f' }.push body)) :
    Shown c req (m :: todo) f lines :=
  h.step (d := []) fun s u _ hframe hu => by
    rw [hm s hframe] at hu; cases hu
    exact ⟨rfl, rfl, rfl, rfl, (List.append_nil _).symm⟩

/-- R64, R65, R66: a line-control step. -/
theorem Shown.onLine {x : Drive} (h : Shown c req todo f lines) (hm : ∀ s : State, m.tick s = .moved (s.onLine l x e))
    (he : lineEvents [e] = [e]) : Shown c req (m :: todo) f (e :: lines) := by
  have hstep := Shown.step (body := []) (d := [e]) (m := m) (f := f) h fun s u _ hframe hu => by
    rw [hm s] at hu; cases hu
    exact ⟨rfl, (Pos.push_nil _).symm, hframe, rfl, rfl⟩
  rwa [he] at hstep

/-- R71: a delay. -/
theorem Shown.delay {x : Delay} (h : Shown c req todo f lines) :
    Shown c req (.delay x :: todo) f (.dly (c.delayOf x) :: lines) :=
  Shown.step (body := []) (d := [.dly (c.delayOf x)]) h fun s u hcfg hframe hu => by
    obtain ⟨_, _, -, rfl⟩ := State.onDelay_cases hu
    obtain rfl := hcfg
    exact ⟨rfl, (Pos.push_nil _).symm, hframe, rfl, rfl⟩

/-! ### Waits -/

/-- R72, R73: the steps of a transfer wait. -/
def Micro.ofTransferWait : Micro → Bool
  | .wait _ _ | .poll _ _ | .bwait _ _ _ .transfer | .bwaitSample _ _ _ _ .transfer | .bwaitCheck _ _ _ _ .transfer => true
  | _ => false

/-- What a step of a transfer wait does: it adds only clock reads and samples, and it goes on waiting, is met, or ends the request with
BusTimeout (R110). -/
structure WaitStep (s u : State) : Prop where
  trace : ∃ d, u.trace = s.trace ++ d ∧ lineEvents d = []
  goes : (u.cfg = s.cfg ∧ u.frame = s.frame ∧ u.responses = s.responses ∧
      (u.pos = s.pos ∨ ∃ m, m.ofTransferWait = true ∧ u.pos = s.pos.push [m])) ∨
    (u.pos = .idle ∧ u.responses = s.responses ++ [⟨.busTimeout, .none⟩])

theorem WaitStep.onSample {k : Level → State → State} (h : s.onSample l k = .moved u)
    (hk : ∀ x a, WaitStep a (k x a)) : WaitStep s u := by
  obtain ⟨_, _, -, rfl⟩ := State.onSample_cases h
  obtain ⟨⟨d, htrace, hd⟩, hgoes⟩ := hk (s.levelAt l _) ((s.absorb _ _).emit (.smp l (s.levelAt l _)))
  exact ⟨⟨.smp l _ :: d, by rw [htrace, State.emit_trace, List.append_assoc]; rfl, hd⟩, hgoes⟩

theorem WaitStep.onNow {k : Time → State → State} (h : s.onNow k = .moved u)
    (hk : ∀ x a, WaitStep a (k x a)) : WaitStep s u := by
  obtain ⟨_, _, -, rfl⟩ := State.onNow_cases h
  obtain ⟨⟨d, htrace, hd⟩, hgoes⟩ := hk (clockReading s.cfg (s.now + _)) ((s.absorb _ _).emit (.now (clockReading s.cfg (s.now + _))))
  exact ⟨⟨.now _ :: d, by rw [htrace, State.emit_trace, List.append_assoc]; rfl, hd⟩, hgoes⟩

/-- The wait goes on. -/
theorem WaitStep.push (s : State) (hm : m.ofTransferWait = true) : WaitStep s (s.push [m]) :=
  ⟨⟨[], (List.append_nil _).symm, rfl⟩, .inl ⟨rfl, rfl, rfl, .inr ⟨m, hm, rfl⟩⟩⟩

/-- The wait is met. -/
theorem WaitStep.met (s : State) : WaitStep s s := ⟨⟨[], (List.append_nil _).symm, rfl⟩, .inl ⟨rfl, rfl, rfl, .inl rfl⟩⟩

/-- R110: the wait expires. -/
theorem WaitStep.expired (s : State) : WaitStep s (s.raise .busTimeout) :=
  ⟨⟨[], (List.append_nil _).symm, rfl⟩, .inr ⟨rfl, rfl⟩⟩

/-- R72, R73: every step of a transfer wait. -/
theorem waitStep_of_tick (hm : m.ofTransferWait = true) (h : m.tick s = .moved u) : WaitStep s u := by
  cases m with
  | wait l v =>
    rw [Micro.tick_wait] at h; cases h
    refine .push s ?_
    unfold waitLoop
    split <;> rfl
  | poll l v =>
    rw [Micro.tick_poll] at h
    refine .onSample h fun x a => ?_
    split
    · exact .met a
    · exact .push a rfl
  | bwait l v n use =>
    cases use with
    | diagnostic => cases hm
    | transfer => rw [Micro.tick_bwait] at h; exact .onNow h fun _ a => .push a rfl
  | bwaitSample l v n start use =>
    cases use with
    | diagnostic => cases hm
    | transfer =>
      rw [Micro.tick_bwaitSample] at h
      refine .onSample h fun x a => ?_
      split
      · exact .met a
      · exact .push a rfl
  | bwaitCheck l v n start use =>
    cases use with
    | diagnostic => cases hm
    | transfer =>
      rw [Micro.tick_bwaitCheck] at h
      refine .onNow h fun x a => ?_
      split
      · exact .expired a
      · exact .push a rfl
  | _ => cases hm

/-- R72, R73: a transfer wait, however long it lasts, shows no line of its own. -/
theorem Shown.wait (h : Shown c req todo f lines) (hm : m.ofTransferWait = true) : Shown c req (m :: todo) f lines := by
  intro s t hcfg hpos hframe hreach
  induction hreach using Relation.ReflTransGen.head_induction_on generalizing m with
  | refl => exact .start rfl rfl
  | @head s u hmove hreach ih =>
    have hstep : WaitStep (s.stepped req todo) u := waitStep_of_tick hm ((State.tick_busy hpos).symm.trans hmove)
    obtain ⟨⟨d, htrace, hd⟩, hgoes⟩ := hstep
    rcases hgoes with ⟨hcfg', hframe', hresponses, hnext⟩ | ⟨hidle, hresponses⟩
    · have hrest : ShowsUpTo u t lines := by
        rcases hnext with hpos' | ⟨m', hm', hpos'⟩
        · exact h u t (hcfg'.trans hcfg) hpos' (hframe'.trans hframe) hreach
        · exact ih hm' (hcfg'.trans hcfg) hpos' (hframe'.trans hframe)
      have hafter := hrest.after (s := s) htrace hresponses
      rwa [hd] at hafter
    · obtain rfl := State.Reaches.eq_of_idle hreach hidle
      refine ⟨d, htrace, hd ▸ List.nil_prefix, fun hok => ?_⟩
      cases List.append_cancel_left (hresponses.symm.trans hok)

/-! ### A write -/

/-- R68, R78: a sent bit is presented once. -/
theorem Shown.sendBit {b : Bool} (h : Shown c req todo f lines) :
    Shown c req (.sendBit b :: todo) f (presentEvent c b :: lines) := by
  have hpulse : Shown c req (waitPulseBody ++ todo) f lines := (h.wait rfl).wait rfl
  have hpresented : Shown c req (presentMicro c b :: (waitPulseBody ++ todo)) f (presentEvent c b :: lines) := by
    unfold presentMicro presentEvent
    cases b with
    | false => exact hpulse.onLine (fun s => Micro.tick_low s .dat) rfl
    | true =>
      cases c.dataOne with
      | release => exact hpulse.onLine (fun s => Micro.tick_rel s .dat) rfl
      | driveHigh => exact hpulse.onLine (fun s => Micro.tick_high s .dat) rfl
  have hpresent : Shown c req (sendBitBody b ++ todo) f (presentEvent c b :: lines) :=
    Shown.push (body := [presentMicro c b]) hpresented fun s hcfg _ => hcfg ▸ Micro.tick_present s b
  exact hpresent.push fun s _ _ => Micro.tick_sendBit s b

/-- R81 step 6: a data bit, whose frame then holds the accumulated parity. -/
theorem Shown.sendData {b : Byte} {p : Bool} {st : Option Bool} {i j : Fin 8}
    (h : Shown c req todo (some ⟨b, some (p ^^ byteBit b i), st, i⟩) lines) :
    Shown c req (.sendData i :: todo) (some ⟨b, some p, st, j⟩) (presentEvent c (byteBit b i) :: lines) := by
  have haccumulate : Shown c req (.accumulate i :: todo) (some ⟨b, some p, st, i⟩) lines :=
    Shown.setFrame (body := []) h fun s hframe => by
      simp only [Micro.tick_accumulate, stepAccumulate, hframe, State.push_nil]
  exact haccumulate.sendBit.setFrame (body := [.sendBit (byteBit b i), .accumulate i]) fun s hframe => by
    simp only [Micro.tick_sendData, stepSendData, hframe]

/-- R81 step 6: several data bits. -/
theorem Shown.sendDatas {b : Byte} {st : Option Bool} : ∀ (is : List (Fin 8)) {p : Bool} {j : Fin 8},
    (∀ j', Shown c req todo (some ⟨b, some (is.foldl (fun acc i => acc ^^ byteBit b i) p), st, j'⟩) lines) →
    Shown c req (is.map Micro.sendData ++ todo) (some ⟨b, some p, st, j⟩)
      ((is.map fun i => presentEvent c (byteBit b i)) ++ lines)
  | [], _, j, h => h j
  | _ :: is, _, _, h => .sendData (.sendDatas is h)

/-- R81 steps 7 to 9: the end of a write whose frame holds the parity `p`. -/
theorem Shown.writeEnd {b : Byte} {p : Bool} {st : Option Bool} {j : Fin 8} :
    Shown c req writeEndSteps (some ⟨b, some p, st, j⟩) [presentEvent c p, .rel .dat, .low .clk] := by
  have hclose {f : Option Frame} : Shown c req [.closeFrame] f [] :=
    Shown.setFrame (body := []) .done fun s _ => by rw [Micro.tick_closeFrame, State.push_nil]
  have hinhibit {f : Option Frame} : Shown c req [.low .clk, .closeFrame] f [.low .clk] :=
    hclose.onLine (fun s => Micro.tick_low s .clk) rfl
  have hstop {f : Option Frame} : Shown c req
      [.rel .dat, .wait .clk .low, .wait .clk .high, .wait .dat .low, .low .clk, .closeFrame] f [.rel .dat, .low .clk] :=
    (((hinhibit.wait rfl).wait rfl).wait rfl).onLine (fun s => Micro.tick_rel s .dat) rfl
  exact hstop.sendBit.push (body := [.sendBit p]) fun s _ hframe => by
    simp only [Micro.tick_sendParity, stepSendParity, hframe]

/-- R81 steps 6 to 9: a write from the opening of its frame. -/
theorem Shown.writeSlots {b : Byte} : Shown c req (.openWrite b :: bitIndices.map Micro.sendData ++ writeEndSteps) f
    ((bitIndices.map fun i => presentEvent c (byteBit b i)) ++ [presentEvent c (oddParity b), .rel .dat, .low .clk]) := by
  have hdatas (j : Fin 8) : Shown c req (bitIndices.map Micro.sendData ++ writeEndSteps) (some ⟨b, some true, none, j⟩)
      ((bitIndices.map fun i => presentEvent c (byteBit b i)) ++ [presentEvent c (oddParity b), .rel .dat, .low .clk]) :=
    .sendDatas bitIndices fun _ => by rw [foldl_parity]; exact .writeEnd
  exact (hdatas 0).setFrame (body := []) fun s _ => by rw [Micro.tick_openWrite, State.push_nil]

/-- R81: a whole write. -/
theorem Shown.writeByte {b : Byte} : Shown c req [.writeByte b] f (writeLineEvents c b) := by
  have hbody : Shown c req (writeByteBody b ++ []) f (writeLineEvents c b) := by
    rw [List.append_nil, writeByteBody, writeLineEvents, List.append_assoc, List.append_assoc]
    refine Shown.onLine ?_ (fun s => Micro.tick_rel s .dat) rfl
    refine Shown.onLine ?_ (fun s => Micro.tick_rel s .clk) rfl
    refine Shown.delay (x := .wrRelease) ?_
    refine Shown.onLine ?_ (fun s => Micro.tick_low s .clk) rfl
    refine Shown.delay (x := .wrInhibit) ?_
    refine Shown.onLine ?_ (fun s => Micro.tick_low s .dat) rfl
    refine Shown.delay (x := .wrStart) ?_
    refine Shown.onLine ?_ (fun s => Micro.tick_rel s .clk) rfl
    exact Shown.wait (m := .wait .clk .low) .writeSlots rfl
  exact hbody.push fun s _ _ => Micro.tick_writeByte s b

/-- Settles O38: the run of a write shows the lines of its pseudocode. -/
theorem writeByteLineEvents : Obligations.WriteByteLineEvents := by
  unfold Obligations.WriteByteLineEvents
  intro s t b hexec
  obtain ⟨-, hreach, -⟩ := exec_next hexec
  exact Shown.writeByte (req := .writeByte b) (s.stepped (.writeByte b) [.writeByte b]) t rfl rfl rfl hreach

end Sys2Proof.Machine
end

section
/-! PROOFS of the statements of spec/43_session.md: the session requests against a peripheral whose replies are accepted (R90 to R100,
R106), the requests that leave the session (R101, R104), the sign extension (R102), the table of bus bytes as an analyser reads it
(R107), and a disable that stands after a later timeout (R111). -/

namespace Sys2Proof.Machine

variable {c : Config} {req i : Instr} {s t : State} {todo : List Micro} {env w rest : List EnvMove} {dc dd : Drive} {rep : Option Report}
  {σ p q : SessionState} {replies : List RxFrame} {bytes : List Byte} {bus es es' : List Event} {xs ys : List Xfer}

/-! ### Requests that leave the session -/

/-- R101, R136: a request that writes no flag writes no session field. -/
theorem SessionWrites.eq_of_leavesFlags (h : SessionWrites i p q) (hi : i.writesFlags = false) : q = p := by
  have hmode : q.mode = p.mode := by
    by_contra hne
    rcases h.mode hne with ⟨rfl, -⟩ | ⟨rfl, -⟩ <;> cases hi
  have hinitialized : q.initialized = p.initialized := by
    by_contra hne
    obtain ⟨rfl, -⟩ := h.initialized hne
    cases hi
  have hflags : q.enabled = p.enabled ∧ q.disabled = p.disabled := by
    by_contra hne
    rw [h.flags (not_and_or.mp hne)] at hi
    cases hi
  cases p; cases q
  exact SessionState.mk.injEq .. ▸ ⟨hmode, hinitialized, hflags⟩

/-- Settles O18: the run of the request writes the session fields only as the request may. -/
theorem diagnosticsLeaveSession : Obligations.DiagnosticsLeaveSession := by
  unfold Obligations.DiagnosticsLeaveSession
  intro i s t hs hi hexec
  obtain ⟨hidle, hreach, -⟩ := exec_next hexec
  exact (hreach.sessionWrites (start_inv (rest := s.requests) hs hidle) rfl).eq_of_leavesFlags hi

/-- Settles O30: the one step of GET_PINS is its response. -/
theorem getPinsReturnsPins : Obligations.GetPinsReturnsPins := by
  unfold Obligations.GetPinsReturnsPins
  intro s hs hidle
  obtain ⟨hframe, hreport⟩ := hs.idle hidle
  have hstep : State.tick { s with pos := .busy .getPins (requestBody .getPins s) } =
      .moved ((s.stepped .getPins []).finish .ok (.pins s.clockPin s.dataPin)) := rfl
  rw [exec_of_reaches hidle (State.Moves.reaches hstep) rfl, finish_of_idle hidle hframe hreport]

/-- Settles O51. -/
theorem signExtension : Obligations.SignExtension :=
  ⟨fun _ _ _ => ⟨rfl, rfl, rfl⟩, fun b => ⟨rfl, rfl, toInt_sx16 b true, (toInt_sx16 b false).trans (Int.sub_zero _)⟩⟩

/-! ### The requests of one plan -/

/-- The steps still to do, written otherwise. -/
theorem At.todo_eq {todo' : List Micro} (h : At c req s ⟨todo, env, dc, dd, none, rep, σ⟩) (he : todo = todo') :
    At c req s ⟨todo', env, dc, dd, none, rep, σ⟩ :=
  he ▸ h

/-- R57: a request whose pseudocode makes the exchanges of a plan of one byte at least. -/
theorem exec_plan {plan : List Byte × SessionState} (h : s.Ready w rest) (hne : plan.1 ≠ [])
    (hl : At s.cfg i { s with pos := .busy i (requestBody i s) }
        ⟨requestBody i s, w ++ rest, s.driveClk, s.driveDat, none, none, s.session⟩ →
      LeadsPlan s.cfg i { s with pos := .busy i (requestBody i s) } plan replies [] rest s.driveClk s.driveDat none) :
    ∃ t, exec i s = .next t ∧ Ended s t rest ⟨.ok, .none⟩ (exchangeEvents s.cfg (plan.1.zip replies)) ∧
      t.driveClk = .drivenLow ∧ t.driveDat = .released ∧ t.session = plan.2 := by
  obtain ⟨t, hexec, hended, hclk, hdat, hsession⟩ := exec_leads (r := ⟨.ok, .none⟩) h hl fun _ ht => end_ok ht rfl
  exact ⟨t, hexec, hended, by simpa [driveAfter, hne] using hclk, by simpa [driveAfter, hne] using hdat, hsession⟩

/-- R94, R97 to R100: a configuration command. -/
theorem exec_config (h : s.Ready w rest) (hbody : requestBody i s = configBody bytes) (hne : bytes ≠ [])
    (hn : replies.length = (configPlan s.cfg bytes s.session).1.length) (hw : answers (exchangeNeeds s.cfg replies) w = true)
    (hx : ∀ x ∈ replies, replyAccepted s.cfg x = true) :
    ∃ t, exec i s = .next t ∧
      Ended s t rest ⟨.ok, .none⟩ (exchangeEvents s.cfg ((configPlan s.cfg bytes s.session).1.zip replies)) ∧
      t.driveClk = .drivenLow ∧ t.driveDat = .released ∧ t.session = (configPlan s.cfg bytes s.session).2 :=
  exec_plan h (configPlan_ne hne _) fun hat => leads_config hn hw hx (hat.todo_eq hbody)

/-- Settles O49, one case for each command. -/
theorem configurationCommands : Obligations.ConfigurationCommands := by
  unfold Obligations.ConfigurationCommands
  intro s rate value replies w rest hready x hmem hn hw hx
  simp only [List.mem_cons, List.not_mem_nil, or_false] at hmem
  rcases hmem with rfl | rfl | rfl | rfl <;> exact exec_config hready rfl (List.cons_ne_nil _ _) hn hw hx

/-! ### The mode selections -/

/-- R91: SELECT_MODE. -/
theorem leads_selectMode {b : Byte} {m : Mode} (hn : replies.length = (selectPlan c b m σ).1.length)
    (hw : answers (exchangeNeeds c replies ++ settleNeeds σ) w = true) (hx : ∀ x ∈ replies, replyAccepted c x = true)
    (h : At c req s ⟨.selectMode b m :: todo, w ++ env, dc, dd, none, rep, σ⟩) :
    Leads c req s (exchangeEvents c ((selectPlan c b m σ).1.zip replies) ++ settleEvents c σ)
      ⟨todo, env, .drivenLow, .released, none, rep, (selectPlan c b m σ).2⟩ := by
  obtain ⟨w₁, w₂, rfl, hexchanges, hsettle⟩ := answers_append hw
  rw [List.append_assoc] at h
  rw [← settleNeeds_eq (selectPlan_init b m σ)] at hsettle
  have hleads := (leads_select hn hexchanges hx h).bind fun _ hu => leads_settle hsettle hu
  rw [settleEvents_eq (selectPlan_init b m σ)] at hleads
  simpa [driveAfter, selectPlan_ne] using hleads

/-- Settles O45: the run leads through the exchanges and the settle delay to its end. -/
theorem selectMode : Obligations.SelectMode := by
  unfold Obligations.SelectMode
  intro s b m replies w rest hready hn hw hx
  obtain ⟨t, hexec, hended, hclk, hdat, hsession⟩ := exec_leads (i := .selectMode b m) (r := ⟨.ok, .none⟩) hready
    (leads_selectMode (todo := []) hn hw hx) fun _ ht => end_ok ht rfl
  refine ⟨t, hexec, hended, hclk, hdat, hsession, ?_⟩
  calc t.mode
    _ = (selectPlan s.cfg b m s.session).2.mode := congrArg SessionState.mode hsession
    _ = s.mode := selectPlan_mode b m s.session

/-- R92, R93: a request that is a mode selection, then the mode write. -/
theorem exec_setMode {b : Byte} {m : Mode} (h : s.Ready w rest) (hbody : requestBody i s = [.selectMode b m, .recordMode m])
    (hn : replies.length = (selectPlan s.cfg b m s.session).1.length)
    (hw : answers (exchangeNeeds s.cfg replies ++ settleNeeds s.session) w = true)
    (hx : ∀ x ∈ replies, replyAccepted s.cfg x = true) :
    ∃ t, exec i s = .next t ∧
      Ended s t rest ⟨.ok, .none⟩
        (exchangeEvents s.cfg ((selectPlan s.cfg b m s.session).1.zip replies) ++ settleEvents s.cfg s.session) ∧
      t.driveClk = .drivenLow ∧ t.driveDat = .released ∧
      t.session = { (selectPlan s.cfg b m s.session).2 with mode := m } :=
  exec_leads h (fun hat => leads_setMode hn hw hx (hat.todo_eq hbody)) fun _ ht => end_ok ht rfl

/-- Settles O46, one case for each mode. -/
theorem setModes : Obligations.SetModes := by
  unfold Obligations.SetModes
  intro s m replies w rest hready i b hn hw hx
  cases m with
  | polled => exact exec_setMode hready rfl hn hw hx
  | continuous => exact exec_setMode hready rfl hn hw hx

/-- Settles O53: from Polled the first request enables reporting, and in Continuous mode the second disables it. -/
theorem modeRoundTrip : Obligations.ModeRoundTrip := by
  unfold Obligations.ModeRoundTrip
  intro s a b c d w₁ w₂ rest hready hpolicy hguard hmode henabled hdisabled hw₁ hw₂ hx
  simp only [List.forall_mem_cons] at hx
  obtain ⟨ha, hb, hc, hd, -⟩ := hx
  have hsession : s.session = ⟨.polled, s.initialized, false, false⟩ := by
    simp only [State.session, hmode, henabled, hdisabled]
  have hfirst : selectPlan s.cfg s.cfg.cmdSetContinuous .continuous s.session =
      ([s.cfg.cmdSetContinuous, s.cfg.cmdEnable], ⟨.polled, s.initialized, true, false⟩) := by
    simp [hsession, selectPlan, pausePlan, enablePlan, hpolicy, hguard]
  obtain ⟨t, hexec, hended, -, -, ht⟩ := exec_setMode (i := .setContinuousMode) (replies := [a, b]) hready rfl (by rw [hfirst]; rfl)
    hw₁ (by simp [ha, hb])
  rw [hfirst] at ht
  have hsecond : selectPlan t.cfg t.cfg.cmdSetPolled .polled t.session =
      ([s.cfg.cmdDisable, s.cfg.cmdSetPolled], ⟨.continuous, s.initialized, false, true⟩) := by
    simp [ht, hended.cfg, selectPlan, pausePlan, disablePlan, hpolicy, hguard]
  have hsettle : settleNeeds t.session = settleNeeds s.session := settleNeeds_eq (by rw [ht, hsession])
  obtain ⟨u, hexec', hended', -, -, hu⟩ := exec_setMode (i := .setPolledMode) (replies := [c, d]) (hended.ready hready hexec) rfl
    (by rw [hsecond]; rfl) (by rwa [hended.cfg, hsettle]) (by simp [hended.cfg, hc, hd])
  rw [hsecond] at hu
  refine ⟨t, u, hexec, hexec', ht, hu, hended'.env, ?_⟩
  rw [hended'.responses, hended.responses, List.append_assoc]
  rfl

/-! ### INITIALIZE -/

@[simp] theorem driveAfter_clk_inhibited (bytes : List Byte) : driveAfter bytes .clk .drivenLow = .drivenLow := by
  simp [driveAfter]

@[simp] theorem driveAfter_dat_released (bytes : List Byte) : driveAfter bytes .dat .released = .released := by
  simp [driveAfter]

/-- R92: recording the mode that is recorded already changes nothing. -/
theorem SessionState.with_mode {m : Mode} (h : p.mode = m) : { p with mode := m } = p := by
  cases h; rfl

/-- R90 step 5, the bus inhibited. -/
theorem leads_initMode (hn : replies.length = (initializePlan c σ).1.length)
    (hw : answers (exchangeNeeds c replies ++ if σ.mode = .polled then settleNeeds σ else []) w = true)
    (hx : ∀ x ∈ replies, replyAccepted c x = true)
    (h : At c req s ⟨.initMode :: todo, w ++ env, .drivenLow, .released, none, rep, σ⟩) :
    Leads c req s (exchangeEvents c ((initializePlan c σ).1.zip replies) ++ if σ.mode = .polled then settleEvents c σ else [])
      ⟨todo, env, .drivenLow, .released, none, rep, (initializePlan c σ).2⟩ := by
  have hmode := session_mode h
  cases hm : σ.mode with
  | polled =>
    simp only [initializePlan, hm, if_true] at hn hw ⊢
    have hcall := leads_push (body := [.setPolledMode]) h (by simp only [Micro.tick_initMode, stepInitMode, State.stepped, hmode, hm])
    refine hcall.silentBind fun t ht => ?_
    have hbody := leads_push (body := setPolledModeBody c) ht
      (by simp only [Micro.tick_setPolledMode, State.stepped, ht.cfg])
    rw [← SessionState.with_mode ((selectPlan_mode c.cmdSetPolled .polled σ).trans hm)]
    exact hbody.silentBind fun _ hu => leads_setMode hn hw hx hu
  | continuous =>
    simp only [initializePlan, hm, reduceCtorEq, if_false, List.append_nil] at hn hw ⊢
    have hcall := leads_push (body := [.enableReporting]) h (by simp only [Micro.tick_initMode, stepInitMode, State.stepped, hmode, hm])
    refine hcall.silentBind fun t ht => ?_
    simpa [LeadsPlan] using leads_enable hn hw hx ht

/-- R90: INITIALIZE up to its end. -/
theorem leads_initialize {ack : RxFrame} (hn : replies.length = (initializePlan c σ).1.length)
    (hw : answers (initializeNeeds c σ ack replies) w = true) (hack : replyAccepted c ack = true)
    (hx : ∀ x ∈ replies, replyAccepted c x = true)
    (h : At c req s ⟨initializeBody c, w ++ env, dc, dd, none, rep, σ⟩) :
    Leads c req s (initializeEvents c σ ack replies)
      ⟨[], env, .drivenLow, .released, none, rep, { (initializePlan c σ).2 with initialized := true }⟩ := by
  have hneeds : initializeNeeds c σ ack replies = resetNeeds c ++ (readNeeds c ack ++
      ((exchangeNeeds c replies ++ if σ.mode = .polled then settleNeeds σ else []) ++ [.any])) := by
    simp only [initializeNeeds, resetNeeds, List.append_assoc]
  have hevents : initializeEvents c σ ack replies = resetEvents c ++ (readEvents c ack ++
      ((exchangeEvents c ((initializePlan c σ).1.zip replies) ++ if σ.mode = .polled then settleEvents c σ else []) ++
        [.dly c.tInitFinal])) := by
    simp only [initializeEvents, resetEvents, List.append_assoc]
  rw [hneeds] at hw
  obtain ⟨w₁, w', rfl, hreset, hw⟩ := answers_append hw
  obtain ⟨w₂, w', rfl, hreply, hw⟩ := answers_append hw
  obtain ⟨w₃, w₄, rfl, hmode, hfinal⟩ := answers_append hw
  obtain ⟨m, rfl⟩ := answers_any hfinal
  simp only [List.append_assoc] at h
  rw [hevents]
  exact (leads_initializeReset hreset h).bind fun _ h₁ => (leads_readAck hreply hack h₁).bind fun _ h₂ =>
    (leads_initMode hn hmode hx h₂).bind fun _ h₃ => (leads_delay h₃).bindSilent fun _ h₄ => leads_markInitialized h₄

/-- Settles O44: the run leads to its end. -/
theorem initializeRequest : Obligations.Initialize := by
  unfold Obligations.Initialize
  intro s ack replies w rest hready hn hw hack hx
  exact exec_leads (i := .initializeDevice) (r := ⟨.ok, .none⟩) hready (leads_initialize hn hw hack hx) fun _ ht => end_ok ht rfl

/-! ### A disable that stands -/

/-- R94, R111: a configuration command whose disable completes and whose next write expires at step 5. -/
theorem config_expires {b : Byte} {reply : RxFrame} (hb : c.waitPolicy = .bounded) (htw : c.noWrap w) (hmode : σ.mode = .continuous)
    (hdisabled : σ.disabled = false)
    (hw : answers (exchangeNeeds c [reply] ++ (startNeeds ++ timeoutNeeds c .clk .low)) w = true)
    (hreply : replyAccepted c reply = true)
    (h : At c req s ⟨configBody (b :: bytes), w ++ env, dc, dd, none, rep, σ⟩) :
    Finishes c s (writeEvents c c.cmdDisable ++ readEvents c reply ++ (writeStartEvents c ++ [.smp .clk .high]))
      ⟨.busTimeout, .none⟩ env .released .drivenLow (disablePlan c σ).2 := by
  obtain ⟨w₁, w₂, rfl, hdisable, hsilent⟩ := answers_append hw
  rw [List.append_assoc] at h
  have hplan : pausePlan c σ = ([c.cmdDisable], (disablePlan c σ).2) := by simp [pausePlan, disablePlan, hmode, hdisabled]
  have hpause := leads_pause (replies := [reply]) (by rw [hplan]; rfl) hdisable (by simpa using hreply) h
  rw [LeadsPlan, hplan] at hpause
  have hbus : exchangeEvents c ([c.cmdDisable].zip [reply]) = writeEvents c c.cmdDisable ++ readEvents c reply := by
    simp [exchangeEvents]
  rw [← hbus]
  exact hpause.ends fun _ ht => (leads_push ht (Micro.tick_sendCmd _ b)).ends (a := []) fun _ hu =>
    writeByte_expires hb (Config.noWrap_append htw).2 hsilent hu

/-- Settles O56: the disable of the pause completes, and the command's first write expires. -/
theorem completedDisableStands : Obligations.CompletedDisableStands := by
  unfold Obligations.CompletedDisableStands
  intro i s reply w rest hready hb htw hmode hdisabled hi hw hreply
  obtain ⟨b, bytes, hbody⟩ : ∃ b bytes, requestBody i s = configBody (b :: bytes) := by
    rcases hi with rfl | rfl | ⟨b, rfl | rfl⟩ <;> exact ⟨_, _, rfl⟩
  rw [List.append_assoc] at hw
  obtain ⟨t, hexec, hended, hclk, hdat, hsession⟩ := exec_finishes hready fun hat =>
    config_expires (b := b) (bytes := bytes) hb htw hmode hdisabled hw hreply (hat.todo_eq hbody)
  simp only [disablePlan, State.session, hdisabled, Bool.false_eq_true, if_false, SessionState.mk.injEq] at hsession
  obtain ⟨htmode, hinitialized, henabled, htdisabled⟩ := hsession
  exact ⟨t, hexec, by simpa only [List.append_assoc] using hended, hclk, hdat, htmode, hinitialized, htdisabled, henabled⟩

/-! ### The bytes an analyser reads off the bus -/

/-- R79: a received slot before the last of a frame. -/
theorem Analyser.after_recvBit (a : Analyser) (b : Bool) (hw : a.writing = none) (hr : a.reading.length < 9) :
    a.after (recvBitEvents b) = { a with lastClk := .high, reading := a.reading ++ [b] } := by
  have hbit : (Level.ofBit b).bit = b := by cases b <;> rfl
  simp [Analyser.after, recvBitEvents, Analyser.see, hw, hr.ne, hbit]

/-- R48: the last slot of a received frame. -/
theorem Analyser.after_lastBit (a : Analyser) (b : Bool) (hw : a.writing = none) (hr : a.reading.length = 9) :
    a.after (recvBitEvents b) =
      { a with lastClk := .high, reading := [], bytes := a.bytes ++ [.read (byteOfBits (a.reading.take 8))] } := by
  simp [Analyser.after, recvBitEvents, Analyser.see, hw, hr]

/-- R79: several received slots before the last of a frame. -/
theorem Analyser.after_recvBits : ∀ (bits : List Bool) (a : Analyser), a.writing = none → a.lastClk = .high →
    a.reading.length + bits.length ≤ 9 → a.after (bits.map recvBitEvents).flatten = { a with reading := a.reading ++ bits }
  | [], a, _, _, _ => by rw [List.append_nil]; rfl
  | b :: bits, a, hw, hclk, hlength => by
    rw [List.length_cons] at hlength
    rw [List.map_cons, List.flatten_cons, Analyser.after_append, a.after_recvBit b hw (by omega), ← hclk,
      Analyser.after_recvBits bits { a with reading := a.reading ++ [b] } hw hclk (by simp; omega), List.append_assoc]
    rfl

/-- R83: a read up to its first data bit, as an analyser sees it: data is released before the clock, so no write opens. -/
theorem Analyser.after_readStart (a : Analyser) (hw : a.writing = none) :
    a.after [.rel .dat, .rel .clk, .dly c.tRdRelease, .smp .clk .low, .smp .clk .high, .dly c.tRdStart] =
      { a with clkLow := false, datLow := false, lastClk := .high } := by
  simp [Analyser.after, Analyser.see, hw]

/-- R83: the received slots of a read. -/
theorem readEvents_eq (c : Config) (x : RxFrame) : readEvents c x =
    [.rel .dat, .rel .clk, .dly c.tRdRelease, .smp .clk .low, .smp .clk .high, .dly c.tRdStart] ++
      (((bitIndices.map (byteBit x.data) ++ [x.parity]).map recvBitEvents).flatten ++ (recvBitEvents x.stop ++ [.low .clk])) := by
  simp [readEvents, List.map_map, Function.comp_def]

/-- R48: the ten slots of a received frame are one byte. -/
theorem Analyser.after_frame (a : Analyser) (x : RxFrame) (hw : a.writing = none) (hclk : a.lastClk = .high) (hr : a.reading = []) :
    a.after (((bitIndices.map (byteBit x.data) ++ [x.parity]).map recvBitEvents).flatten ++ recvBitEvents x.stop) =
      { a with reading := [], bytes := a.bytes ++ [.read x.data] } := by
  have hdata : (bitIndices.map (byteBit x.data) ++ [x.parity]).take 8 = bitIndices.map (byteBit x.data) := rfl
  rw [Analyser.after_append, a.after_recvBits _ hw hclk (by rw [hr]; exact le_rfl), hr, List.nil_append,
    Analyser.after_lastBit { a with reading := bitIndices.map (byteBit x.data) ++ [x.parity] } _ hw rfl, hdata, byteOfBits_byteBit,
    ← hclk]

/-- R83: a whole read, as an analyser sees it: one byte. -/
theorem Analyser.after_readEvents (a : Analyser) (x : RxFrame) (hw : a.writing = none) (hr : a.reading = []) :
    a.after (readEvents c x) =
      { a with clkLow := true, datLow := false, lastClk := .high, reading := [], bytes := a.bytes ++ [.read x.data] } := by
  rw [readEvents_eq, ← List.append_assoc _ (recvBitEvents x.stop), Analyser.after_append, Analyser.after_append, a.after_readStart hw,
    Analyser.after_frame { a with clkLow := false, datLow := false, lastClk := .high } x hw rfl hr]
  rfl

/-- R107: an analyser with no byte in progress reads the bytes `xs` off the events `es`, and is left with none in progress. -/
def PutsOnBus (es : List Event) (xs : List Xfer) : Prop :=
  ∀ a : Analyser, a.writing = none → a.reading = [] →
    (a.after es).writing = none ∧ (a.after es).reading = [] ∧ (a.after es).bytes = a.bytes ++ xs

theorem PutsOnBus.nil : PutsOnBus [] [] := fun _ hw hr => ⟨hw, hr, (List.append_nil _).symm⟩

theorem PutsOnBus.append (h : PutsOnBus es xs) (g : PutsOnBus es' ys) : PutsOnBus (es ++ es') (xs ++ ys) := by
  intro a hw hr
  obtain ⟨hw', hr', hbytes⟩ := h a hw hr
  obtain ⟨hw'', hr'', hbytes'⟩ := g _ hw' hr'
  rw [Analyser.after_append]
  exact ⟨hw'', hr'', by rw [hbytes', hbytes, List.append_assoc]⟩

/-- R71: a delay puts no byte on the bus. -/
theorem PutsOnBus.delay (n : Time) : PutsOnBus [.dly n] [] := .nil

/-- R69: releasing both lines, data first, opens no write. -/
theorem PutsOnBus.releaseBoth : PutsOnBus [.rel .dat, .rel .clk] [] := by
  intro a hw hr
  simp [Analyser.after, Analyser.see, hw, hr]

/-- R81: a write puts its byte on the bus. -/
theorem PutsOnBus.write (c : Config) (v : Byte) : PutsOnBus (writeEvents c v) [.wrote v] := by
  intro a _ hr
  rw [Analyser.after_writeEvents]
  exact ⟨rfl, hr, rfl⟩

/-- R83: a read takes its frame's byte off the bus. -/
theorem PutsOnBus.read (c : Config) (x : RxFrame) : PutsOnBus (readEvents c x) [.read x.data] := by
  intro a hw hr
  rw [a.after_readEvents x hw hr]
  exact ⟨hw, rfl, rfl⟩

/-- R83: several reads. -/
theorem PutsOnBus.reads (c : Config) : ∀ frames : List RxFrame,
    PutsOnBus (frames.map (readEvents c)).flatten (frames.map fun x => .read x.data)
  | [] => .nil
  | x :: frames => (PutsOnBus.read c x).append (PutsOnBus.reads c frames)

/-- R89: a byte written and a frame read. -/
theorem PutsOnBus.exchange (c : Config) (b : Byte) (x : RxFrame) :
    PutsOnBus (writeEvents c b ++ readEvents c x) [.wrote b, .read x.data] :=
  (PutsOnBus.write c b).append (.read c x)

/-- R89: several command exchanges. -/
theorem PutsOnBus.exchanges (c : Config) : ∀ pairs : List (Byte × RxFrame), PutsOnBus (exchangeEvents c pairs) (exchangeBytes pairs)
  | [] => .nil
  | (b, x) :: pairs => (PutsOnBus.exchange c b x).append (PutsOnBus.exchanges c pairs)

/-- R91 step 4: the settle delay, if any. -/
theorem PutsOnBus.settle (c : Config) (p : SessionState) : PutsOnBus (settleEvents c p) [] := by
  unfold settleEvents
  split
  · exact .delay _
  · exact .nil

/-- R90: INITIALIZE puts the reset byte and those of its step 5 on the bus. -/
theorem PutsOnBus.initializeDevice (c : Config) (p : SessionState) (ack : RxFrame) (replies : List RxFrame) :
    PutsOnBus (initializeEvents c p ack replies) (exchangeBytes ((c.cmdReset :: (initializePlan c p).1).zip (ack :: replies))) := by
  have hsettle : PutsOnBus (if p.mode = .polled then settleEvents c p else []) [] := by
    split
    · exact .settle c p
    · exact .nil
  have hall := ((((((PutsOnBus.releaseBoth.append (.delay c.tInitRelease)).append (.write c c.cmdReset)).append
    (.delay c.tInitReset)).append (.read c ack)).append (.exchanges c ((initializePlan c p).1.zip replies))).append hsettle).append
    (.delay c.tInitFinal)
  simpa [initializeEvents, exchangeBytes] using hall

/-- R107: the bytes an analyser reads off a trace with these bus events. -/
theorem PutsOnBus.bytesOnBus_eq (h : PutsOnBus (busEvents es) xs) : bytesOnBus es = xs := by
  calc bytesOnBus es
    _ = bytesOnBus (busEvents es) := congrArg Analyser.bytes (Analyser.after_busEvents _ es).symm
    _ = xs := (h _ rfl rfl).2.2

/-- Settles O48: the first request makes its one exchange and sets the flag, so the second does nothing. -/
theorem enableTwiceSendsOnce : Obligations.EnableTwiceSendsOnce := by
  unfold Obligations.EnableTwiceSendsOnce
  intro s reply w rest hready hw hreply hflag
  obtain ⟨t, hexec, hended, -, -, hsession⟩ := exec_enableReporting hready hw hreply hflag
  have henabled : t.reportingEnabled = true := by
    calc t.reportingEnabled
      _ = (enablePlan s.cfg s.session).2.enabled := congrArg SessionState.enabled hsession
      _ = true := by simp [enablePlan, State.session, hflag]
  have ht : t.Ready [] rest := Ended.ready (w := []) hended hready hexec
  have hexec' : exec .enableReporting t = .next { t with responses := t.responses ++ [⟨.ok, .none⟩] } :=
    exec_of_noop ht.inv ht.idle rfl (if_pos henabled)
  obtain ⟨es, htrace, hbus⟩ := hended.bus
  refine ⟨t, _, es, hexec, hexec', htrace, ?_, ?_, hended.env, henabled⟩
  · exact PutsOnBus.bytesOnBus_eq (hbus ▸ .exchange _ _ reply)
  · rw [hended.responses, List.append_assoc]; rfl

/-! ### The table of bus bytes -/

/-- R107: the bytes the requests of the table write, and the session they leave but for `initialized`. -/
def trafficPlan (c : Config) (p : SessionState) : Instr → List Byte × SessionState
  | .initializeDevice => (c.cmdReset :: (initializePlan c p).1, (initializePlan c p).2)
  | .setPolledMode => selectPlan c c.cmdSetPolled .polled p
  | .setContinuousMode => selectPlan c c.cmdSetContinuous .continuous p
  | .enableReporting => enablePlan c p
  | .disableReporting => disablePlan c p
  | .setSampleRate r => configPlan c [c.cmdSetSampleRate, r] p
  | .setResolution n => configPlan c [0xE8, n] p
  | .setScaling2to1 => configPlan c [c.cmdScaling2to1] p
  | .setScaling1to1 => configPlan c [c.cmdScaling1to1] p
  | .pollReport => ([c.cmdReadData], p)
  | .getPins | .selectMode _ _ | .writeByte _ | .readByte | .waitClockBounded _ _ | .driveLow _ | .driveHigh _ | .release _
  | .sample _ | .sendBit _ | .recvBit | .waitLevel _ _ => ([], p)

/-- R107: a plan makes a row of the table. -/
def MakesRow (plan : List Byte × SessionState) (row : List Byte × Bool × Bool) : Prop :=
  plan.1 = row.1 ∧ plan.2.enabled = row.2.1 ∧ plan.2.disabled = row.2.2

variable {row : List Byte × Bool × Bool}

/-- R107: the rows of a configuration command. -/
theorem configPlan_makes (hpolicy : c.flagPolicy = .exclusive) (h : trafficRow.bracketedRow c p bytes = some row) :
    MakesRow (configPlan c bytes p) row := by
  unfold trafficRow.bracketedRow at h
  split at h
  · next hmode => cases h; simp [MakesRow, configPlan, pausePlan, resumePlan, hmode]
  · next hmode _ hdisabled =>
    cases h
    simp [MakesRow, configPlan, pausePlan, resumePlan, disablePlan, enablePlan, hpolicy, hmode, hdisabled]
  · cases h

/-- R107: under Exclusive and Target the plan of a request makes its row of the table, where it has one. -/
theorem trafficPlan_makes (hpolicy : c.flagPolicy = .exclusive) (hguard : c.reenableGuard = .target)
    (h : trafficRow c p i = some row) : MakesRow (trafficPlan c p i) row := by
  cases i with
  | initializeDevice =>
    simp only [trafficRow] at h
    split at h <;> cases h
    · next hmode => simp [MakesRow, trafficPlan, initializePlan, selectPlan, pausePlan, hguard, hmode]
    · next hmode henabled => simp [MakesRow, trafficPlan, initializePlan, enablePlan, hpolicy, hmode, henabled]
    · next hmode henabled => simp [MakesRow, trafficPlan, initializePlan, enablePlan, hmode, henabled]
  | setPolledMode =>
    simp only [trafficRow] at h
    split at h <;> cases h
    · next hmode => simp [MakesRow, trafficPlan, selectPlan, pausePlan, hguard, hmode]
    · next hmode hdisabled => simp [MakesRow, trafficPlan, selectPlan, pausePlan, disablePlan, hpolicy, hguard, hmode, hdisabled]
  | setContinuousMode =>
    simp only [trafficRow] at h
    split at h <;> cases h
    · next hmode henabled => simp [MakesRow, trafficPlan, selectPlan, pausePlan, enablePlan, hpolicy, hguard, hmode, henabled]
    · next hmode _ hdisabled =>
      simp [MakesRow, trafficPlan, selectPlan, pausePlan, disablePlan, enablePlan, hpolicy, hguard, hmode, hdisabled]
  | enableReporting =>
    simp only [trafficRow] at h
    split at h <;> cases h
    · next henabled => simp [MakesRow, trafficPlan, enablePlan, henabled]
    · next henabled => simp [MakesRow, trafficPlan, enablePlan, hpolicy, henabled]
  | disableReporting =>
    simp only [trafficRow] at h
    split at h <;> cases h
    · next hdisabled => simp [MakesRow, trafficPlan, disablePlan, hdisabled]
    · next hdisabled => simp [MakesRow, trafficPlan, disablePlan, hpolicy, hdisabled]
  | setSampleRate | setResolution | setScaling2to1 | setScaling1to1 => exact configPlan_makes hpolicy h
  | pollReport | getPins => cases h; exact ⟨rfl, rfl, rfl⟩
  | _ => cases h

/-- R84, R89: in lenient mode every reply is accepted. -/
theorem replyAccepted_of_lenient (hs : c.strict = .lenient) (x : RxFrame) : replyAccepted c x = true := by
  simp [replyAccepted, frameError, ackAccepted, hs]

/-- R107: the request `i` answers OK in `s`, putting the bytes `xs` on the bus and leaving the flags of `p`. -/
def Transfers (i : Instr) (s : State) (rest : List EnvMove) (xs : List Xfer) (p : SessionState) : Prop :=
  ∃ t payload bus, exec i s = .next t ∧ Ended s t rest ⟨.ok, payload⟩ bus ∧ PutsOnBus bus xs ∧
    t.reportingEnabled = p.enabled ∧ t.reportingDisabled = p.disabled

/-- R107: a request whose pseudocode makes the exchanges of its plan, maybe none, and nothing else. -/
theorem transfers_of_plan {plan : List Byte × SessionState} (h : s.Ready w rest)
    (hl : At s.cfg i { s with pos := .busy i (requestBody i s) }
        ⟨requestBody i s, w ++ rest, s.driveClk, s.driveDat, none, none, s.session⟩ →
      LeadsPlan s.cfg i { s with pos := .busy i (requestBody i s) } plan replies [] rest s.driveClk s.driveDat none) :
    Transfers i s rest (exchangeBytes (plan.1.zip replies)) plan.2 := by
  obtain ⟨t, hexec, hended, -, -, hsession⟩ := exec_leads (r := ⟨.ok, .none⟩) h hl fun _ ht => end_ok ht rfl
  exact ⟨t, _, _, hexec, hended, .exchanges _ _, congrArg SessionState.enabled hsession, congrArg SessionState.disabled hsession⟩

/-- R107: a request that is a mode selection, then the mode write. -/
theorem transfers_of_setMode {b : Byte} {m : Mode} (h : s.Ready w rest) (hs : s.cfg.strict = .lenient)
    (hbody : requestBody i s = [.selectMode b m, .recordMode m]) (hn : replies.length = (selectPlan s.cfg b m s.session).1.length)
    (hw : answers (exchangeNeeds s.cfg replies ++ settleNeeds s.session) w = true) :
    Transfers i s rest (exchangeBytes ((selectPlan s.cfg b m s.session).1.zip replies)) (selectPlan s.cfg b m s.session).2 := by
  obtain ⟨t, hexec, hended, -, -, hsession⟩ := exec_setMode h hbody hn hw fun x _ => replyAccepted_of_lenient hs x
  have hbus := (PutsOnBus.exchanges s.cfg ((selectPlan s.cfg b m s.session).1.zip replies)).append (.settle s.cfg s.session)
  rw [List.append_nil] at hbus
  exact ⟨t, _, _, hexec, hended, hbus, congrArg SessionState.enabled hsession, congrArg SessionState.disabled hsession⟩

/-- R90, R107: INITIALIZE. -/
theorem transfers_initialize (h : s.Ready w rest) (hs : s.cfg.strict = .lenient)
    (hn : replies.length = (trafficPlan s.cfg s.session .initializeDevice).1.length)
    (hw : answers (trafficNeeds s.cfg s.session .initializeDevice replies report) w = true) :
    Transfers .initializeDevice s rest (exchangeBytes ((trafficPlan s.cfg s.session .initializeDevice).1.zip replies))
      (trafficPlan s.cfg s.session .initializeDevice).2 := by
  cases replies with
  | nil => cases hn
  | cons ack replies =>
    obtain ⟨t, hexec, hended, -, -, hsession⟩ := initializeRequest s ack replies w rest h (Nat.succ.inj hn) hw
      (replyAccepted_of_lenient hs ack) fun x _ => replyAccepted_of_lenient hs x
    exact ⟨t, _, _, hexec, hended, .initializeDevice _ _ _ _, congrArg SessionState.enabled hsession,
      congrArg SessionState.disabled hsession⟩

/-- R101, R107: POLL_REPORT. -/
theorem transfers_pollReport {ack st x y : RxFrame} (h : s.Ready w rest) (hs : s.cfg.strict = .lenient)
    (hw : answers (trafficNeeds s.cfg s.session .pollReport [ack] [st, x, y]) w = true) :
    Transfers .pollReport s rest ([.wrote s.cfg.cmdReadData, .read ack.data] ++ [st, x, y].map fun z => .read z.data) s.session := by
  obtain ⟨t, hexec, hended, -, -, hsession⟩ := exec_pollReport h (replyAccepted_of_lenient hs ack)
    (by simpa [trafficNeeds] using hw) fun z _ => frameError_good s.cfg fun hstrict => by rw [hs] at hstrict; cases hstrict
  have hbus := (PutsOnBus.exchange s.cfg s.cfg.cmdReadData ack).append (.reads s.cfg [st, x, y])
  refine ⟨t, _, _, hexec, hended, ?_, congrArg SessionState.enabled hsession, congrArg SessionState.disabled hsession⟩
  simpa using hbus

/-- R107: GET_PINS. -/
theorem transfers_getPins (h : s.Ready w rest) (hw : answers [] w = true) : Transfers .getPins s rest [] s.session := by
  cases answers_nil hw
  obtain ⟨hframe, hreport⟩ := h.inv.idle h.idle
  exact ⟨_, _, [], getPinsReturnsPins s h.inv h.idle,
    ⟨h.idle, hframe, hreport, h.env, rfl, ⟨[], (List.append_nil _).symm, rfl⟩, rfl, rfl, rfl, rfl, rfl, le_rfl⟩, .nil, rfl, rfl⟩

/-- R107: every request with a row in the table, in lenient mode. -/
theorem transfers_request {report : List RxFrame} (h : s.Ready w rest) (hs : s.cfg.strict = .lenient)
    (hrow : trafficRow s.cfg s.session i = some row) (hn : replies.length = (trafficPlan s.cfg s.session i).1.length)
    (hreport : report.length = 3) (hw : answers (trafficNeeds s.cfg s.session i replies report) w = true) :
    Transfers i s rest (exchangeBytes ((trafficPlan s.cfg s.session i).1.zip replies)
      ++ (extraReads i report).map fun x => .read x.data) (trafficPlan s.cfg s.session i).2 := by
  have hx : ∀ x ∈ replies, replyAccepted s.cfg x = true := fun x _ => replyAccepted_of_lenient hs x
  by_cases hpoll : i = .pollReport
  · subst hpoll
    obtain ⟨ack, rfl⟩ := List.length_eq_one_iff.mp hn
    obtain ⟨st, x, y, rfl⟩ := List.length_eq_three.mp hreport
    exact transfers_pollReport h hs hw
  · simp only [extraReads, hpoll, if_false, List.map_nil, List.append_nil]
    cases i with
    | initializeDevice => exact transfers_initialize h hs hn hw
    | setPolledMode | setContinuousMode => exact transfers_of_setMode h hs rfl hn hw
    | setSampleRate | setResolution | setScaling2to1 | setScaling1to1 =>
      exact transfers_of_plan h fun hat => leads_config hn hw hx hat
    | enableReporting => exact transfers_of_plan h fun hat => leads_enable hn hw hx hat
    | disableReporting => exact transfers_of_plan h fun hat => leads_disable hn hw hx hat
    | getPins => cases List.length_eq_zero_iff.mp hn; exact transfers_getPins h hw
    | pollReport => exact absurd rfl hpoll
    | _ => cases hrow

/-- Settles O52: the request puts the bytes of its plan on the bus, and its plan makes the row. -/
theorem sessionTraffic : Obligations.SessionTraffic := by
  unfold Obligations.SessionTraffic
  intro s i bytes enabled disabled replies report w rest hready hs hpolicy hguard hrow hn hreport hw
  obtain ⟨rfl, rfl, rfl⟩ := trafficPlan_makes hpolicy hguard hrow
  obtain ⟨t, payload, bus, hexec, hended, hputs, henabled, hdisabled⟩ := transfers_request hready hs hrow hn hreport hw
  obtain ⟨es, htrace, rfl⟩ := hended.bus
  exact ⟨t, es, .ok, payload, hexec, hended.pos, hended.env, hended.responses, rfl, htrace, hputs.bytesOnBus_eq, henabled, hdisabled⟩

end Sys2Proof.Machine
end

section
/-! PROOFS of the statements of spec/60_exceptions.md: a word that is no request (R54, R113), and the session fields a request that
ends in an error leaves (R111). -/

namespace Sys2Proof

/-! ### Operation codes that are no request -/

/-- R54: the operation codes outside R53's table. -/
def UndefinedOp (op : Byte) : Prop :=
  op.toNat = 0x00 ∨ (0x0C ≤ op.toNat ∧ op.toNat ≤ 0x3F) ∨ (0x41 ≤ op.toNat ∧ op.toNat ≤ 0x7F) ∨
  (0x83 ≤ op.toNat ∧ op.toNat ≤ 0x8F) ∨ (0x94 ≤ op.toNat ∧ op.toNat ≤ 0x9F) ∨ (0xA3 ≤ op.toNat ∧ op.toNat ≤ 0xFF)

/-- R53, R54: no request has an undefined operation code. -/
theorem Instr.not_undefinedOp_op (i : Instr) : ¬UndefinedOp i.op := by
  cases i <;> simp [UndefinedOp, Instr.op]

/-- R54: the only decoding error, with the word's operation code. -/
theorem eq_illegalRequest_of_decode {w : Request} {e : DecodeError} (h : decode w = .error e) : e = .illegalRequest w.op := by
  unfold decode at h
  split at h <;> cases h
  rfl

/-- R54: a word with an undefined operation code is no request. -/
theorem decode_of_undefinedOp {w : Request} (h : UndefinedOp w.op) : decode w = .error (.illegalRequest w.op) := by
  cases hdecode : decode w with
  | error e => rw [eq_illegalRequest_of_decode hdecode]
  | ok i =>
    obtain ⟨hop, -⟩ := (decode_eq_ok_iff w i).mp hdecode
    exact absurd (hop ▸ h) i.not_undefinedOp_op

/-- R53, R54: every other word is one: a code that is none of the table's is in one of the ranges of the list. -/
theorem decode_of_not_undefinedOp {w : Request} (h : ¬UndefinedOp w.op) : ∃ i, decode w = .ok i := by
  unfold decode
  split
  case h_23 =>
    refine absurd ?_ h
    unfold UndefinedOp
    simp only [imp_false, ← BitVec.toNat_inj, BitVec.reduceToNat] at *
    omega
  all_goals exact ⟨_, rfl⟩

end Sys2Proof

namespace Sys2Proof.Machine

variable {k n : Nat} {i : Instr} {m : Micro} {s t : State} {todo pre post : List Micro}

/-- R54, R113: at `Idle` a step takes a word that is no request and answers it, and does no more. -/
theorem step_of_illegal {w : Request} {rest : List Request} {e : DecodeError} (hidle : s.pos = .idle)
    (hreq : s.requests = w :: rest) (hdecode : decode w = .error e) :
    step s = .next { s with requests := rest, responses := s.responses ++ [⟨.illegalRequest, .none⟩] } := by
  simp only [step, hidle, fetchAndRun, hreq, hdecode, answerIllegal]

/-- Settles O4: the decoder's answer to each kind of operation code, and the step's to an error of the decoder. -/
theorem illegalRequests : Obligations.IllegalRequests := by
  unfold Obligations.IllegalRequests
  intro w op illegal
  refine ⟨fun hillegal => ?_, fun hlegal => decode_of_not_undefinedOp hlegal⟩
  have hdecode : decode w = .error (.illegalRequest w.op) := decode_of_undefinedOp hillegal
  exact ⟨hdecode, fun s rest hidle hreq => step_of_illegal hidle hreq hdecode⟩

/-! ### The layers of the session protocol -/

/-- R90 to R96: the highest session field that a pseudocode step, with all it calls, can write: none, then the reporting flags, then
the mode, then `initialized`. -/
def Micro.layer : Micro → Nat
  | .pause | .resume | .enableReporting | .setEnabled | .disableReporting | .setDisabled | .selectMode _ _ | .reenable _
  | .modeSettle => 1
  | .setPolledMode | .recordMode _ | .initMode => 2
  | .markInitialized => 3
  | _ => 0

/-- Steps of the layers up to `k`. -/
def layered (k : Nat) (todo : List Micro) : Bool := todo.all fun m => decide (m.layer ≤ k)

theorem layered_cons (k : Nat) (m : Micro) (todo : List Micro) :
    layered k (m :: todo) = true ↔ m.layer ≤ k ∧ layered k todo = true := by
  simp [layered]

theorem layered_append (k : Nat) (a b : List Micro) : layered k (a ++ b) = true ↔ layered k a = true ∧ layered k b = true := by
  simp [layered]

theorem layered_mono (h : layered k todo = true) (hk : k ≤ n) : layered n todo = true := by
  simp only [layered, List.all_eq_true, decide_eq_true_eq] at h ⊢
  exact fun m hm => (h m hm).trans hk

/-- The session fields that only steps above layer `k` write are as they were. -/
structure KeepsAbove (k : Nat) (p q : SessionState) : Prop where
  flags : k < 1 → q.enabled = p.enabled ∧ q.disabled = p.disabled
  mode : k < 2 → q.mode = p.mode
  initialized : k < 3 → q.initialized = p.initialized

theorem KeepsAbove.of_eq {p q : SessionState} (h : q = p) : KeepsAbove k p q :=
  ⟨fun _ => ⟨congrArg _ h, congrArg _ h⟩, fun _ => congrArg _ h, fun _ => congrArg _ h⟩

theorem KeepsAbove.trans {p q r : SessionState} (h : KeepsAbove k p q) (g : KeepsAbove k q r) : KeepsAbove k p r :=
  ⟨fun hk => ⟨(g.flags hk).1.trans (h.flags hk).1, (g.flags hk).2.trans (h.flags hk).2⟩,
    fun hk => (g.mode hk).trans (h.mode hk), fun hk => (g.initialized hk).trans (h.initialized hk)⟩

/-- R17 to R19: a step writes no field above its layer. -/
theorem Micro.tick_keepsAbove (hm : m.layer ≤ k) (h : m.tick s = .moved t) : KeepsAbove k s.session t.session := by
  rcases Micro.tick_session h with hsame | ⟨rfl, hset⟩ | ⟨rfl, hset⟩ | ⟨g, rfl, hset⟩ | ⟨rfl, hset⟩
  · exact .of_eq hsame
  all_goals rw [hset]; simp only [Micro.layer] at hm
  · exact ⟨fun hk => by omega, fun _ => rfl, fun _ => rfl⟩
  · exact ⟨fun hk => by omega, fun _ => rfl, fun _ => rfl⟩
  · exact ⟨fun _ => ⟨rfl, rfl⟩, fun hk => by omega, fun _ => rfl⟩
  · exact ⟨fun _ => ⟨rfl, rfl⟩, fun _ => rfl, fun hk => by omega⟩

/-! ### A step calls no step of a higher layer -/

/-- From `s` to `t` the request ends, or goes on with steps of the layers up to `k` put in front. -/
def Calls (k : Nat) (s t : State) : Prop := t.pos = .idle ∨ ∃ body, t.pos = s.pos.push body ∧ layered k body = true

theorem Calls.body (body : List Micro) (hpos : t.pos = s.pos.push body) (hbody : layered k body = true) : Calls k s t :=
  .inr ⟨body, hpos, hbody⟩

theorem Calls.still (hpos : t.pos = s.pos) : Calls k s t := .body [] (hpos.trans (Pos.push_nil _).symm) rfl

theorem presentMicro_layer (c : Config) (b : Bool) : (presentMicro c b).layer = 0 := by
  cases b <;> cases hone : c.dataOne <;> simp [presentMicro, hone, Micro.layer]

theorem waitLoop_layer (c : Config) (l : Line) (v : Level) : (waitLoop c l v).layer = 0 := by
  cases hwait : c.waitPolicy <;> simp [waitLoop, hwait, Micro.layer]

theorem Calls.waitDone (use : WaitUse) (reached : Bool) (s : State) : Calls k s (Machine.waitDone use reached s) := by
  cases use with
  | diagnostic => exact .body [_] rfl rfl
  | transfer =>
    cases reached with
    | true => exact .still rfl
    | false => exact .inl rfl

/-- R67: a sample puts in front what its continuation does. -/
theorem Calls.sampled {f : Level → State → State} (h : s.onSample l f = .moved t) (hf : ∀ x a, Calls k a (f x a)) :
    Calls k s t := by
  obtain ⟨_, _, -, rfl⟩ := State.onSample_cases h
  exact hf _ _

/-- R71: a clock read puts in front what its continuation does. -/
theorem Calls.clockRead {f : Time → State → State} (h : s.onNow f = .moved t) (hf : ∀ n a, Calls k a (f n a)) :
    Calls k s t := by
  obtain ⟨_, _, -, rfl⟩ := State.onNow_cases h
  exact hf _ _

/-- R26, R90 to R96: the steps an operation consists of are of its own layer or a lower one. -/
theorem Micro.tick_calls (h : m.tick s = .moved t) : Calls m.layer s t := by
  cases m with
  | low | high | rel | openWrite | closeFrame | openRead | setEnabled | setDisabled | recordMode | markInitialized =>
    cases h; exact .still rfl
  | respond p => cases h; exact .inl rfl
  | delay d => obtain ⟨_, _, -, rfl⟩ := State.onDelay_cases h; exact .still rfl
  | samp l => rw [Micro.tick_samp] at h; exact .sampled h fun _ _ => .body [_] rfl rfl
  | sampleBit dst => rw [Micro.tick_sampleBit] at h; exact .sampled h fun _ _ => .body [_, _] rfl rfl
  | wait l v => rw [Micro.tick_wait] at h; cases h; exact .body [_] rfl ((layered_cons _ _ _).mpr ⟨(waitLoop_layer _ _ _).le, rfl⟩)
  | poll l v =>
    rw [Micro.tick_poll] at h
    refine .sampled h fun x a => ?_
    split
    · exact .still rfl
    · exact .body [_] rfl rfl
  | bwait l v n use => rw [Micro.tick_bwait] at h; exact .clockRead h fun _ _ => .body [_] rfl rfl
  | bwaitSample l v n start use =>
    rw [Micro.tick_bwaitSample] at h
    refine .sampled h fun x a => ?_
    split
    · exact .waitDone _ _ _
    · exact .body [_] rfl rfl
  | bwaitCheck l v n start use =>
    rw [Micro.tick_bwaitCheck] at h
    refine .clockRead h fun x a => ?_
    split
    · exact .waitDone _ _ _
    · exact .body [_] rfl rfl
  | present b => cases h; exact .body [_] rfl ((layered_cons _ _ _).mpr ⟨(presentMicro_layer _ _).le, rfl⟩)
  | sendBit b => cases h; exact .body (sendBitBody b) rfl rfl
  | recvBit dst => cases h; exact .body (recvBitBody dst) rfl rfl
  | writeByte v => cases h; exact .body (writeByteBody v) rfl rfl
  | readByte dst => cases h; exact .body (readByteBody dst) rfl rfl
  | sendCmd c => cases h; exact .body (sendCmdBody c) rfl rfl
  | selectMode c g => cases h; exact .body (selectModeBody c g) rfl rfl
  | setPolledMode => cases h; exact .body (setPolledModeBody s.cfg) rfl rfl
  | writeReport => cases h; exact .body [.respondReport] rfl rfl
  | bitReturn dst =>
    simp only [Micro.tick_bitReturn, stepBitReturn] at h
    repeat' split at h
    all_goals cases h
    · exact .body [_] rfl rfl
    all_goals exact .still rfl
  | byteReturn dst =>
    simp only [Micro.tick_byteReturn, stepByteReturn] at h
    split at h <;> cases h
    exact .body _ rfl (by cases dst <;> rfl)
  | sendData | sendParity | initMode =>
    simp only [Micro.tick, stepSendData, stepSendParity, stepInitMode] at h
    repeat' split at h
    all_goals cases h
    all_goals exact .body _ rfl rfl
  | accumulate =>
    simp only [Micro.tick_accumulate, stepAccumulate] at h
    repeat' split at h
    all_goals cases h
    exact .still rfl
  | pause | resume | enableReporting | disableReporting | reenable =>
    simp only [Micro.tick, stepPause, stepResume, stepEnableReporting, stepDisableReporting, stepReenable] at h
    split at h <;> cases h
    · exact .still rfl
    · exact .body _ rfl rfl
  | modeSettle =>
    simp only [Micro.tick_modeSettle, stepModeSettle] at h
    split at h <;> cases h
    · exact .body _ rfl rfl
    · exact .still rfl
  | checkFrame =>
    simp only [Micro.tick_checkFrame, stepCheckFrame] at h
    repeat' split at h
    all_goals cases h
    · exact .still rfl
    · exact .inl rfl
  | checkAck =>
    simp only [Micro.tick_checkAck, stepCheckAck] at h
    split at h <;> cases h
    · exact .still rfl
    · exact .inl rfl
  | respondReport =>
    simp only [Micro.tick_respondReport, stepRespondReport] at h
    split at h <;> cases h
    exact .inl rfl

/-! ### Runs that end in an error -/

/-- R111: from the steps `todo`, a run of the request `i` that ends in an error leaves the session fields above layer `k` as they
were. -/
def ErrorKeeps (k : Nat) (i : Instr) (todo : List Micro) : Prop :=
  ∀ (s t : State) (r : Response), s.pos = .busy i todo → s.Reaches t → t.responses = s.responses ++ [r] → r.code ≠ .ok →
    KeepsAbove k s.session t.session

/-- A run that has answered has moved. -/
theorem State.Reaches.moves_of_answer {r : Response} (h : s.Reaches t) (hr : t.responses = s.responses ++ [r]) :
    ∃ u, s.tick = .moved u ∧ u.Reaches t := by
  rcases Relation.ReflTransGen.cases_head h with rfl | hmoves
  · exact absurd hr (by simp)
  · exact hmoves

/-- R57: with no step left the request responds OK. -/
theorem State.Reaches.ok_of_done {r : Response} (h : s.Reaches t) (hpos : s.pos = .busy i [])
    (hr : t.responses = s.responses ++ [r]) : r.code = .ok := by
  obtain ⟨u, hmove, hreach⟩ := h.moves_of_answer hr
  rw [State.tick_done hpos] at hmove; cases hmove
  obtain rfl := hreach.eq_of_idle rfl
  obtain rfl : ⟨.ok, .none⟩ = r := by simpa using hr
  rfl

theorem ErrorKeeps.done : ErrorKeeps k i [] :=
  fun _ _ _ hpos hreach hr hne => absurd (hreach.ok_of_done hpos hr) hne

/-- R90 to R96: the steps that only write session fields. -/
def Micro.onlyWrites : Micro → Bool
  | .setEnabled | .setDisabled | .recordMode _ | .markInitialized => true
  | _ => false

theorem Micro.tick_onlyWrites (hm : m.onlyWrites = true) (h : m.tick s = .moved t) :
    t.pos = s.pos ∧ t.responses = s.responses := by
  cases m with
  | setEnabled | setDisabled | recordMode | markInitialized => cases h; exact ⟨rfl, rfl⟩
  | _ => cases hm

/-- R111: a write that is the last step of its request stands after every step that can end the request in an error. -/
theorem ErrorKeeps.last (hm : m.onlyWrites = true) : ErrorKeeps k i [m] := by
  intro s t r hpos hreach hr hne
  obtain ⟨u, hmove, hreach⟩ := hreach.moves_of_answer hr
  rw [State.tick_busy hpos] at hmove
  obtain ⟨hupos, huresponses⟩ := Micro.tick_onlyWrites hm hmove
  exact absurd (hreach.ok_of_done hupos (huresponses ▸ hr)) hne

/-- R111: before steps of which this is true may stand any steps of the layers up to `k`, and all that they call. -/
theorem ErrorKeeps.append (hpre : layered k pre = true) (hpost : ErrorKeeps k i post) : ErrorKeeps k i (pre ++ post) := by
  intro s t r hpos hreach hr hne
  induction hreach using Relation.ReflTransGen.head_induction_on generalizing pre with
  | refl => exact absurd hr (by simp)
  | @head s u hmove hreach ih =>
    cases pre with
    | nil => exact hpost s t r hpos ((State.Moves.reaches hmove).trans hreach) hr hne
    | cons m pre =>
      obtain ⟨hm, hpre⟩ := (layered_cons k m pre).mp hpre
      have htick : m.tick (s.stepped i (pre ++ post)) = .moved u := (State.tick_busy hpos).symm.trans hmove
      have hkeeps : KeepsAbove k s.session u.session := Micro.tick_keepsAbove (s := s.stepped i (pre ++ post)) hm htick
      by_cases hidle : u.pos = .idle
      · obtain rfl := State.Reaches.eq_of_idle hreach hidle
        exact hkeeps
      · obtain ⟨hresponses, -⟩ := (State.tick_facts hmove).answered.resolve_right fun ⟨_, _, _, h, _⟩ => hidle h
        obtain ⟨body, hupos, hbody⟩ := (Micro.tick_calls htick).resolve_left hidle
        have hlayered : layered k (body ++ pre) = true := (layered_append k _ _).mpr ⟨layered_mono hbody hm, hpre⟩
        refine hkeeps.trans (ih hlayered (hupos.trans ?_) (hresponses ▸ hr))
        exact congrArg (Pos.busy i) (List.append_assoc ..).symm

/-- R89, R95, R96: a flag operation does nothing, or exchanges its command before it writes the flags. -/
theorem ErrorKeeps.flagOperation {write : Micro} (hwrite : write.onlyWrites = true)
    (hm : ∀ s : State, m.tick s = .moved s ∨ ∃ c, m.tick s = .moved (s.push [.sendCmd c, write])) : ErrorKeeps 0 i [m] := by
  intro s t r hpos hreach hr hne
  obtain ⟨u, hmove, hreach⟩ := hreach.moves_of_answer hr
  rw [State.tick_busy hpos] at hmove
  rcases hm (s.stepped i []) with htick | ⟨c, htick⟩
  · obtain rfl := Tick.moved.inj (htick.symm.trans hmove)
    exact ErrorKeeps.done (s.stepped i []) t r rfl hreach hr hne
  · obtain rfl := Tick.moved.inj (htick.symm.trans hmove)
    exact ErrorKeeps.append (pre := [.sendCmd c]) rfl (.last hwrite) ((s.stepped i []).push [.sendCmd c, write]) t r rfl hreach hr hne

/-- R95: the flags of an enable are written after its exchange. -/
theorem errorKeeps_enableReporting : ErrorKeeps 0 i [.enableReporting] :=
  .flagOperation (write := .setEnabled) rfl fun s => by
    rw [Micro.tick_enableReporting, stepEnableReporting]
    split
    · exact .inl rfl
    · exact .inr ⟨_, rfl⟩

/-- R96: the flags of a disable are written after its exchange. -/
theorem errorKeeps_disableReporting : ErrorKeeps 0 i [.disableReporting] :=
  .flagOperation (write := .setDisabled) rfl fun s => by
    rw [Micro.tick_disableReporting, stepDisableReporting]
    split
    · exact .inl rfl
    · exact .inr ⟨_, rfl⟩

/-- R92, R93: the mode is recorded after the whole exchange of `select_mode`. -/
theorem errorKeeps_recordMode (c : Byte) (g g' : Mode) : ErrorKeeps 1 i [.selectMode c g, .recordMode g'] :=
  .append (pre := [.selectMode c g]) rfl (.last rfl)

/-- R90: `initialized` is written after every other step of INITIALIZE. -/
theorem errorKeeps_initialize (c : Config) : ErrorKeeps 2 i (initializeBody c) :=
  .append (pre := [.rel .dat, .rel .clk, .delay .initRelease, .writeByte c.cmdReset, .delay .initReset, .readByte .ack,
    .initMode, .delay .initFinal]) rfl (.last rfl)

/-- R57, R111: an answered request leaves the engine at `Idle`, with no frame and no report. -/
theorem State.Reaches.idle_of_answer {r : Response} (h : s.Reaches t) (hs : s.Inv) (hpos : s.pos = .busy i todo)
    (hr : t.responses = s.responses ++ [r]) : t.pos = .idle ∧ t.frame = none ∧ t.report = none := by
  have hinv : t.Inv := h.keeps (fun _ _ => State.tick_inv) hs
  rcases h.progress hpos with ⟨hidle, -⟩ | ⟨hsame, -⟩
  · exact ⟨hidle, hinv.idle hidle⟩
  · exact absurd (hsame.symm.trans hr) (by simp)

/-- R111: what an error of the request `i` leaves of the session fields of `p`. -/
structure WritesUnmade (i : Instr) (p q : SessionState) : Prop where
  mode : q.mode = p.mode
  initialized : q.initialized = p.initialized
  flags : i = .enableReporting ∨ i = .disableReporting → q.enabled = p.enabled ∧ q.disabled = p.disabled

/-- R90 to R96, R111: of the requests that may write a field at all (O17), those that R111 speaks of write it last. -/
theorem exec_writesUnmade {r : Response} (hs : s.Inv) (hexec : exec i s = .next t) (hr : t.responses = s.responses ++ [r])
    (hne : r.code ≠ .ok) : WritesUnmade i s.session t.session := by
  obtain ⟨hidle, hreach, -⟩ := exec_next hexec
  have hwrites : SessionWrites i s.session t.session := hreach.sessionWrites (start_inv (rest := s.requests) hs hidle) rfl
  have hkeeps {k : Nat} (h : ErrorKeeps k i (requestBody i s)) : KeepsAbove k s.session t.session :=
    h (s.stepped i (requestBody i s)) t r rfl hreach hr hne
  refine ⟨?_, ?_, ?_⟩
  · by_contra hmode
    rcases hwrites.mode hmode with ⟨rfl, -⟩ | ⟨rfl, -⟩
    · exact hmode ((hkeeps (errorKeeps_recordMode _ _ _)).mode (by decide))
    · exact hmode ((hkeeps (errorKeeps_recordMode _ _ _)).mode (by decide))
  · by_contra hinitialized
    obtain ⟨rfl, -⟩ := hwrites.initialized hinitialized
    exact hinitialized ((hkeeps (errorKeeps_initialize _)).initialized (by decide))
  · rintro (rfl | rfl)
    · exact (hkeeps errorKeeps_enableReporting).flags (by decide)
    · exact (hkeeps errorKeeps_disableReporting).flags (by decide)

/-- Settles O57: the fields by the order of a request's steps, the rest by the invariant. -/
theorem errorsLeaveWritesUnmade : Obligations.ErrorsLeaveWritesUnmade := by
  unfold Obligations.ErrorsLeaveWritesUnmade
  intro i s t r hs hexec hr hne
  obtain ⟨hidle, hreach, -⟩ := exec_next hexec
  obtain ⟨hpos, hframe, hreport⟩ := hreach.idle_of_answer (start_inv (rest := s.requests) hs hidle) rfl hr
  obtain ⟨hmode, hinitialized, hflags⟩ := exec_writesUnmade hs hexec hr hne
  exact ⟨hmode, hinitialized, hframe, hreport, hpos, hflags⟩

end Sys2Proof.Machine
end
